-- ==== Sys2Proof/Word.lean ====
section
/-! DEFINITION. The word types of HUFFCORE (spec/00_scope.md R6): 8-bit symbols and bytes, 16-bit node indices,
32-bit registers and addresses, 40-bit merged weights. -/

namespace Sys2Proof

/-- SYM_W = 8: a symbol, and one byte of SRC or DST (R6, R21). -/
abbrev Byte := BitVec 8

/-- IDX_W = COUNT_W = 16: a node index and the node count (R6). -/
abbrev Idx := BitVec 16

/-- CSR_W = ADDR_W = BITCNT_W = FREQ_W = 32: every host-visible register (R6). -/
abbrev Word := BitVec 32

/-- WSUM_W = 40: a merged weight during construction (R6). -/
abbrev Weight := BitVec 40

end Sys2Proof
end

