-- ==== Sys2Proof/Config.lean ====
section
/-! DEFINITION. The parameters of HUFFCORE (spec/00_scope.md R6). SRC_SIZE and DST_SIZE are OPEN in the spec; they are
the two fields of `Config`, which State carries and no step changes (log 3). The others are fixed by R6. -/

namespace Sys2Proof

/-- The OPEN parameters of R6: the sizes of the two memories, each 0 .. 2^32 - 1. -/
structure Config where
  /-- SRC_SIZE: bytes in the source memory. -/
  srcSize : Word
  /-- DST_SIZE: bytes in the sink memory. -/
  dstSize : Word
deriving DecidableEq, Repr

/-- The sizes `State.reset` has: the largest R6 allows. DESIGN CHOICE (log 3). -/
def Config.largest : Config := { srcSize := 0xFFFFFFFF#32, dstSize := 0xFFFFFFFF#32 }

/-- SENTINEL = 0xFFFF: "no child" and "no parent" (R6, R15). -/
abbrev sentinel : Idx := 0xFFFF#16

/-- NODE_CAP = 65535: most nodes the node array holds (R6). -/
abbrev nodeCap : Nat := 65535

/-- STK_DEPTH = 256: entries of the side-bit stack (R6, R19). -/
abbrev stkDepth : Nat := 256

/-- REC_BYTES = 8: bytes of one node record (R6, R85). -/
abbrev recBytes : Nat := 8

/-- SYNTH0 = 0x00, first synthetic symbol of the degenerate-alphabet rule (R6, R164). -/
abbrev synth0 : Byte := 0x00#8

/-- SYNTH1 = 0x01, second synthetic symbol (R6, R164). -/
abbrev synth1 : Byte := 0x01#8

/-- What a byte of SRC or DST that nothing has written reads as. DESIGN CHOICE, unsafe (log 4): R310 leaves the contents
at power-up unspecified. -/
abbrev unlistedByte : Byte := 0x00#8

end Sys2Proof
end

