-- ==== Sys2Proof/Syntax.lean ====
section
/-! DEFINITION. The command set of HUFFCORE (spec/30_encoding.md R83): one constructor per row of
spec/opcode_table.json, in the table's order. Operands as R91 gives them. -/

namespace Sys2Proof

/-- The 28 commands of R83. -/
inductive Instr where
  /-- NOP, OP 0x00 (R250). -/
  | nop
  /-- BW.OPEN, OP 0x01 (R121). -/
  | bwOpen
  /-- BW.WRITE b, OP 0x02 (R122): the 8-bit ARG field, whose legal values are 0 and 1 (R81, R91). -/
  | bwWrite (arg : Byte)
  /-- BW.FLUSH, OP 0x03 (R123). -/
  | bwFlush
  /-- BW.DESTROY, OP 0x04 (R125). -/
  | bwDestroy
  /-- BW.SIZE, OP 0x05 (R126). -/
  | bwSize
  /-- BR.OPEN, OP 0x08 (R141). -/
  | brOpen
  /-- BR.READ, OP 0x09 (R142). -/
  | brRead
  /-- BR.EOS, OP 0x0A (R143). -/
  | brEos
  /-- BR.SIZE, OP 0x0B (R144). -/
  | brSize
  /-- FC.CLEAR, OP 0x10 (R161). -/
  | fcClear
  /-- FC.SET s, OP 0x11 (R162): the symbol is the ARG field. -/
  | fcSet (sym : Byte)
  /-- FC.COUNT, OP 0x12 (R163). -/
  | fcCount
  /-- FC.PAD, OP 0x13 (R164). -/
  | fcPad
  /-- FC.GET s, OP 0x14 (R165): the symbol is the ARG field. -/
  | fcGet (sym : Byte)
  /-- FC.NSYM, OP 0x15 (R166). -/
  | fcNsym
  /-- HT.BUILD, OP 0x20 (R181). -/
  | htBuild
  /-- HT.SAVE, OP 0x21 (R221). -/
  | htSave
  /-- HT.LOAD, OP 0x22 (R223). -/
  | htLoad
  /-- HT.ENCODE, OP 0x23 (R201). -/
  | htEncode
  /-- HT.DECODE, OP 0x24 (R205). -/
  | htDecode
  /-- HT.ADSIZE, OP 0x25 (R226). -/
  | htAdsize
  /-- HT.SNAP, OP 0x26 (R187). -/
  | htSnap
  /-- HT.EQ, OP 0x27 (R188). -/
  | htEq
  /-- ENCODE, OP 0x30 (R241). -/
  | facadeEncode
  /-- DECODE, OP 0x31 (R243). -/
  | facadeDecode
  /-- ERR.CLEAR, OP 0x3E (R251). -/
  | errClear
  /-- SRESET, OP 0x3F (R252). -/
  | sreset
deriving DecidableEq, Repr

end Sys2Proof
end

