-- ==== Sys2Proof/WellFormed.lean ====
section
/-! DEFINITION. Which commands are well formed. The one check beyond the operand types is R91's: BW.WRITE takes its bit
from w[8] and w[15:9] must be 0, so its ARG field is 0 or 1. FC.SET and FC.GET take every symbol 0..255. -/

namespace Sys2Proof

/-- A command some legal command word stands for (R81, R91). -/
def Instr.wellFormed : Instr → Bool
  | .bwWrite arg => arg.toNat ≤ 1
  | .nop | .bwOpen | .bwFlush | .bwDestroy | .bwSize | .brOpen | .brRead | .brEos | .brSize | .fcClear | .fcSet _
  | .fcCount | .fcPad | .fcGet _ | .fcNsym | .htBuild | .htSave | .htLoad | .htEncode | .htDecode | .htAdsize
  | .htSnap | .htEq | .facadeEncode | .facadeDecode | .errClear | .sreset => true

end Sys2Proof
end

