-- ==== Sys2Proof/Decode.lean ====
section
/-! DEFINITION. Decoding a command word (spec/30_encoding.md R81 to R83, R91, R95), total on every 32-bit word and
rejecting by name, then the encoder written from the same map, then the host's entry `decodeTableWord`.
The gate, R82's first line, depends on the state and stands in Machine/HostPort.lean. -/

namespace Sys2Proof

/-- Why a word is no command, in R82's order. Each is reported as ILLEGAL_OP(BAD_ARG) or ILLEGAL_OP(BAD_OPCODE). -/
inductive DecodeError where
  /-- w[31:16] is not 0: BAD_ARG. -/
  | zeroField
  /-- w[7:0] is a reserved opcode (R95): BAD_OPCODE. -/
  | reservedOpcode
  /-- w[15:9] of BW.WRITE, or w[15:8] of a command without operand, is not 0: BAD_ARG. -/
  | argField
deriving DecidableEq, Repr

/-- OP = w[7:0] (R81). -/
def opField (w : Word) : Byte := w.extractLsb' 0 8

/-- ARG = w[15:8] (R81). -/
def argField (w : Word) : Byte := w.extractLsb' 8 8

/-- ZERO = w[31:16] (R81). -/
def zeroField (w : Word) : BitVec 16 := w.extractLsb' 16 16

/-- The opcode map of R83: the command that OP selects, with ARG as its operand where it has one; none where OP is
reserved (R95). -/
def instrOf (op arg : Byte) : Option Instr :=
  match op.toNat with
  | 0x00 => some .nop
  | 0x01 => some .bwOpen
  | 0x02 => some (.bwWrite arg)
  | 0x03 => some .bwFlush
  | 0x04 => some .bwDestroy
  | 0x05 => some .bwSize
  | 0x08 => some .brOpen
  | 0x09 => some .brRead
  | 0x0A => some .brEos
  | 0x0B => some .brSize
  | 0x10 => some .fcClear
  | 0x11 => some (.fcSet arg)
  | 0x12 => some .fcCount
  | 0x13 => some .fcPad
  | 0x14 => some (.fcGet arg)
  | 0x15 => some .fcNsym
  | 0x20 => some .htBuild
  | 0x21 => some .htSave
  | 0x22 => some .htLoad
  | 0x23 => some .htEncode
  | 0x24 => some .htDecode
  | 0x25 => some .htAdsize
  | 0x26 => some .htSnap
  | 0x27 => some .htEq
  | 0x30 => some .facadeEncode
  | 0x31 => some .facadeDecode
  | 0x3E => some .errClear
  | 0x3F => some .sreset
  | _ => none

/-- The ARG values an opcode admits (R82's fourth and fifth line). -/
def argLegal (op arg : Byte) : Bool :=
  if op = 0x02#8 then arg.toNat ≤ 1
  else if op = 0x11#8 || op = 0x14#8 then true
  else arg = 0

/-- Decoding a command word, in the order of R82. -/
def decode (w : Word) : Except DecodeError Instr :=
  if zeroField w ≠ 0 then .error .zeroField
  else
    match instrOf (opField w) (argField w) with
    | none => .error .reservedOpcode
    | some i => if argLegal (opField w) (argField w) then .ok i else .error .argField

/-- The opcode of each command (R83). -/
def opcode : Instr → Byte
  | .nop => 0x00#8
  | .bwOpen => 0x01#8
  | .bwWrite _ => 0x02#8
  | .bwFlush => 0x03#8
  | .bwDestroy => 0x04#8
  | .bwSize => 0x05#8
  | .brOpen => 0x08#8
  | .brRead => 0x09#8
  | .brEos => 0x0A#8
  | .brSize => 0x0B#8
  | .fcClear => 0x10#8
  | .fcSet _ => 0x11#8
  | .fcCount => 0x12#8
  | .fcPad => 0x13#8
  | .fcGet _ => 0x14#8
  | .fcNsym => 0x15#8
  | .htBuild => 0x20#8
  | .htSave => 0x21#8
  | .htLoad => 0x22#8
  | .htEncode => 0x23#8
  | .htDecode => 0x24#8
  | .htAdsize => 0x25#8
  | .htSnap => 0x26#8
  | .htEq => 0x27#8
  | .facadeEncode => 0x30#8
  | .facadeDecode => 0x31#8
  | .errClear => 0x3E#8
  | .sreset => 0x3F#8

/-- The ARG field of each command: its operand, else 0 (R81, R91). -/
def argOf : Instr → Byte
  | .bwWrite arg => arg
  | .fcSet sym => sym
  | .fcGet sym => sym
  | .nop | .bwOpen | .bwFlush | .bwDestroy | .bwSize | .brOpen | .brRead | .brEos | .brSize | .fcClear
  | .fcCount | .fcPad | .fcNsym | .htBuild | .htSave | .htLoad | .htEncode | .htDecode | .htAdsize
  | .htSnap | .htEq | .facadeEncode | .facadeDecode | .errClear | .sreset => 0#8

/-- The command word of a command: ZERO, ARG, OP from high to low (R81). -/
def encode (i : Instr) : Word := (0#16 ++ argOf i ++ opcode i : BitVec 32)

/-- The host's entry: what the decoder reads from the one word of a table row, whose bits are w below nbits. A command
word has 32 bits (R80); a longer one is none. -/
def decodeTableWord (nbits w : Nat) : Option Instr :=
  if nbits ≤ 32 then
    match decode (BitVec.ofNat 32 (w % 2 ^ nbits)) with
    | .ok i => some i
    | .error _ => none
  else none

end Sys2Proof
end

