-- ==== Sys2Proof/Machine/State.lean ====
section
/-! DEFINITION. The state of HUFFCORE (spec/10_state.md), the exceptions it records (spec/60_exceptions.md R271, R272),
the host's accesses (spec/10_state.md R30 to R33, spec/47_system.md R256), the reasons the model stops, and the state
after reset (spec/70_reset_and_hazards.md R310). -/

namespace Sys2Proof.Machine

/-- Exception kinds (R271). -/
inductive ErrKind where
  | formatError
  | endOfSequence
  | symbolNotFound
  | illegalOp
  | capacity
deriving DecidableEq, Repr

/-- Exception causes (R272). -/
inductive ErrCause where
  | treeCountShort
  | treeRecordsShort
  | bithdrShort
  | payloadShort
  | sentinelChild
  | bitsExhausted
  | treeIndexRange
  | treeEmpty
  | noLeaf
  | badOpcode
  | badArg
  | bwState
  | brState
  | sinkBound
  | badCsr
  | sinkRange
  | bitcntOverflow
  | stackOverflow
  | srcEndRange
deriving DecidableEq, Repr

/-- An exception is a pair (kind, cause) (R271). -/
structure Exc where
  kind : ErrKind
  cause : ErrCause
deriving DecidableEq, Repr

/-- A node record (R15). `side` is the 1-bit field, true for 1. -/
structure Node where
  c0 : Idx
  c1 : Idx
  par : Idx
  side : Bool
  sym : Byte
deriving DecidableEq, Repr

/-- An entry of the priority structure PQ (R20). -/
structure PqEntry where
  weight : Weight
  idx : Idx
deriving DecidableEq, Repr

/-- A byte memory: the listed cells in rising order of address, none equal to what an unlisted address reads as. -/
abbrev Memory := List Host.Cell

/-- One thing the host does, between commands (R10, R256). -/
inductive HostAccess where
  /-- Read the register of this number (R32). -/
  | read (reg : Byte)
  /-- Write this value to the register of this number (R33); a write of number 0 (CMD) is a command. -/
  | write (reg : Byte) (v : Word)
  /-- Assert the reset input `rst` (R310). -/
  | rst
  /-- Write a byte of SRC (R256). -/
  | srcPoke (a : Word) (b : Byte)
  /-- Write a byte of DST (R256). -/
  | dstPoke (a : Word) (b : Byte)
  /-- Read a byte of DST (R256). -/
  | dstPeek (a : Word)
deriving DecidableEq, Repr

/-- The whole machine. Field by field the registers of R12, the arrays of R15 to R20, the memories of R21; then the
model's own: the sizes R11 calls arguments of the model, and the host's side of the port. NN and SNN are the lengths of
`node` and `snode` (R15, R17; log 6). -/
structure State where
  /-- SRC_SIZE and DST_SIZE: not state (R11), never changed by a step (log 3). -/
  cfg : Config
  /-- BW_OPEN: a bit writer is bound to the sink. -/
  bwOpen : Bool
  /-- BW_HDR: sink address of the writer's header. -/
  bwHdr : Word
  /-- BW_CNT: bits written so far. -/
  bwCnt : Word
  /-- BW_ACC: the in-progress output byte. -/
  bwAcc : Byte
  /-- BR_OPEN: a bit reader exists. -/
  brOpen : Bool
  /-- BR_SIZE: the declared bit count. -/
  brSize : Word
  /-- BR_CNT: bits consumed so far. -/
  brCnt : Word
  /-- BR_CUR: the payload byte being unpacked. -/
  brCur : Byte
  /-- SRC_POS: address of the next source byte. -/
  srcPos : Word
  /-- SRC_END: one past the last readable source byte. -/
  srcEnd : Word
  /-- DST_POS: the sink's write position. -/
  dstPos : Word
  /-- SRC_EOF: a read was attempted with no byte available. -/
  srcEof : Bool
  /-- NODE, indices 0 to NN - 1 (R15). -/
  node : List Node
  /-- SNODE, indices 0 to SNN - 1 (R17). -/
  snode : List Node
  /-- FREQ[s] (R18). -/
  freq : Vector Word 256
  /-- PRESENT[s] (R18). -/
  present : Vector Bool 256
  /-- STK, the side-bit stack (R19). -/
  stk : Vector Bool 256
  /-- SP, 0..256 (R19). -/
  sp : Nat
  /-- PQ, in extraction order (R20, R183; log 15). -/
  pq : List PqEntry
  /-- WARG: the weight argument of FC.SET. -/
  warg : Word
  /-- RESULT: the value of the last value-returning command. -/
  result : Word
  /-- ERR_KIND (R271). -/
  errKind : BitVec 3
  /-- ERR_CAUSE (R271). -/
  errCause : BitVec 5
  /-- The source memory SRC (R21). -/
  src : Memory
  /-- The sink memory DST (R21). -/
  dst : Memory
  /-- The model's own: the host accesses still to come, oldest first (log 1). -/
  pending : List HostAccess
  /-- The model's own: the data last returned to the host (h_rdata of R253, or a DST byte; log 2). -/
  rdata : Word
deriving DecidableEq, Repr

/-- Why the model stops with a fault. Both are safe: the machine does less than the hardware. -/
inductive Fault where
  /-- An engine read of SRC at an address at or beyond SRC_SIZE, which the memory does not have (R21). Raised by the SRC
  primitives of Ops; impossible where SRC_END ≤ SRC_SIZE, which R34 says of every reachable state (log 7). Safe. -/
  | srcHole
  /-- A host byte access (R256) at an address the memory does not have. Raised by the host port (log 8). Safe. -/
  | hostHole
deriving DecidableEq, Repr

/-- Why the model refuses an instruction. No instruction is refused: every command has a rule. -/
inductive Refusal where
  /-- The instruction has no meaning in the model yet. Raised by no arm. Safe. -/
  | notModelled (mnemonic : String)
deriving DecidableEq, Repr

/-- The outcome of one step of this machine. -/
abbrev Result := Host.Outcome State Fault Refusal

/-- The machine right after reset (R310, and the reset columns of R12 and R30). STK: log 5; the sizes: log 3; the
memories: log 4; the host's side: logs 1 and 2. -/
def State.reset : State where
  cfg := Config.largest
  bwOpen := false
  bwHdr := 0
  bwCnt := 0
  bwAcc := 0
  brOpen := false
  brSize := 0
  brCnt := 0
  brCur := 0
  srcPos := 0
  srcEnd := 0
  dstPos := 0
  srcEof := false
  node := []
  snode := []
  freq := Vector.replicate 256 0
  present := Vector.replicate 256 false
  stk := Vector.replicate 256 false
  sp := 0
  pq := []
  warg := 0
  result := 0
  errKind := 0
  errCause := 0
  src := []
  dst := []
  pending := []
  rdata := 0

end Sys2Proof.Machine
end

