-- ==== Sys2Proof/Machine/Ops.lean ====
section
/-! DEFINITION. The shared operations over memory, the source stream, the sink, and the exception record
(spec/00_scope.md R7 and R8, spec/10_state.md R21, spec/20_memory.md R50, R54, R58, R59, spec/60_exceptions.md R280 to
R283, R285). -/

namespace Sys2Proof.Machine

/-! ## A byte memory -/

/-- The byte at address `a`. -/
def Memory.read : Memory → Nat → Byte
  | [], _ => unlistedByte
  | (k, v) :: m, a => if k = a then v else Memory.read m a

/-- Store byte `b` at address `a`, keeping the canonical form: a byte equal to what an unlisted address reads as is not
listed. -/
def Memory.write : Memory → Nat → Byte → Memory
  | [], a, b => if b = unlistedByte then [] else [(a, b)]
  | (k, v) :: m, a, b =>
    if a < k then (if b = unlistedByte then (k, v) :: m else (a, b) :: (k, v) :: m)
    else if a = k then (if b = unlistedByte then m else (a, b) :: m)
    else (k, v) :: Memory.write m a b

/-- Store bytes at a, a+1, ... in ascending order (R54). -/
def Memory.writeBytes : Memory → Nat → List Byte → Memory
  | m, _, [] => m
  | m, a, b :: bs => Memory.writeBytes (m.write a b) (a + 1) bs

/-- The n bytes at a, a+1, ..., a+n-1. -/
def Memory.readBytes (m : Memory) (a n : Nat) : List Byte := (List.range n).map fun j => m.read (a + j)

/-- The canonical form: addresses strictly rising, no entry equal to what an unlisted address reads as. -/
abbrev Memory.wf (m : Memory) : Prop := m.Pairwise (fun c d => c.1 < d.1) ∧ ∀ c ∈ m, c.2 ≠ unlistedByte

/-- Every listed address exists in a memory of `size` bytes (R21). -/
abbrev Memory.within (m : Memory) (size : Word) : Prop := ∀ c ∈ m, c.1 < size.toNat

/-! ## Little-endian integers (R7, R50) -/

/-- `MemRead` of R7: byte a plus 256 times the rest. -/
def memRead (m : Memory) (a : Nat) : Nat → Nat
  | 0 => 0
  | n + 1 => (m.read a).toNat + 256 * memRead m (a + 1) n

/-- The n bytes `MemWrite` of R7 stores for v, lowest address first. -/
def leBytes : Nat → Nat → List Byte
  | 0, _ => []
  | n + 1, v => BitVec.ofNat 8 v :: leBytes n (v / 256)

/-- `ceil8` of R7. -/
def ceil8 (n : Nat) : Nat := (n + 7) / 8

/-! ## Operations that end normally, by raising, or by a fault -/

/-- How an operation ends: normally with a value, at a `raise` (R283: with exactly the changes made before it), or at an
access to a byte that does not exist (log 7). -/
inductive Eff (α : Type) where
  | done (a : α) (s : State)
  | raised (e : Exc) (s : State)
  | stop (f : Fault)
deriving Repr

/-- Go on with `f` where the operation ended normally; a raise propagates to the caller (R7). -/
def Eff.andThen {α β : Type} (r : Eff α) (f : α → State → Eff β) : Eff β :=
  match r with
  | .done a s => f a s
  | .raised e s => .raised e s
  | .stop x => .stop x

/-! ## The exception record -/

/-- The code of a kind in ERR_KIND (R271). -/
def ErrKind.code : ErrKind → BitVec 3
  | .formatError => 1
  | .endOfSequence => 2
  | .symbolNotFound => 3
  | .illegalOp => 4
  | .capacity => 5

/-- The code of a cause in ERR_CAUSE (R272). -/
def ErrCause.code : ErrCause → BitVec 5
  | .treeCountShort => 1
  | .treeRecordsShort => 2
  | .bithdrShort => 3
  | .payloadShort => 4
  | .sentinelChild => 5
  | .bitsExhausted => 6
  | .treeIndexRange => 7
  | .treeEmpty => 8
  | .noLeaf => 9
  | .badOpcode => 16
  | .badArg => 17
  | .bwState => 18
  | .brState => 19
  | .sinkBound => 20
  | .badCsr => 21
  | .sinkRange => 24
  | .bitcntOverflow => 25
  | .stackOverflow => 26
  | .srcEndRange => 27

/-- FORMAT_ERROR(c). -/
abbrev formatErr (c : ErrCause) : Exc := { kind := .formatError, cause := c }

/-- ILLEGAL_OP(c). -/
abbrev illegalOp (c : ErrCause) : Exc := { kind := .illegalOp, cause := c }

/-- CAPACITY(c). -/
abbrev capacity (c : ErrCause) : Exc := { kind := .capacity, cause := c }

/-- Taking an exception (R280, R281): record kind and cause if none is recorded; nothing else, and control goes
nowhere. -/
def raiseExc (e : Exc) (s : State) : State :=
  if s.errKind = 0 then { s with errKind := e.kind.code, errCause := e.cause.code } else s

/-- The only return from one (R251, R285): clear the record, restore nothing. -/
def clearExc (s : State) : State := { s with errKind := 0, errCause := 0 }

/-- The end of a command: a raise is recorded (R280), and the command has made exactly the changes before it (R283). -/
def Eff.finish {α : Type} : Eff α → Result
  | .done _ s => .next s
  | .raised e s => .next (raiseExc e s)
  | .stop f => .fault f

/-! ## The source stream (R8, R58) -/

/-- `SrcAvail()` of R8. -/
def srcAvail (s : State) : Nat :=
  if s.srcPos.toNat ≤ s.srcEnd.toNat then s.srcEnd.toNat - s.srcPos.toNat else 0

/-- The n bytes of SRC at a exist (R21). -/
def srcHas (s : State) (a n : Nat) : Bool := a + n ≤ s.cfg.srcSize.toNat

/-- `SrcNext()` of R8; `none` is EOF. -/
def srcNext (s : State) : Eff (Option Byte) :=
  if srcAvail s = 0 then .done none { s with srcEof := true }
  else if srcHas s s.srcPos.toNat 1 then .done (some (s.src.read s.srcPos.toNat)) { s with srcPos := s.srcPos + 1 }
  else .stop .srcHole

/-- `SrcField(n)` of R8: all or nothing; `none` is EOF. -/
def srcField (n : Nat) (s : State) : Eff (Option Nat) :=
  if srcAvail s < n then .done none { s with srcEof := true }
  else if srcHas s s.srcPos.toNat n then
    .done (some (memRead s.src s.srcPos.toNat n)) { s with srcPos := BitVec.ofNat 32 (s.srcPos.toNat + n) }
  else .stop .srcHole

/-! ## The sink (R8, R59) -/

/-- `DstByte(a, v)` of R8. -/
def dstByte (a : Nat) (v : Byte) (s : State) : Eff Unit :=
  if s.cfg.dstSize.toNat ≤ a then .raised (capacity .sinkRange) s
  else .done () { s with dst := s.dst.write a v }

/-- A sequence of sink bytes in ascending order, each checked first (R54, R59). -/
def dstBytes : Nat → List Byte → State → Eff Unit
  | _, [], s => .done () s
  | a, b :: bs, s => (dstByte a b s).andThen fun _ s => dstBytes (a + 1) bs s

/-- `MemWrite(DST, a, n, v)` of R7. -/
def memWrite (a n v : Nat) (s : State) : Eff Unit := dstBytes a (leBytes n v) s

/-! ## Reset -/

/-- Reset, by `rst` or by SRESET (R252, R310): all state of 10_state.md gets its reset value. SRC and DST keep their
contents, and what is not the engine's state (the sizes, the host's side of the port) is not touched (log 11). -/
def resetState (s : State) : State :=
  { State.reset with cfg := s.cfg, src := s.src, dst := s.dst, pending := s.pending, rdata := s.rdata }

end Sys2Proof.Machine
end

