-- ==== Sys2Proof/Machine/Operands.lean ====
section
/-! DEFINITION. The operand and data forms: the bit operand of BW.WRITE and the bits of a payload byte
(spec/30_encoding.md R88, R91), the frequency mapping by symbol (spec/10_state.md R18), the node array (R15, R16), node
records and the tree block (spec/30_encoding.md R85, R86), the side-bit stack (R19). -/

namespace Sys2Proof.Machine

/-! ## Bits of a byte -/

/-- The bit operand of BW.WRITE: w[8], the lowest bit of ARG (R91). -/
def argBit (arg : Byte) : Bool := arg.getLsbD 0

/-- A bit as a byte. -/
def bitByte (b : Bool) : Byte := if b then 1 else 0

/-- R88, assembly: `acc | (b << k)`. -/
def packBit (acc : Byte) (k : Nat) (b : Bool) : Byte := acc ||| (bitByte b <<< k)

/-- R88, disassembly: `(byte >> k) & 1`. -/
def unpackBit (byte : Byte) (k : Nat) : Bool := (byte >>> k).getLsbD 0

/-- A truth value in RESULT, zero-extended (R91). -/
def boolWord (b : Bool) : Word := if b then 1 else 0

/-! ## The frequency mapping -/

/-- FREQ[v]. -/
def State.freqOf (s : State) (v : Byte) : Word := s.freq[v.toNat]'v.isLt

/-- PRESENT[v]. -/
def State.hasSym (s : State) (v : Byte) : Bool := s.present[v.toNat]'v.isLt

/-- PRESENT[v] <- 1, FREQ[v] <- w. -/
def State.setSym (s : State) (v : Byte) (w : Word) : State :=
  { s with freq := s.freq.set v.toNat w v.isLt, present := s.present.set v.toNat true v.isLt }

/-- All entries absent: PRESENT[s] <- 0, FREQ[s] <- 0 for every s. -/
def State.clearSyms (s : State) : State :=
  { s with freq := Vector.replicate 256 0, present := Vector.replicate 256 false }

/-- The symbol values 0, 1, ..., 255 in ascending order (LEAF_ORDER, R182). -/
def allSyms : List Byte := (List.range 256).map (BitVec.ofNat 8)

/-- The present symbols in ascending order. -/
def State.symbols (s : State) : List Byte := allSyms.filter s.hasSym

/-! ## The node array -/

/-- NN (R12, R15). -/
def State.nn (s : State) : Nat := s.node.length

/-- SNN (R12, R17). -/
def State.snn (s : State) : Nat := s.snode.length

/-- LN = (NN + 1) div 2, the leaf range (R16). -/
def State.leafCount (s : State) : Nat := (s.nn + 1) / 2

/-- `is_leaf` (R16). -/
def Node.isLeaf (nd : Node) : Bool := nd.c0 == sentinel && nd.c1 == sentinel

/-- The child a bit selects (R205). -/
def Node.child (nd : Node) (bit : Bool) : Idx := if bit then nd.c1 else nd.c0

/-- 8·NN + 6, the auxiliary size (R226, R242). -/
def State.auxSize (s : State) : Word := BitVec.ofNat 32 (8 * s.nn + 6)

/-! ## Node records and the tree block -/

/-- The 8 bytes of a node record (R85, R221). -/
def recordBytes (nd : Node) : List Byte :=
  leBytes 2 nd.c0.toNat ++ leBytes 2 nd.c1.toNat ++ leBytes 2 nd.par.toNat ++ [bitByte nd.side, nd.sym]

/-- The node record at address r (R85, R223): every side byte but 0x00 reads as true (R96). -/
def readRecord (m : Memory) (r : Nat) : Node where
  c0 := BitVec.ofNat 16 (memRead m r 2)
  c1 := BitVec.ofNat 16 (memRead m (r + 2) 2)
  par := BitVec.ofNat 16 (memRead m (r + 4) 2)
  side := m.read (r + 6) != 0x00#8
  sym := m.read (r + 7)

/-- The tree block of a node array (R86). -/
def treeBlock (nodes : List Node) : List Byte := leBytes 2 nodes.length ++ nodes.flatMap recordBytes

/-- The n node records packed from address r on (R86, R223). -/
def readRecords (m : Memory) (r n : Nat) : List Node := (List.range n).map fun i => readRecord m (r + recBytes * i)

/-! ## The side-bit stack -/

/-- STK[SP] <- b; SP <- SP + 1 (R201). -/
def pushSide (b : Bool) (s : State) : State := { s with stk := s.stk.setIfInBounds s.sp b, sp := s.sp + 1 }

/-- STK[j] (R19). -/
def State.stkBit (s : State) (j : Nat) : Bool := s.stk[j]?.getD false

end Sys2Proof.Machine
end

