-- ==== Sys2Proof/Machine/Flags.lean ====
section
/-! DEFINITION. The derived flags and registers: BR_EOS, ERR, TREE, STATUS (spec/10_state.md R14, R31), ERR
(R30, spec/60_exceptions.md R271), and the value a host read returns (R30, R32). -/

namespace Sys2Proof.Machine

/-- BR_EOS: BR_CNT = BR_SIZE (R14). -/
def State.brEos (s : State) : Bool := s.brCnt == s.brSize

/-- The ERR flag: ERR_KIND ≠ 0 (R14). -/
def State.errFlag (s : State) : Bool := s.errKind != 0

/-- The TREE flag: NN ≠ 0 (R14). -/
def State.treeFlag (s : State) : Bool := s.nn != 0

/-- Register STATUS (R31): bits 0 to 5, the rest 0. -/
def State.status (s : State) : Word :=
  boolWord s.bwOpen ||| boolWord s.brOpen <<< 1 ||| boolWord s.brEos <<< 2 ||| boolWord s.srcEof <<< 3
    ||| boolWord s.errFlag <<< 4 ||| boolWord s.treeFlag <<< 5

/-- Register ERR: ERR_KIND in [2:0], ERR_CAUSE in [7:3] (R30, R271). -/
def State.errWord (s : State) : Word := (0#24 ++ s.errCause ++ s.errKind : BitVec 32)

/-- What a host read of a register number returns (R30, R32): reserved numbers and CMD read 0. -/
def State.regValue (s : State) (reg : Byte) : Word :=
  match reg.toNat with
  | 0x01 => s.status
  | 0x02 => s.errWord
  | 0x03 => s.result
  | 0x04 => s.warg
  | 0x05 => s.srcPos
  | 0x06 => s.srcEnd
  | 0x07 => s.dstPos
  | 0x08 => s.bwCnt
  | 0x09 => s.bwHdr
  | 0x0A => s.brSize
  | 0x0B => s.brCnt
  | 0x0C => BitVec.ofNat 32 s.nn
  | 0x0D => BitVec.ofNat 32 s.snn
  | _ => 0

end Sys2Proof.Machine
end

