-- ==== Sys2Proof/Machine/FreqCounter.lean ====
section
/-! DEFINITION. The frequency counter (spec/42_freq_counter.md): the shared operations that FC.* and ENCODE perform, then
the meanings of FC.CLEAR, FC.SET, FC.COUNT, FC.PAD, FC.GET, FC.NSYM. -/

namespace Sys2Proof.Machine

/-- The loop of FC.COUNT (R163): read until EOF, counting each byte. It ends at EOF because each pass reads a byte; the
number of passes given exceeds the bytes left. -/
def countLoop : Nat → State → Eff Unit
  | 0, s => .done () s
  | passes + 1, s =>
    (srcNext s).andThen fun v s =>
      match v with
      | none => .done () s
      | some v => countLoop passes (s.setSym v (s.freqOf v + 1))

/-- FC.COUNT as a step (R163). -/
def countSource (s : State) : Eff Unit :=
  (countLoop (srcAvail s + 1) s.clearSyms).andThen fun _ t => .done () { t with srcPos := s.srcPos, srcEof := s.srcEof }

/-- A synthetic symbol of weight 0, added where absent (R164). -/
def padSym (v : Byte) (s : State) : State := if s.hasSym v then s else s.setSym v 0

/-- FC.PAD as a step (R164). -/
def padMapping (s : State) : State := if s.symbols.length < 2 then padSym synth1 (padSym synth0 s) else s

/-- FC.CLEAR (R161). -/
def execFcClear (s : State) : Result := .next s.clearSyms

/-- FC.SET (R162). -/
def execFcSet (sym : Byte) (s : State) : Result := .next (s.setSym sym s.warg)

/-- FC.COUNT (R163). -/
def execFcCount (s : State) : Result := (countSource s).finish

/-- FC.PAD (R164). -/
def execFcPad (s : State) : Result := .next (padMapping s)

/-- FC.GET (R165). -/
def execFcGet (sym : Byte) (s : State) : Result := .next { s with result := s.freqOf sym }

/-- FC.NSYM (R166). -/
def execFcNsym (s : State) : Result := .next { s with result := BitVec.ofNat 32 s.symbols.length }

end Sys2Proof.Machine
end

