-- ==== Sys2Proof/Machine/TreeBuild.lean ====
section
/-! DEFINITION. Tree construction and equality (spec/43_tree_build.md): the merge, then the meanings of HT.BUILD,
HT.SNAP, HT.EQ. -/

namespace Sys2Proof.Machine

/-- The lexicographic order on (weight, index) of R183. -/
def PqEntry.before (x y : PqEntry) : Bool :=
  x.weight.toNat < y.weight.toNat || (x.weight == y.weight && x.idx.toNat < y.idx.toNat)

/-- Insert an entry into PQ, kept in extraction order, so that `extract_min` takes the head (R183; log 15). -/
def pqInsert (e : PqEntry) : List PqEntry → List PqEntry
  | [] => [e]
  | x :: q => if e.before x then e :: x :: q else x :: pqInsert e q

/-- A leaf without parent yet (R181, R184). -/
def leafNode (v : Byte) : Node := { c0 := sentinel, c1 := sentinel, par := sentinel, side := false, sym := v }

/-- A merged node without parent yet: first extracted is child 0, second child 1 (R181, R184). -/
def innerNode (a b : Idx) : Node := { c0 := a, c1 := b, par := sentinel, side := false, sym := 0 }

/-- NODE[i].par <- p; NODE[i].side <- b (R181). -/
def setParent (i p : Idx) (b : Bool) (nodes : List Node) : List Node :=
  nodes.modify i.toNat fun nd => { nd with par := p, side := b }

/-- One present symbol becomes the next leaf and an entry of PQ (R181, R182). -/
def addLeaf (s : State) (v : Byte) : State :=
  { s with
    node := s.node ++ [leafNode v]
    pq := pqInsert { weight := (s.freqOf v).setWidth 40, idx := BitVec.ofNat 16 s.node.length } s.pq }

/-- The seeds: NN <- 0, PQ <- empty, then every present symbol in ascending order (R181). -/
def seedTree (s : State) : State := s.symbols.foldl addLeaf { s with node := [], pq := [] }

/-- One pass of the merge loop; nothing with fewer than two entries left (R181). -/
def mergePass (s : State) : State :=
  match s.pq with
  | x :: y :: q =>
    let k := BitVec.ofNat 16 s.node.length
    { s with
      node := setParent y.idx k true (setParent x.idx k false (s.node ++ [innerNode x.idx y.idx]))
      pq := pqInsert { weight := x.weight + y.weight, idx := k } q }
  | _ => s

/-- The merge loop: each pass takes one entry off PQ, so as many passes as entries leave one (R181). -/
def mergeAll : Nat → State → State
  | 0, s => s
  | passes + 1, s => mergeAll passes (mergePass s)

/-- HT.BUILD as a step (R181). -/
def buildTree (s : State) : State :=
  let seeded := seedTree s
  { mergeAll seeded.pq.length seeded with pq := [] }

/-- HT.BUILD (R181). -/
def execHtBuild (s : State) : Result := .next (buildTree s)

/-- HT.SNAP (R187). -/
def execHtSnap (s : State) : Result := .next { s with snode := s.node }

/-- Structural equality of two node arrays: same length, every field of every record equal (R188). -/
def treesEqual (a b : List Node) : Bool :=
  a.length == b.length && (a.zip b).all fun p =>
    p.1.c0 == p.2.c0 && p.1.c1 == p.2.c1 && p.1.par == p.2.par && p.1.side == p.2.side && p.1.sym == p.2.sym

/-- HT.EQ (R188). -/
def execHtEq (s : State) : Result := .next { s with result := boolWord (treesEqual s.node s.snode) }

end Sys2Proof.Machine
end

