-- ==== Sys2Proof/Machine/TreeSerial.lean ====
section
/-! DEFINITION. The tree serializer (spec/45_tree_serial.md): saving and loading as steps, then the meanings of HT.SAVE,
HT.LOAD, HT.ADSIZE. -/

namespace Sys2Proof.Machine

/-- The size of the tree block in bytes: 2 + 8·NN (R86). -/
def blockSize (n : Nat) : Nat := 2 + recBytes * n

/-- HT.SAVE as a step (R221). -/
def saveTree (s : State) : Eff Unit :=
  if s.bwOpen then .raised (illegalOp .sinkBound) s
  else if s.cfg.dstSize.toNat < s.dstPos.toNat + blockSize s.nn then .raised (capacity .sinkRange) s
  else
    (dstBytes s.dstPos.toNat (treeBlock s.node) s).andThen fun _ t =>
      .done () { t with dstPos := BitVec.ofNat 32 (s.dstPos.toNat + blockSize s.nn) }

/-- HT.LOAD as a step (R223): all or nothing. -/
def loadTree (s : State) : Eff Unit :=
  if srcAvail s < 2 then .raised (formatErr .treeCountShort) { s with srcEof := true }
  else if !srcHas s s.srcPos.toNat 2 then .stop .srcHole
  else
    let n := memRead s.src s.srcPos.toNat 2
    if srcAvail s - 2 < recBytes * n then .raised (formatErr .treeRecordsShort) { s with srcEof := true }
    else if !srcHas s s.srcPos.toNat (blockSize n) then .stop .srcHole
    else
      .done () { s with
        node := readRecords s.src (s.srcPos.toNat + 2) n
        srcPos := BitVec.ofNat 32 (s.srcPos.toNat + blockSize n) }

/-- HT.SAVE (R221). -/
def execHtSave (s : State) : Result := (saveTree s).finish

/-- HT.LOAD (R223). -/
def execHtLoad (s : State) : Result := (loadTree s).finish

/-- HT.ADSIZE (R226). -/
def execHtAdsize (s : State) : Result := .next { s with result := s.auxSize }

end Sys2Proof.Machine
end

