-- ==== Sys2Proof/Machine/BitReader.lean ====
section
/-! DEFINITION. The bit reader (spec/41_bitreader.md): the shared operations that BR.* and HT.DECODE perform, then the
meanings of BR.OPEN, BR.READ, BR.EOS, BR.SIZE. -/

namespace Sys2Proof.Machine

/-- BR.OPEN as a step (R141). -/
def readerOpen (s : State) : Eff Unit :=
  (srcField 4 { s with brOpen := false }).andThen fun h s =>
    match h with
    | none => .raised (formatErr .bithdrShort) s
    | some n => .done () { s with brSize := BitVec.ofNat 32 n, brCnt := 0, brCur := 0, brOpen := true }

/-- The fetch of BR.READ: a fresh payload byte where BR_CNT is a multiple of 8 (R142). -/
def readerFetch (s : State) : Eff Unit :=
  if s.brCnt.toNat % 8 = 0 then
    (srcNext s).andThen fun v s =>
      match v with
      | none => .raised (formatErr .payloadShort) s
      | some v => .done () { s with brCur := v }
  else .done () s

/-- BR.READ as a step, with the bit it leaves in RESULT (R142). -/
def readerBit (s : State) : Eff Bool :=
  if !s.brOpen then .raised (illegalOp .brState) s
  else if s.brCnt = s.brSize then .raised { kind := .endOfSequence, cause := .bitsExhausted } s
  else
    (readerFetch s).andThen fun _ s =>
      let bit := unpackBit s.brCur (s.brCnt.toNat % 8)
      .done bit { s with result := boolWord bit, brCnt := s.brCnt + 1 }

/-- BR.OPEN (R141). -/
def execBrOpen (s : State) : Result := (readerOpen s).finish

/-- BR.READ (R142). -/
def execBrRead (s : State) : Result := (readerBit s).finish

/-- BR.EOS (R143). -/
def execBrEos (s : State) : Result := .next { s with result := boolWord s.brEos }

/-- BR.SIZE (R144). -/
def execBrSize (s : State) : Result := .next { s with result := s.brSize }

end Sys2Proof.Machine
end

