-- ==== Sys2Proof/Machine/BitWriter.lean ====
section
/-! DEFINITION. The bit writer (spec/40_bitwriter.md): the shared operations that BW.* and HT.ENCODE perform, then the
meanings of BW.OPEN, BW.WRITE, BW.FLUSH, BW.DESTROY, BW.SIZE. -/

namespace Sys2Proof.Machine

/-- BW_HDR + 4 + (BW_CNT div 8): where the byte in progress goes (R59, R122, R123). -/
def payloadAddr (s : State) : Nat := s.bwHdr.toNat + 4 + s.bwCnt.toNat / 8

/-- BW.OPEN as a step (R121). -/
def writerOpen (s : State) : Eff Unit :=
  if s.bwOpen then .raised (illegalOp .bwState) s
  else if s.cfg.dstSize.toNat < s.dstPos.toNat + 4 then .raised (capacity .sinkRange) s
  else
    (memWrite s.dstPos.toNat 4 0 { s with bwHdr := s.dstPos }).andThen fun _ s =>
      .done () { s with dstPos := s.bwHdr + 4, bwCnt := 0, bwAcc := 0, bwOpen := true }

/-- BW.WRITE b as a step (R122). -/
def writerBit (b : Bool) (s : State) : Eff Unit :=
  if !s.bwOpen then .raised (illegalOp .bwState) s
  else if s.bwCnt = 0xFFFFFFFF#32 then .raised (capacity .bitcntOverflow) s
  else
    let k := s.bwCnt.toNat % 8
    let v := packBit s.bwAcc k b
    if k = 7 then
      (dstByte (payloadAddr s) v s).andThen fun _ t =>
        .done () { t with bwAcc := 0, dstPos := BitVec.ofNat 32 (payloadAddr s + 1), bwCnt := s.bwCnt + 1 }
    else .done () { s with bwAcc := v, bwCnt := s.bwCnt + 1 }

/-- The partial final byte of BW.FLUSH, stored where BW_CNT is not a multiple of 8 (R123). -/
def flushPartial (s : State) : Eff Unit :=
  if s.bwCnt.toNat % 8 = 0 then .done () s else dstByte (payloadAddr s) s.bwAcc s

/-- BW.FLUSH as a step (R123). -/
def writerFlush (s : State) : Eff Unit :=
  if !s.bwOpen then .done () s
  else
    (flushPartial s).andThen fun _ s =>
      memWrite s.bwHdr.toNat 4 s.bwCnt.toNat
        { s with dstPos := BitVec.ofNat 32 (s.bwHdr.toNat + 4 + ceil8 s.bwCnt.toNat) }

/-- BW.DESTROY as a step (R125): the writer is inert afterwards, whether or not its flush raised. -/
def writerDestroy (s : State) : Eff Unit :=
  if !s.bwOpen then .done () s
  else
    match writerFlush s with
    | .done _ s => .done () { s with bwOpen := false }
    | .raised e s => .raised e { s with bwOpen := false }
    | .stop f => .stop f

/-- BW.OPEN (R121). -/
def execBwOpen (s : State) : Result := (writerOpen s).finish

/-- BW.WRITE (R122). An ARG above 1 is ILLEGAL_OP(BAD_ARG) (R82); no decoded command has one (log 13). -/
def execBwWrite (arg : Byte) (s : State) : Result :=
  if arg.toNat ≤ 1 then (writerBit (argBit arg) s).finish else .next (raiseExc (illegalOp .badArg) s)

/-- BW.FLUSH (R123). -/
def execBwFlush (s : State) : Result := (writerFlush s).finish

/-- BW.DESTROY (R125). -/
def execBwDestroy (s : State) : Result := (writerDestroy s).finish

/-- BW.SIZE (R126). -/
def execBwSize (s : State) : Result := .next { s with result := s.bwCnt }

end Sys2Proof.Machine
end

