-- ==== Sys2Proof/Machine/TreeTranscode.lean ====
section
/-! DEFINITION. Tree traversal and bit transcoding (spec/44_tree_transcode.md): the walks, the two loops, then the
meanings of HT.ENCODE and HT.DECODE. -/

namespace Sys2Proof.Machine

/-! ## HT.ENCODE -/

/-- The leaf scan: the record of least index below LN whose sym is v (R201, R202). -/
def locateLeaf (s : State) (v : Byte) : Option Node := (s.node.take s.leafCount).find? fun nd => nd.sym == v

/-- The walk up from the current node, pushing sides (R201, R203). `room` is 256 - SP, so no room left is SP = 256. The
cursor is held as the node record at index c; a parent index at or beyond NN has none. -/
def walkUp : Nat → Node → State → Eff Unit
  | 0, nd, s => if nd.par = sentinel then .done () s else .raised (capacity .stackOverflow) { s with sp := 0 }
  | room + 1, nd, s =>
    if nd.par = sentinel then .done () s
    else
      let s := pushSide nd.side s
      match s.node[nd.par.toNat]? with
      | none => .raised (formatErr .treeIndexRange) { s with sp := 0 }
      | some p => walkUp room p s

/-- The emission root to leaf: while SP > 0, SP <- SP - 1 and write STK[SP] (R201). The first argument is SP. -/
def emitBits : Nat → State → Eff Unit
  | 0, s => .done () s
  | sp + 1, s =>
    let s := { s with sp := sp }
    match writerBit (s.stkBit sp) s with
    | .done _ t => emitBits sp t
    | .raised e t => .raised e { t with sp := 0 }
    | .stop f => .stop f

/-- One symbol of HT.ENCODE: locate, walk up, emit (R201). -/
def encodeSymbol (v : Byte) (s : State) : Eff Unit :=
  match locateLeaf s v with
  | none => .raised { kind := .symbolNotFound, cause := .noLeaf } s
  | some nd => (walkUp stkDepth nd { s with sp := 0 }).andThen fun _ s => emitBits s.sp s

/-- The symbol loop of HT.ENCODE (R201). It ends at EOF because each pass reads a byte; the number of passes given
exceeds the bytes left. -/
def encodeSymbols : Nat → State → Eff Unit
  | 0, s => .done () s
  | passes + 1, s =>
    (srcNext s).andThen fun v s =>
      match v with
      | none => .done () s
      | some v => (encodeSymbol v s).andThen fun _ s => encodeSymbols passes s

/-- The release on every path (R204): the body's exception wins over the release step's (R281). -/
def releaseWriter (body : Eff Unit) : Eff Unit :=
  match body with
  | .done _ s => writerDestroy s
  | .raised e s =>
    match writerDestroy s with
    | .done _ t => .raised e t
    | .raised _ t => .raised e t
    | .stop f => .stop f
  | .stop f => .stop f

/-- HT.ENCODE as a step (R201). -/
def encodeSource (s : State) : Eff Unit :=
  if s.bwOpen then .raised (illegalOp .bwState) s
  else (writerOpen s).andThen fun _ s => releaseWriter (encodeSymbols (srcAvail s + 1) s)

/-! ## HT.DECODE -/

/-- The walk down from the current node, one bit a step, until a leaf (R205, R207: step first, then test). The steps
given exceed the bits left, and with none left BR.READ refuses, so running out is that same failure. -/
def walkDown : Nat → Node → State → Eff Node
  | 0, _, s => .raised (formatErr .bitsExhausted) s
  | steps + 1, nd, s =>
    (readerBit s).andThen fun bit s =>
      if nd.child bit = sentinel then .raised (formatErr .sentinelChild) s
      else
        match s.node[(nd.child bit).toNat]? with
        | none => .raised (formatErr .treeIndexRange) s
        | some n => if n.isLeaf then .done n s else walkDown steps n s

/-- BR_SIZE - BR_CNT: the bits not yet consumed. -/
def bitsLeft (s : State) : Nat := s.brSize.toNat - s.brCnt.toNat

/-- One symbol of HT.DECODE: walk down from the root, emit the leaf's symbol (R205). -/
def decodeSymbol (s : State) : Eff Unit :=
  match s.node.getLast? with
  | none => .raised (formatErr .treeEmpty) s
  | some root =>
    (walkDown (bitsLeft s + 1) root s).andThen fun leaf s =>
      (dstByte s.dstPos.toNat leaf.sym s).andThen fun _ s => .done () { s with dstPos := s.dstPos + 1 }

/-- The symbol loop of HT.DECODE: while BR_CNT ≠ BR_SIZE (R205). Each pass consumes at least one bit. -/
def decodeSymbols : Nat → State → Eff Unit
  | 0, s => .done () s
  | passes + 1, s =>
    if s.brEos then .done () s else (decodeSymbol s).andThen fun _ s => decodeSymbols passes s

/-- R206: END_OF_SEQUENCE(BITS_EXHAUSTED) of a BR.READ step surfaces as FORMAT_ERROR(BITS_EXHAUSTED). -/
def rewrap (e : Exc) : Exc := if e.kind = .endOfSequence then formatErr e.cause else e

/-- BR_OPEN <- 0 on every exit, and the re-wrapping (R205, R206). -/
def closeReader (body : Eff Unit) : Eff Unit :=
  match body with
  | .done _ s => .done () { s with brOpen := false }
  | .raised e s => .raised (rewrap e) { s with brOpen := false }
  | .stop f => .stop f

/-- HT.DECODE as a step (R205). -/
def decodeSource (s : State) : Eff Unit :=
  if s.bwOpen then .raised (illegalOp .sinkBound) s
  else closeReader ((readerOpen s).andThen fun _ s => decodeSymbols (bitsLeft s) s)

/-! ## The meanings -/

/-- HT.ENCODE (R201). -/
def execHtEncode (s : State) : Result := (encodeSource s).finish

/-- HT.DECODE (R205). -/
def execHtDecode (s : State) : Result := (decodeSource s).finish

end Sys2Proof.Machine
end

