-- ==== Sys2Proof/Machine/Facade.lean ====
section
/-! DEFINITION. The transcoding facade (spec/46_facade.md, spec/30_encoding.md R98): ENCODE and DECODE as sequences of the
other commands' steps, each stopping at the first step that raises. -/

namespace Sys2Proof.Machine

/-- RESULT <- 8·NN + 6, only if nothing raised (R241 to R243). -/
def returnAuxSize (s : State) : Eff Unit := .done () { s with result := s.auxSize }

/-- ENCODE as a step (R241). -/
def facadeEncode (s : State) : Eff Unit :=
  if s.bwOpen then .raised (illegalOp .bwState) s
  else
    (countSource s).andThen fun _ s =>
      (saveTree (buildTree (padMapping s))).andThen fun _ s =>
        (encodeSource s).andThen fun _ s => returnAuxSize s

/-- DECODE as a step (R243; BR_OPEN where HT.LOAD raises: log 17). -/
def facadeDecode (s : State) : Eff Unit :=
  if s.bwOpen then .raised (illegalOp .sinkBound) s
  else
    (loadTree s).andThen fun _ s =>
      (decodeSource s).andThen fun _ s => returnAuxSize s

/-- ENCODE (R241). -/
def execEncode (s : State) : Result := (facadeEncode s).finish

/-- DECODE (R243). -/
def execDecode (s : State) : Result := (facadeDecode s).finish

end Sys2Proof.Machine
end

