-- ==== Sys2Proof/Machine/System.lean ====
section
/-! DEFINITION. The system commands (spec/47_system.md): the meanings of NOP, ERR.CLEAR, SRESET. -/

namespace Sys2Proof.Machine

/-- NOP: no effect (R250). -/
def execNop (s : State) : Result := .next s

/-- ERR.CLEAR (R251). -/
def execErrClear (s : State) : Result := .next (clearExc s)

/-- SRESET (R252). -/
def execSreset (s : State) : Result := .next (resetState s)

end Sys2Proof.Machine
end

