-- ==== Sys2Proof/Machine/Dispatch.lean ====
section
/-! DEFINITION. Which meaning each command has: one arm per constructor of Instr. -/

namespace Sys2Proof.Machine

def exec (i : Instr) (s : State) : Host.Outcome State Fault Refusal :=
  match i with
  | .nop => Sys2Proof.Machine.execNop s
  | .bwOpen => Sys2Proof.Machine.execBwOpen s
  | .bwWrite arg => Sys2Proof.Machine.execBwWrite arg s
  | .bwFlush => Sys2Proof.Machine.execBwFlush s
  | .bwDestroy => Sys2Proof.Machine.execBwDestroy s
  | .bwSize => Sys2Proof.Machine.execBwSize s
  | .brOpen => Sys2Proof.Machine.execBrOpen s
  | .brRead => Sys2Proof.Machine.execBrRead s
  | .brEos => Sys2Proof.Machine.execBrEos s
  | .brSize => Sys2Proof.Machine.execBrSize s
  | .fcClear => Sys2Proof.Machine.execFcClear s
  | .fcSet sym => Sys2Proof.Machine.execFcSet sym s
  | .fcCount => Sys2Proof.Machine.execFcCount s
  | .fcPad => Sys2Proof.Machine.execFcPad s
  | .fcGet sym => Sys2Proof.Machine.execFcGet sym s
  | .fcNsym => Sys2Proof.Machine.execFcNsym s
  | .htBuild => Sys2Proof.Machine.execHtBuild s
  | .htSave => Sys2Proof.Machine.execHtSave s
  | .htLoad => Sys2Proof.Machine.execHtLoad s
  | .htEncode => Sys2Proof.Machine.execHtEncode s
  | .htDecode => Sys2Proof.Machine.execHtDecode s
  | .htAdsize => Sys2Proof.Machine.execHtAdsize s
  | .htSnap => Sys2Proof.Machine.execHtSnap s
  | .htEq => Sys2Proof.Machine.execHtEq s
  | .facadeEncode => Sys2Proof.Machine.execEncode s
  | .facadeDecode => Sys2Proof.Machine.execDecode s
  | .errClear => Sys2Proof.Machine.execErrClear s
  | .sreset => Sys2Proof.Machine.execSreset s

end Sys2Proof.Machine
end

