-- ==== Sys2Proof/Machine/HostPort.lean ====
section
/-! DEFINITION. The host's side: a command written to CMD, with the gate and the decode errors (spec/30_encoding.md R82,
spec/60_exceptions.md R282), the other register accesses (spec/10_state.md R30 to R33), the reset input
(spec/70_reset_and_hazards.md R310), the host's byte accesses (spec/47_system.md R256). -/

namespace Sys2Proof.Machine

/-- The gate (R282, first line of R82): an exception is recorded and OP is neither ERR.CLEAR nor SRESET. -/
def gated (w : Word) (s : State) : Bool := s.errKind != 0 && opField w != 0x3E#8 && opField w != 0x3F#8

/-- The exception of a word that is no command (R82, R95). -/
def decodeExc : DecodeError → Exc
  | .zeroField => illegalOp .badArg
  | .reservedOpcode => illegalOp .badOpcode
  | .argField => illegalOp .badArg

/-- A write of CMD (R82): gate, decode, execute. -/
def commandWrite (w : Word) (s : State) : Result :=
  if gated w s then .next s
  else
    match decode w with
    | .error e => .next (raiseExc (decodeExc e) s)
    | .ok i => exec i s

/-- A host write of SRC_END (R33). -/
def writeSrcEnd (v : Word) (s : State) : State :=
  if s.cfg.srcSize.toNat < v.toNat then raiseExc (capacity .srcEndRange) s else { s with srcEnd := v }

/-- A host write of DST_POS (R33). -/
def writeDstPos (v : Word) (s : State) : State :=
  if s.bwOpen then raiseExc (illegalOp .sinkBound) s else { s with dstPos := v }

/-- A host write, by register number (R33). Only CMD is gated. -/
def registerWrite (reg : Byte) (v : Word) (s : State) : Result :=
  match reg.toNat with
  | 0x00 => commandWrite v s
  | 0x04 => .next { s with warg := v }
  | 0x05 => .next { s with srcPos := v, srcEof := false }
  | 0x06 => .next (writeSrcEnd v s)
  | 0x07 => .next (writeDstPos v s)
  | _ => .next (raiseExc (illegalOp .badCsr) s)

/-- One host access, complete before the next (R10, R254, R256). -/
def hostAccess (x : HostAccess) (s : State) : Result :=
  match x with
  | .read reg => .next { s with rdata := s.regValue reg }
  | .write reg v => registerWrite reg v s
  | .rst => .next (resetState s)
  | .srcPoke a b =>
    if a.toNat < s.cfg.srcSize.toNat then .next { s with src := s.src.write a.toNat b } else .fault .hostHole
  | .dstPoke a b =>
    if a.toNat < s.cfg.dstSize.toNat then .next { s with dst := s.dst.write a.toNat b } else .fault .hostHole
  | .dstPeek a =>
    if a.toNat < s.cfg.dstSize.toNat then .next { s with rdata := (s.dst.read a.toNat).setWidth 32 }
    else .fault .hostHole

/-- The number of register CMD (R30). -/
def cmdReg : Byte := 0x00#8

/-- The host's write of the command word with bits w below nbits (log 9). A command word has 32 bits (R80). -/
def commandAccess (nbits w : Nat) : HostAccess := .write cmdReg (BitVec.ofNat 32 (w % 2 ^ nbits))

end Sys2Proof.Machine
end

