-- ==== Sys2Proof/Machine/Step.lean ====
section
/-! DEFINITION. One step: the oldest pending host access, start to end (spec/10_state.md R10, spec/47_system.md R254);
with none pending the block is idle and keeps all state (spec/60_exceptions.md R295, spec/70_reset_and_hazards.md
R311). And the placing of a command word as the next access. -/

namespace Sys2Proof.Machine

/-- One step of the machine. -/
def step (s : State) : Host.Outcome State Fault Refusal :=
  match s.pending with
  | [] => .next s
  | x :: rest => hostAccess x { s with pending := rest }

/-- s with the host about to write this command word to CMD: HUFFCORE fetches nothing (R2), a command comes from the host
(R81; log 9). -/
def State.withFetchWord (s : State) (nbits w : Nat) : State :=
  { s with pending := commandAccess nbits w :: s.pending }

end Sys2Proof.Machine
end

