-- ==== Sys2Proof/Safety.lean ====
section
/-! DEFINITION. What counts as a safe state and a safe step, and the words claims are made in: the source bytes, the bits
of a bit sequence and its block, the shape of a constructed tree, the code word of a symbol, decoding of a bit sequence,
all written from the data formats (spec/30_encoding.md R86 to R90) and R185, and not from the commands. -/

namespace Sys2Proof.Machine

/-! ## The invariant -/

/-- The exceptions R272 lists, row by row (BITS_EXHAUSTED has two kinds). -/
def recordedExcs : List Exc :=
  [formatErr .treeCountShort, formatErr .treeRecordsShort, formatErr .bithdrShort, formatErr .payloadShort,
   formatErr .sentinelChild, ⟨.endOfSequence, .bitsExhausted⟩, formatErr .bitsExhausted, formatErr .treeIndexRange,
   formatErr .treeEmpty, ⟨.symbolNotFound, .noLeaf⟩, illegalOp .badOpcode, illegalOp .badArg, illegalOp .bwState,
   illegalOp .brState, illegalOp .sinkBound, illegalOp .badCsr, capacity .sinkRange, capacity .bitcntOverflow,
   capacity .stackOverflow, capacity .srcEndRange]

/-- The exception e is the one recorded. -/
def State.records (s : State) (e : Exc) : Prop := s.errKind = e.kind.code ∧ s.errCause = e.cause.code

/-- R34's invariants, with what the model's representation adds: the recorded pair is a row of R272 or none, NN and SNN
fit their 16 bits, both memories are in canonical form and list only bytes that exist. -/
structure State.Inv (s : State) : Prop where
  srcEnd_le : s.srcEnd.toNat ≤ s.cfg.srcSize.toNat
  brCnt_le : s.brCnt.toNat ≤ s.brSize.toNat
  acc_clear : s.bwAcc.toNat < 2 ^ (s.bwCnt.toNat % 8)
  absent_zero : ∀ v : Byte, s.hasSym v = false → s.freqOf v = 0
  writer_room : s.bwOpen = true → s.bwHdr.toNat + 4 ≤ s.cfg.dstSize.toNat ∧ payloadAddr s ≤ s.dstPos.toNat
  sp_zero : s.sp = 0
  pq_empty : s.pq = []
  err_pair : s.errKind = 0 ↔ s.errCause = 0
  err_listed : s.errKind = 0 ∨ ∃ e ∈ recordedExcs, s.records e
  node_cap : s.node.length ≤ nodeCap
  snode_cap : s.snode.length ≤ nodeCap
  src_wf : s.src.wf
  dst_wf : s.dst.wf
  src_within : s.src.within s.cfg.srcSize
  dst_within : s.dst.within s.cfg.dstSize

/-- A safe outcome: the machine goes on. -/
def Safe (r : Result) : Prop := ∃ t, r = .next t

/-- The host's next access is to a byte that exists, if it is a byte access (log 8). -/
def State.hostInRange (s : State) : Prop :=
  match s.pending with
  | .srcPoke a _ :: _ => a.toNat < s.cfg.srcSize.toNat
  | .dstPoke a _ :: _ => a.toNat < s.cfg.dstSize.toNat
  | .dstPeek a :: _ => a.toNat < s.cfg.dstSize.toNat
  | _ => True

/-- The exceptions each command can record once it is decoded: the column "raised by" of R272. -/
def raisable : Instr → List Exc
  | .nop | .bwSize | .brEos | .brSize | .fcClear | .fcSet _ | .fcCount | .fcPad | .fcGet _ | .fcNsym | .htBuild
  | .htSnap | .htEq | .htAdsize | .errClear | .sreset => []
  | .bwOpen => [illegalOp .bwState, capacity .sinkRange]
  | .bwWrite _ => [illegalOp .bwState, capacity .bitcntOverflow, capacity .sinkRange]
  | .bwFlush | .bwDestroy => [capacity .sinkRange]
  | .brOpen => [formatErr .bithdrShort]
  | .brRead => [illegalOp .brState, ⟨.endOfSequence, .bitsExhausted⟩, formatErr .payloadShort]
  | .htSave => [illegalOp .sinkBound, capacity .sinkRange]
  | .htLoad => [formatErr .treeCountShort, formatErr .treeRecordsShort]
  | .htEncode =>
    [illegalOp .bwState, capacity .sinkRange, capacity .bitcntOverflow, ⟨.symbolNotFound, .noLeaf⟩,
     capacity .stackOverflow, formatErr .treeIndexRange]
  | .htDecode =>
    [illegalOp .sinkBound, formatErr .bithdrShort, formatErr .payloadShort, formatErr .sentinelChild,
     formatErr .bitsExhausted, formatErr .treeIndexRange, formatErr .treeEmpty, capacity .sinkRange]
  | .facadeEncode => [illegalOp .bwState, capacity .sinkRange, capacity .bitcntOverflow]
  | .facadeDecode =>
    [illegalOp .sinkBound, formatErr .treeCountShort, formatErr .treeRecordsShort, formatErr .bithdrShort,
     formatErr .payloadShort, formatErr .sentinelChild, formatErr .bitsExhausted, formatErr .treeIndexRange,
     formatErr .treeEmpty, capacity .sinkRange]

/-- The opcodes R95 lists as reserved. -/
def reservedOpcode (op : Byte) : Prop :=
  op.toNat = 0x06 ∨ op.toNat = 0x07 ∨ (0x0C ≤ op.toNat ∧ op.toNat ≤ 0x0F) ∨ (0x16 ≤ op.toNat ∧ op.toNat ≤ 0x1F)
    ∨ (0x28 ≤ op.toNat ∧ op.toNat ≤ 0x2F) ∨ (0x32 ≤ op.toNat ∧ op.toNat ≤ 0x3D) ∨ 0x40 ≤ op.toNat

/-- The state a command can write: the rows of R12 and R15 to R21, in the groups that are written together. -/
inductive Reg where
  | bwOpen | bwHdr | bwBits | brOpen | brSize | brBits | srcPos | srcEnd | srcEof | dstPos | node | snode | mapping
  | stack | pq | warg | result | err | dst
deriving DecidableEq, Repr

/-- The register, or group, has the same contents in two states. BW_CNT with BW_ACC, BR_CNT with BR_CUR, FREQ with PRESENT,
STK with SP, ERR_KIND with ERR_CAUSE are groups. -/
def Reg.same : Reg → State → State → Prop
  | .bwOpen, s, t => t.bwOpen = s.bwOpen
  | .bwHdr, s, t => t.bwHdr = s.bwHdr
  | .bwBits, s, t => t.bwCnt = s.bwCnt ∧ t.bwAcc = s.bwAcc
  | .brOpen, s, t => t.brOpen = s.brOpen
  | .brSize, s, t => t.brSize = s.brSize
  | .brBits, s, t => t.brCnt = s.brCnt ∧ t.brCur = s.brCur
  | .srcPos, s, t => t.srcPos = s.srcPos
  | .srcEnd, s, t => t.srcEnd = s.srcEnd
  | .srcEof, s, t => t.srcEof = s.srcEof
  | .dstPos, s, t => t.dstPos = s.dstPos
  | .node, s, t => t.node = s.node
  | .snode, s, t => t.snode = s.snode
  | .mapping, s, t => t.freq = s.freq ∧ t.present = s.present
  | .stack, s, t => t.stk = s.stk ∧ t.sp = s.sp
  | .pq, s, t => t.pq = s.pq
  | .warg, s, t => t.warg = s.warg
  | .result, s, t => t.result = s.result
  | .err, s, t => t.errKind = s.errKind ∧ t.errCause = s.errCause
  | .dst, s, t => t.dst = s.dst

/-- What each command may write: the column "written by" of R12 and the sentences of R15 to R21, with the steps a command
performs counted as its own and the exception record for a command that can raise. -/
def writes : Instr → List Reg
  | .nop => []
  | .bwOpen => [.bwOpen, .bwHdr, .bwBits, .dstPos, .dst, .err]
  | .bwWrite _ => [.bwBits, .dstPos, .dst, .err]
  | .bwFlush => [.dstPos, .dst, .err]
  | .bwDestroy => [.bwOpen, .dstPos, .dst, .err]
  | .brOpen => [.brOpen, .brSize, .brBits, .srcPos, .srcEof, .err]
  | .brRead => [.brBits, .srcPos, .srcEof, .result, .err]
  | .bwSize | .brEos | .brSize | .fcGet _ | .fcNsym | .htAdsize | .htEq => [.result]
  | .fcClear | .fcSet _ | .fcCount | .fcPad => [.mapping]
  | .htBuild => [.node, .pq]
  | .htSnap => [.snode]
  | .htSave => [.dstPos, .dst, .err]
  | .htLoad => [.node, .srcPos, .srcEof, .err]
  | .htEncode => [.bwOpen, .bwHdr, .bwBits, .dstPos, .dst, .srcPos, .srcEof, .stack, .err]
  | .htDecode => [.brOpen, .brSize, .brBits, .srcPos, .srcEof, .dstPos, .dst, .result, .err]
  | .facadeEncode =>
    [.mapping, .node, .pq, .bwOpen, .bwHdr, .bwBits, .dstPos, .dst, .srcPos, .srcEof, .stack, .result, .err]
  | .facadeDecode => [.node, .brOpen, .brSize, .brBits, .srcPos, .srcEof, .dstPos, .dst, .result, .err]
  | .errClear => [.err]
  | .sreset =>
    [.bwOpen, .bwHdr, .bwBits, .brOpen, .brSize, .brBits, .srcPos, .srcEnd, .srcEof, .dstPos, .node, .snode, .mapping,
     .stack, .pq, .warg, .result, .err]

/-- A memory after byte stores, the first pair stored first. -/
def Memory.stores (m : Memory) (cells : List Host.Cell) : Memory := cells.foldl (fun m c => m.write c.1 c.2) m

/-- Command words written to CMD one after another, each through the gate (R81, R82). -/
def runWords : List Word → State → Result
  | [], s => .next s
  | w :: ws, s =>
    match commandWrite w s with
    | .next t => runWords ws t
    | .fault f => .fault f
    | .refused r => .refused r

/-! ## The source -/

/-- SRC[SRC_POS .. SRC_END - 1]: the input of FC.COUNT, HT.ENCODE, ENCODE (R163, R201, R241). -/
def State.input (s : State) : List Byte := s.src.readBytes s.srcPos.toNat (srcAvail s)

/-! ## Bit sequences and their block -/

/-- Payload byte j of a bit sequence: bit 8j + k at bit position k, 0 above the last bit (R51, R87). -/
def payloadByte (bits : List Bool) (j : Nat) : Byte :=
  BitVec.ofNat 8 (((List.range 8).map fun k => if bits[8 * j + k]?.getD false then 2 ^ k else 0).sum)

/-- The ceil8(K) payload bytes of a bit sequence (R87). -/
def payload (bits : List Bool) : List Byte := (List.range (ceil8 bits.length)).map (payloadByte bits)

/-- The bit-sequence block: the bit count as a 32-bit little-endian header, then the payload (R87). -/
def bitBlock (bits : List Bool) : List Byte := leBytes 4 bits.length ++ payload bits

/-- The block of a writer whose release has not stored its partial byte: the header still the placeholder 0 of BW.OPEN, then
the complete bytes (R121, R123). -/
def openBlock (bits : List Bool) : List Byte := leBytes 4 0 ++ (List.range (bits.length / 8)).map (payloadByte bits)

/-- The block HT.ENCODE leaves at DST_POS for the bits it has written: the release completes it, unless the bits end in a
partial byte whose place lies outside DST, where its flush raises before it stores anything (R123, R204). -/
def leftBlock (s : State) (bits : List Bool) : List Byte :=
  if bits.length % 8 ≠ 0 ∧ s.cfg.dstSize.toNat ≤ s.dstPos.toNat + 4 + bits.length / 8 then openBlock bits else bitBlock bits

/-- BW.WRITE raises e in a writer opened at DST_POS that has taken n bits: the count is full, or the bit completes a byte
whose place lies outside DST (R122). -/
def writeFails (s : State) (n : Nat) (e : Exc) : Prop :=
  (n = 2 ^ 32 - 1 ∧ e = capacity .bitcntOverflow) ∨
  (n < 2 ^ 32 - 1 ∧ n % 8 = 7 ∧ s.cfg.dstSize.toNat ≤ s.dstPos.toNat + 4 + n / 8 ∧ e = capacity .sinkRange)

/-- An open writer has taken these bits: BW_CNT counts them, the complete payload bytes are in the sink, the bits of the
byte in progress in BW_ACC (R127). -/
structure WriterHolds (s : State) (bits : List Bool) : Prop where
  isOpen : s.bwOpen = true
  count : s.bwCnt.toNat = bits.length
  acc : s.bwAcc = payloadByte bits (bits.length / 8)
  stored : ∀ j < bits.length / 8, s.dst.read (s.bwHdr.toNat + 4 + j) = payloadByte bits j

/-- The K bits that payload bytes hold: bit j is bit j mod 8 of byte j div 8 (R51, R145). -/
def bitsOf (bytes : List Byte) (K : Nat) : List Bool :=
  (List.range K).map fun j => (bytes[j / 8]?.getD 0).getLsbD (j % 8)

/-- The sink byte at address a once an open writer has been flushed (R123): the header holds BW_CNT, the byte in progress
holds BW_ACC if it has bits, every other byte is as it was. -/
def flushedByte (s : State) (a : Nat) : Byte :=
  if s.bwHdr.toNat ≤ a ∧ a < s.bwHdr.toNat + 4 then s.bwCnt.extractLsb' (8 * (a - s.bwHdr.toNat)) 8
  else if s.bwCnt.toNat % 8 ≠ 0 ∧ a = s.bwHdr.toNat + 4 + s.bwCnt.toNat / 8 then s.bwAcc
  else s.dst.read a

/-! ## A constructed tree -/

/-- NODE[i], a leaf where there is none. -/
def nodeAt (nodes : List Node) (i : Nat) : Node := nodes[i]?.getD (leafNode 0)

/-- The weight of node i, 0 where there is none. -/
def weightAt (ws : List Nat) (i : Nat) : Nat := ws[i]?.getD 0

/-- The strict lexicographic order of R183 on (weight, index) pairs. -/
def lexLt (w i w' i' : Nat) : Prop := w < w' ∨ (w = w' ∧ i < i')

/-- Merged node i came from nodes a and b (R181, R183, R184): they are its children 0 and 1 and have it as parent, its
weight is their sum, and of all nodes that stood without a parent when i was made, a was the least in the order of R183 and
b the next. A node stood without a parent then if its parent now is not below i; the root's is 0xFFFF. -/
structure MergedFrom (nodes : List Node) (ws : List Nat) (i a b : Nat) : Prop where
  c0 : (nodeAt nodes i).c0.toNat = a
  c1 : (nodeAt nodes i).c1.toNat = b
  sym : (nodeAt nodes i).sym = 0
  a_lt : a < i
  b_lt : b < i
  a_par : (nodeAt nodes a).par.toNat = i
  a_side : (nodeAt nodes a).side = false
  b_par : (nodeAt nodes b).par.toNat = i
  b_side : (nodeAt nodes b).side = true
  weight : weightAt ws i = weightAt ws a + weightAt ws b
  first : lexLt (weightAt ws a) a (weightAt ws b) b
  least : ∀ j < i, j ≠ a → j ≠ b → i < (nodeAt nodes j).par.toNat → lexLt (weightAt ws b) b (weightAt ws j) j

/-- The tree R181 to R185 describe, for the symbols syms in leaf order with weights f; ws gives each node's weight. -/
structure Built (syms : List Byte) (f : Byte → Nat) (ws : List Nat) (nodes : List Node) : Prop where
  /-- 2N - 1 nodes, none for N = 0. -/
  len : nodes.length = 2 * syms.length - 1
  ws_len : ws.length = nodes.length
  /-- The root, and it alone, has no parent: it is the last node. -/
  root : ∀ i < nodes.length, (nodeAt nodes i).par = sentinel ↔ i + 1 = nodes.length
  root_side : ∀ i < nodes.length, (nodeAt nodes i).par = sentinel → (nodeAt nodes i).side = false
  /-- The first N nodes are the leaves, one per symbol, in order. -/
  leaf : ∀ i < syms.length, (nodeAt nodes i).c0 = sentinel ∧ (nodeAt nodes i).c1 = sentinel
    ∧ syms[i]? = some (nodeAt nodes i).sym ∧ weightAt ws i = f (nodeAt nodes i).sym
  /-- Every other node was made by a merge. -/
  inner : ∀ i < nodes.length, syms.length ≤ i → ∃ a b, MergedFrom nodes ws i a b
  /-- Every node but the root is its parent's child on its side, and its parent is a later, merged node. -/
  up : ∀ i < nodes.length, (nodeAt nodes i).par ≠ sentinel → i < (nodeAt nodes i).par.toNat
    ∧ (nodeAt nodes i).par.toNat < nodes.length ∧ syms.length ≤ (nodeAt nodes i).par.toNat
    ∧ ((nodeAt nodes (nodeAt nodes i).par.toNat).child (nodeAt nodes i).side).toNat = i

/-! ## Code words -/

/-- The leaf of a symbol: the record of least index below LN with that sym (R202). -/
def leafOf (nodes : List Node) (v : Byte) : Option Node :=
  (nodes.take ((nodes.length + 1) / 2)).find? fun nd => nd.sym == v

/-- The sides met going up from a node to the root, in that order; none where a parent index is out of range or the
root is more than `room` steps away (R89, R203). -/
def sidesUp (nodes : List Node) : Nat → Node → Option (List Bool)
  | 0, nd => if nd.par = sentinel then some [] else none
  | room + 1, nd =>
    if nd.par = sentinel then some []
    else
      match nodes[nd.par.toNat]? with
      | none => none
      | some p => (sidesUp nodes room p).map fun up => nd.side :: up

/-- The node k steps up from a node, by its parent index; none where an index on the way is out of range or the chain ends
earlier (R203). -/
def ancestor (nodes : List Node) (nd : Node) : Nat → Option Node
  | 0 => some nd
  | k + 1 => (ancestor nodes nd k).bind fun x => if x.par = sentinel then none else nodes[x.par.toNat]?

/-- The code word of a symbol: the sides from the root's child down to the leaf (R89). -/
def codeWord (nodes : List Node) (v : Byte) : Option (List Bool) :=
  (leafOf nodes v).bind fun nd => (sidesUp nodes stkDepth nd).map List.reverse

/-- The exception HT.ENCODE meets at a symbol without code word, in the order of R277: no leaf; a parent index at or beyond
NN; more than 256 steps to the root (R201 to R203). -/
def symbolFails (nodes : List Node) (v : Byte) (e : Exc) : Prop :=
  match leafOf nodes v with
  | none => e = ⟨.symbolNotFound, .noLeaf⟩
  | some leaf =>
    (e = formatErr .treeIndexRange ∧ ∃ k < stkDepth, ∃ x, ancestor nodes leaf k = some x ∧ x.par ≠ sentinel
      ∧ nodes.length ≤ x.par.toNat) ∨
    (e = capacity .stackOverflow ∧ ∃ x, ancestor nodes leaf stkDepth = some x ∧ x.par ≠ sentinel)

/-- The bit sequence of an input: the code words one after another (R90). -/
def codeBits (nodes : List Node) : List Byte → Option (List Bool)
  | [] => some []
  | v :: vs => (codeWord nodes v).bind fun w => (codeBits nodes vs).map fun ws => w ++ ws

/-! ## Decoding a bit sequence -/

/-- From a node down, one bit a step, to the first leaf: that leaf and the bits left (R90, R205, R207). -/
def descend (nodes : List Node) : Node → List Bool → Option (Node × List Bool)
  | _, [] => none
  | nd, b :: bs =>
    if nd.child b = sentinel then none
    else
      match nodes[(nd.child b).toNat]? with
      | none => none
      | some n => if n.isLeaf then some (n, bs) else descend nodes n bs

/-- The symbols of a bit sequence, from the root for each symbol until no bit is left; each symbol takes a bit, so as many
rounds as bits suffice (R205). -/
def symbolsOf (nodes : List Node) : Nat → List Bool → Option (List Byte)
  | _, [] => some []
  | 0, _ :: _ => none
  | rounds + 1, b :: bs =>
    match nodes.getLast? with
    | none => none
    | some root =>
      match descend nodes root (b :: bs) with
      | none => none
      | some (leaf, rest) => (symbolsOf nodes rounds rest).map fun syms => leaf.sym :: syms

/-- The cause with which a descent to no leaf fails, and the bits it takes first: a sentinel child or an index at or beyond
NN, each after the bit that selects it, or `out` where the bits run out (R205, R206). -/
def descendFault (nodes : List Node) (out : ErrCause) : Node → List Bool → ErrCause × Nat
  | _, [] => (out, 0)
  | nd, b :: bs =>
    if nd.child b = sentinel then (.sentinelChild, 1)
    else
      match nodes[(nd.child b).toNat]? with
      | none => (.treeIndexRange, 1)
      | some n => ((descendFault nodes out n bs).1, (descendFault nodes out n bs).2 + 1)

/-- Decoding the bits at hand: the symbols reached before it stops, and, if it stops at a fault, the cause and the number of
bits taken by then. `short` says that more bits are declared than are at hand. An empty tree is a fault only where a bit is
still declared (R205, R206). -/
def decodeRun (nodes : List Node) (short : Bool) : Nat → List Bool → List Byte × Option (ErrCause × Nat)
  | 0, _ => ([], none)
  | rounds + 1, bits =>
    if bits = [] ∧ short = false then ([], none)
    else
      match nodes.getLast? with
      | none => ([], some (.treeEmpty, 0))
      | some root =>
        match descend nodes root bits with
        | none => ([], some (descendFault nodes (if short then .payloadShort else .bitsExhausted) root bits))
        | some (leaf, rest) =>
          (leaf.sym :: (decodeRun nodes short rounds rest).1,
            (decodeRun nodes short rounds rest).2.map fun f => (f.1, bits.length - rest.length + f.2))

/-- The number of bits the first n symbols of a bit sequence take (R205, R207). -/
def bitsUsed (nodes : List Node) : Nat → List Bool → Nat
  | 0, _ => 0
  | n + 1, bits =>
    match (nodes.getLast?).bind fun root => descend nodes root bits with
    | none => 0
    | some (_, rest) => bits.length - rest.length + bitsUsed nodes n rest

/-- The symbols a whole bit sequence decodes to. -/
def decodeBits (nodes : List Node) (bits : List Bool) : Option (List Byte) := symbolsOf nodes bits.length bits

end Sys2Proof.Machine
end

