-- ==== Sys2Proof/Certificates/Slice0/Obligations.lean ====
section
/-! DEFINITION. The statements for the provers. Each docstring names the rule of spec/ it formalises. A premise
`srcEnd ≤ srcSize`, `dst.wf` or `Inv` is the model's invariant, which `Obligations.EveryStepKeepsTheInvariant` and
`Obligations.ResetMeetsTheInvariant` establish; `errKind = 0` is R315's item 5. -/

section

open Sys2Proof Sys2Proof.Machine

/-! ## The command word -/

/-- R81, R83, R91: no operand bit of a command word is dropped. -/
def Obligations.EncodedCommandsDecodeBack : Prop := ∀ i : Instr, i.wellFormed = true → decode (encode i) = .ok i

/-- R80, R82, R95: a word that decodes is the one word of a well-formed command. -/
def Obligations.DecodedWordsAreEncodings : Prop :=
  ∀ (w : Word) (i : Instr), decode w = .ok i → i.wellFormed = true ∧ encode i = w

/-- R83, R97: a few words of the opcode map, one per family. -/
def Obligations.SampleWordsDecode : Prop :=
  decode 0x00000000#32 = .ok .nop ∧ decode 0x00000102#32 = .ok (.bwWrite 1) ∧ decode 0x00000009#32 = .ok .brRead
    ∧ decode 0x00006111#32 = .ok (.fcSet 0x61) ∧ decode 0x00000020#32 = .ok .htBuild
    ∧ decode 0x00000030#32 = .ok .facadeEncode ∧ decode 0x0000003F#32 = .ok .sreset

/-- R82, R95: what a write of CMD does, in the order of R82: the gate; the zero field; the opcode; the ARG field; else the
command's rule. -/
def Obligations.CommandWriteFollowsTheDecodeOrder : Prop :=
  ∀ (w : Word) (s : State),
    (s.errKind ≠ 0 ∧ w.extractLsb' 0 8 ≠ 0x3E#8 ∧ w.extractLsb' 0 8 ≠ 0x3F#8 → commandWrite w s = .next s) ∧
    (¬ (s.errKind ≠ 0 ∧ w.extractLsb' 0 8 ≠ 0x3E#8 ∧ w.extractLsb' 0 8 ≠ 0x3F#8) →
      (w.extractLsb' 16 16 ≠ 0#16 → commandWrite w s = .next (raiseExc (illegalOp .badArg) s)) ∧
      (w.extractLsb' 16 16 = 0#16 → reservedOpcode (w.extractLsb' 0 8) →
        commandWrite w s = .next (raiseExc (illegalOp .badOpcode) s)) ∧
      (w.extractLsb' 16 16 = 0#16 → w.extractLsb' 0 8 = 0x02#8 → w.extractLsb' 9 7 ≠ 0#7 →
        commandWrite w s = .next (raiseExc (illegalOp .badArg) s)) ∧
      (w.extractLsb' 16 16 = 0#16 → ¬ reservedOpcode (w.extractLsb' 0 8) →
        w.extractLsb' 0 8 ∉ [0x02#8, 0x11#8, 0x14#8] → w.extractLsb' 8 8 ≠ 0#8 →
        commandWrite w s = .next (raiseExc (illegalOp .badArg) s)) ∧
      (w.extractLsb' 16 16 = 0#16 → ¬ reservedOpcode (w.extractLsb' 0 8) →
        (w.extractLsb' 0 8 = 0x02#8 → w.extractLsb' 9 7 = 0#7) →
        (w.extractLsb' 0 8 ∉ [0x02#8, 0x11#8, 0x14#8] → w.extractLsb' 8 8 = 0#8) →
        ∃ i : Instr, i.wellFormed = true ∧ encode i = w ∧ commandWrite w s = exec i s))

/-- R10, R82, R254: a step whose oldest host access writes an ungated command word to CMD runs exactly the command the
word decodes to; placing the word with withFetchWord makes it the next. The queue of host accesses is the model's
(log 1, log 9). -/
def Obligations.StepRunsTheDecodedCommand : Prop :=
  (∀ (s : State) (w : Word) (rest : List HostAccess) (i : Instr), s.pending = .write 0x00#8 w :: rest →
    decode w = .ok i → (s.errKind = 0 ∨ i = .errClear ∨ i = .sreset) →
    step s = exec i { s with pending := rest }) ∧
  ∀ (s : State) (w : Nat) (i : Instr), w < 2 ^ 32 → decode (BitVec.ofNat 32 w) = .ok i →
    (s.errKind = 0 ∨ i = .errClear ∨ i = .sreset) → step (s.withFetchWord 32 w) = exec i s

/-! ## Exceptions -/

/-- R282: while an exception is recorded every command but ERR.CLEAR and SRESET is refused and changes nothing at all;
register reads and the other register writes are not gated: they do what they do when none is recorded. That a read's data
goes to the field `rdata` is the model's (log 2). -/
def Obligations.GateRefusesCommandsAndNothingElse : Prop :=
  (∀ (i : Instr) (s : State), s.errKind ≠ 0 → i ≠ .errClear → i ≠ .sreset → commandWrite (encode i) s = .next s) ∧
  (∀ s : State, commandWrite (encode .errClear) s = exec .errClear s ∧ commandWrite (encode .sreset) s = exec .sreset s) ∧
  (∀ (reg : Byte) (s : State), hostAccess (.read reg) s = .next { s with rdata := s.regValue reg }) ∧
  ∀ (reg : Byte) (v : Word) (s : State), reg ≠ 0 → ∃ t u, registerWrite reg v s = .next t
    ∧ registerWrite reg v { s with errKind := 0, errCause := 0 } = .next u
    ∧ { t with errKind := 0, errCause := 0 } = ({ u with errKind := 0, errCause := 0 } : State)

/-- R280, R281: a raise records kind and cause if none is recorded, and nothing else; a further one changes nothing; of a
body's exception and its release step's (R204), the body's is the one raised. -/
def Obligations.RaiseRecordsTheFirstException : Prop :=
  (∀ (e : Exc) (s : State), s.errKind = 0 →
    raiseExc e s = { s with errKind := e.kind.code, errCause := e.cause.code }) ∧
  (∀ (e : Exc) (s : State), s.errKind ≠ 0 → raiseExc e s = s) ∧
  ∀ (e : Exc) (s : State), ∃ t, releaseWriter (.raised e s) = .raised e t

/-- R271: register ERR is ERR_CAUSE << 3 | ERR_KIND, and kinds 6 and 7 are never recorded (in a state with the invariant);
after a raise ERR reads the value of R272's column ERR, row by row, in the order of R272. -/
def Obligations.ErrRegisterReadsThePair : Prop :=
  (∀ s : State, (s.regValue 0x02).toNat = 8 * s.errCause.toNat + s.errKind.toNat) ∧
  (∀ s : State, s.errKind = 0 → recordedExcs.map (fun e => (raiseExc e s).regValue 0x02)
    = [0x09, 0x11, 0x19, 0x21, 0x29, 0x32, 0x31, 0x39, 0x41, 0x4B, 0x84, 0x8C, 0x94, 0x9C, 0xA4, 0xAC, 0xC5, 0xCD, 0xD5,
       0xDD]) ∧
  ∀ s : State, s.Inv → s.errKind.toNat ≤ 5

/-- R272, R274: what a command records is among the exceptions R272's column "raised by" gives it. -/
def Obligations.CommandsRecordOnlyTheirExceptions : Prop :=
  ∀ (i : Instr) (s t : State), i.wellFormed = true → s.Inv → s.errKind = 0 → exec i s = .next t →
    t.errKind = 0 ∨ ∃ e ∈ raisable i, t.records e

/-- R206: END_OF_SEQUENCE is never recorded by HT.DECODE or DECODE: with no exception recorded before, what they record is
FORMAT_ERROR, or CAPACITY(SINK_RANGE) for the sink, or ILLEGAL_OP(SINK_BOUND) and then only with a writer open. R205:
BR_OPEN is 0 after HT.DECODE, however it ends. -/
def Obligations.DecodeFailuresAreFormatErrors : Prop :=
  (∀ s t : State, s.Inv → s.errKind = 0 → (exec .htDecode s = .next t ∨ exec .facadeDecode s = .next t) →
    t.errKind = 0 ∨ t.errKind = ErrKind.formatError.code ∨ t.records (capacity .sinkRange)
      ∨ (s.bwOpen = true ∧ t.records (illegalOp .sinkBound))) ∧
  ∀ s t : State, s.bwOpen = false → exec .htDecode s = .next t → t.brOpen = false

/-! ## The host's registers and byte accesses -/

/-- R31: the bits of STATUS; it is read-only (R33); after reset it reads 0x00000004. -/
def Obligations.StatusBits : Prop :=
  (∀ s : State, (s.regValue 0x01).getLsbD 0 = s.bwOpen ∧ (s.regValue 0x01).getLsbD 1 = s.brOpen
    ∧ (s.regValue 0x01).getLsbD 2 = (s.brCnt == s.brSize) ∧ (s.regValue 0x01).getLsbD 3 = s.srcEof
    ∧ (s.regValue 0x01).getLsbD 4 = (s.errKind != 0) ∧ (s.regValue 0x01).getLsbD 5 = (s.node.length != 0)
    ∧ ∀ k, 6 ≤ k → (s.regValue 0x01).getLsbD k = false) ∧
  (∀ (v : Word) (s : State), registerWrite 0x01 v s = .next (raiseExc (illegalOp .badCsr) s)) ∧
  State.reset.regValue 0x01 = 0x00000004#32

/-- R30 to R32, R271: a host read returns the register of that number, STATUS and ERR among them, and changes no state of the
engine; CMD and the reserved numbers read 0. Where the read's data goes, `rdata`, is the model's (log 2). -/
def Obligations.HostReadsReturnTheRegister : Prop :=
  ∀ (s : State) (reg : Byte), ∃ v : Word, hostAccess (.read reg) s = .next { s with rdata := v } ∧
    (reg = 0x01 → v.getLsbD 0 = s.bwOpen ∧ v.getLsbD 1 = s.brOpen ∧ v.getLsbD 2 = (s.brCnt == s.brSize)
      ∧ v.getLsbD 3 = s.srcEof ∧ v.getLsbD 4 = (s.errKind != 0) ∧ v.getLsbD 5 = (s.node.length != 0)
      ∧ ∀ k, 6 ≤ k → v.getLsbD k = false) ∧
    (reg = 0x02 → v.toNat = 8 * s.errCause.toNat + s.errKind.toNat) ∧
    (reg = 0x03 → v = s.result) ∧ (reg = 0x04 → v = s.warg) ∧ (reg = 0x05 → v = s.srcPos) ∧
    (reg = 0x06 → v = s.srcEnd) ∧ (reg = 0x07 → v = s.dstPos) ∧ (reg = 0x08 → v = s.bwCnt) ∧
    (reg = 0x09 → v = s.bwHdr) ∧ (reg = 0x0A → v = s.brSize) ∧ (reg = 0x0B → v = s.brCnt) ∧
    (reg = 0x0C → s.node.length ≤ nodeCap → v.toNat = s.node.length) ∧
    (reg = 0x0D → s.snode.length ≤ nodeCap → v.toNat = s.snode.length) ∧
    (reg = 0x00 ∨ 0x0E ≤ reg.toNat → v = 0)

/-- R33: a host write, by register. -/
def Obligations.HostWritesByRegister : Prop :=
  ∀ (v : Word) (s : State),
    registerWrite 0x00 v s = commandWrite v s ∧
    registerWrite 0x04 v s = .next { s with warg := v } ∧
    registerWrite 0x05 v s = .next { s with srcPos := v, srcEof := false } ∧
    (s.cfg.srcSize.toNat < v.toNat → registerWrite 0x06 v s = .next (raiseExc (capacity .srcEndRange) s)) ∧
    (v.toNat ≤ s.cfg.srcSize.toNat → registerWrite 0x06 v s = .next { s with srcEnd := v }) ∧
    (s.bwOpen = true → registerWrite 0x07 v s = .next (raiseExc (illegalOp .sinkBound) s)) ∧
    (s.bwOpen = false → registerWrite 0x07 v s = .next { s with dstPos := v }) ∧
    ∀ reg : Byte, reg ∈ [0x01#8, 0x02#8, 0x03#8] ∨ 0x08 ≤ reg.toNat →
      registerWrite reg v s = .next (raiseExc (illegalOp .badCsr) s)

/-- R256: the host writes any byte of SRC and of DST and reads any byte of DST; every other byte and all other state stay.
An access to a byte that does not exist stops (the model's choice, log 8). That the byte read goes to the field `rdata`,
zero-extended, is the model's (log 2). -/
def Obligations.HostByteAccesses : Prop :=
  ∀ (a : Word) (b : Byte) (s : State), s.src.wf → s.dst.wf →
    (a.toNat < s.cfg.srcSize.toNat → ∃ m, hostAccess (.srcPoke a b) s = .next { s with src := m }
      ∧ ∀ x, Memory.read m x = if x = a.toNat then b else s.src.read x) ∧
    (a.toNat < s.cfg.dstSize.toNat → ∃ m, hostAccess (.dstPoke a b) s = .next { s with dst := m }
      ∧ ∀ x, Memory.read m x = if x = a.toNat then b else s.dst.read x) ∧
    (a.toNat < s.cfg.dstSize.toNat →
      hostAccess (.dstPeek a) s = .next { s with rdata := (s.dst.read a.toNat).setWidth 32 }) ∧
    (s.cfg.srcSize.toNat ≤ a.toNat → hostAccess (.srcPoke a b) s = .fault .hostHole) ∧
    (s.cfg.dstSize.toNat ≤ a.toNat →
      hostAccess (.dstPoke a b) s = .fault .hostHole ∧ hostAccess (.dstPeek a) s = .fault .hostHole)

/-- R10, R254, R311: a step is the oldest host access, whole; with none the block is idle and all state stays. The queue of
accesses is the model's (log 1). -/
def Obligations.StepIsOneHostAccess : Prop :=
  (∀ s : State, s.pending = [] → step s = .next s) ∧
  ∀ (s : State) (x : HostAccess) (rest : List HostAccess), s.pending = x :: rest →
    step s = hostAccess x { s with pending := rest }

/-! ## Reset, NOP, ERR.CLEAR -/

/-- R252, R310: SRESET and the reset input put every register to its reset value and leave SRC and DST; STK, whose contents
R310 leaves open, is not mentioned. That the sizes, the pending accesses and the read data stay too is the model's reading
(log 11). -/
def Obligations.ResetPutsEveryRegisterToItsValue : Prop :=
  encode .sreset = 0x0000003F#32 ∧ ∀ s : State, ∃ t : State, exec .sreset s = .next t ∧
    commandWrite 0x0000003F#32 s = .next t ∧ hostAccess .rst s = .next t ∧
    t.bwOpen = false ∧ t.bwHdr = 0 ∧ t.bwCnt = 0 ∧ t.bwAcc = 0 ∧ t.brOpen = false ∧ t.brSize = 0 ∧ t.brCnt = 0 ∧
    t.brCur = 0 ∧ t.srcPos = 0 ∧ t.srcEnd = 0 ∧ t.dstPos = 0 ∧ t.srcEof = false ∧ t.node = [] ∧ t.snode = [] ∧
    (∀ v : Byte, t.freqOf v = 0 ∧ t.hasSym v = false) ∧ t.warg = 0 ∧ t.result = 0 ∧ t.errKind = 0 ∧ t.errCause = 0 ∧
    t.sp = 0 ∧ t.pq = [] ∧ t.regValue 0x01 = 0x00000004#32 ∧ t.src = s.src ∧ t.dst = s.dst ∧ t.cfg = s.cfg ∧
    t.pending = s.pending ∧ t.rdata = s.rdata

/-- R12, R30, R310: the state the machine starts in has the reset values of the spec. -/
def Obligations.ResetStateValues : Prop :=
  let t := State.reset
  t.bwOpen = false ∧ t.bwHdr = 0 ∧ t.bwCnt = 0 ∧ t.bwAcc = 0 ∧ t.brOpen = false ∧ t.brSize = 0 ∧ t.brCnt = 0 ∧
    t.brCur = 0 ∧ t.srcPos = 0 ∧ t.srcEnd = 0 ∧ t.dstPos = 0 ∧ t.srcEof = false ∧ t.node = [] ∧ t.snode = [] ∧
    (∀ v : Byte, t.freqOf v = 0 ∧ t.hasSym v = false) ∧ t.warg = 0 ∧ t.result = 0 ∧ t.errKind = 0 ∧ t.errCause = 0 ∧
    t.sp = 0 ∧ t.pq = []

/-- R250: NOP changes nothing, and neither does its word where the gate refuses it. -/
def Obligations.NopChangesNothing : Prop :=
  encode .nop = 0x00000000#32 ∧ ∀ s : State, exec .nop s = .next s ∧ commandWrite 0x00000000#32 s = .next s

/-- R251: ERR.CLEAR clears the recorded exception, restores nothing, and is never gated. -/
def Obligations.ErrClearClearsTheRecord : Prop :=
  encode .errClear = 0x0000003E#32 ∧
    ∀ s : State, exec .errClear s = .next { s with errKind := 0, errCause := 0 } ∧
      commandWrite 0x0000003E#32 s = .next { s with errKind := 0, errCause := 0 }

/-! ## The bit writer -/

/-- R121: BW.OPEN. -/
def Obligations.BwOpenStartsAWriter : Prop :=
  encode .bwOpen = 0x00000001#32 ∧ ∀ s : State, s.dst.wf →
    (s.bwOpen = true → exec .bwOpen s = .next (raiseExc (illegalOp .bwState) s)) ∧
    (s.bwOpen = false → s.cfg.dstSize.toNat < s.dstPos.toNat + 4 →
      exec .bwOpen s = .next (raiseExc (capacity .sinkRange) s)) ∧
    (s.bwOpen = false → s.dstPos.toNat + 4 ≤ s.cfg.dstSize.toNat → ∃ m,
      exec .bwOpen s = .next { s with
        bwHdr := s.dstPos, dst := m, dstPos := s.dstPos + 4, bwCnt := 0, bwAcc := 0, bwOpen := true } ∧
      ∀ a, Memory.read m a = if s.dstPos.toNat ≤ a ∧ a < s.dstPos.toNat + 4 then 0 else s.dst.read a)

/-- R122: BW.WRITE b. -/
def Obligations.BwWriteAppendsABit : Prop :=
  encode (.bwWrite 0) = 0x00000002#32 ∧ encode (.bwWrite 1) = 0x00000102#32 ∧
  ∀ (b : Bool) (s : State), s.dst.wf →
    let i : Instr := .bwWrite (if b then 1 else 0)
    let k := s.bwCnt.toNat % 8
    let v : Byte := s.bwAcc ||| ((if b then 1#8 else 0#8) <<< k)
    let a := s.bwHdr.toNat + 4 + s.bwCnt.toNat / 8
    (s.bwOpen = false → exec i s = .next (raiseExc (illegalOp .bwState) s)) ∧
    (s.bwOpen = true → s.bwCnt.toNat = 2 ^ 32 - 1 → exec i s = .next (raiseExc (capacity .bitcntOverflow) s)) ∧
    (s.bwOpen = true → s.bwCnt.toNat < 2 ^ 32 - 1 → k = 7 → s.cfg.dstSize.toNat ≤ a →
      exec i s = .next (raiseExc (capacity .sinkRange) s)) ∧
    (s.bwOpen = true → s.bwCnt.toNat < 2 ^ 32 - 1 → k = 7 → a < s.cfg.dstSize.toNat → ∃ m,
      exec i s = .next { s with dst := m, bwAcc := 0, dstPos := BitVec.ofNat 32 (a + 1), bwCnt := s.bwCnt + 1 } ∧
      ∀ x, Memory.read m x = if x = a then v else s.dst.read x) ∧
    (s.bwOpen = true → s.bwCnt.toNat < 2 ^ 32 - 1 → k ≠ 7 →
      exec i s = .next { s with bwAcc := v, bwCnt := s.bwCnt + 1 })

/-- R123: BW.FLUSH. That the four header bytes exist is R34's. -/
def Obligations.BwFlushCompletesTheSinkImage : Prop :=
  encode .bwFlush = 0x00000003#32 ∧ ∀ s : State, s.dst.wf →
    let a := s.bwHdr.toNat + 4 + s.bwCnt.toNat / 8
    (s.bwOpen = false → exec .bwFlush s = .next s) ∧
    (s.bwOpen = true → s.bwCnt.toNat % 8 ≠ 0 → s.cfg.dstSize.toNat ≤ a →
      exec .bwFlush s = .next (raiseExc (capacity .sinkRange) s)) ∧
    (s.bwOpen = true → s.bwHdr.toNat + 4 ≤ s.cfg.dstSize.toNat →
      (s.bwCnt.toNat % 8 ≠ 0 → a < s.cfg.dstSize.toNat) → ∃ m,
      exec .bwFlush s = .next { s with
        dst := m, dstPos := BitVec.ofNat 32 (s.bwHdr.toNat + 4 + (s.bwCnt.toNat + 7) / 8) } ∧
      ∀ x, Memory.read m x = flushedByte s x)

/-- R124: a second BW.FLUSH leaves everything as the first did; after a flush that raised nothing the stored header is the
bit count. -/
def Obligations.BwFlushIsIdempotent : Prop :=
  ∀ s t : State, s.Inv → exec .bwFlush s = .next t →
    exec .bwFlush t = .next t ∧
    (s.bwOpen = true → s.errKind = 0 → t.errKind = 0 → memRead t.dst t.bwHdr.toNat 4 = s.bwCnt.toNat)

/-- R125: BW.DESTROY flushes and closes the writer, whether or not the flush raised; BW_CNT, BW_HDR and BW_ACC stay. -/
def Obligations.BwDestroyFlushesAndCloses : Prop :=
  encode .bwDestroy = 0x00000004#32 ∧ ∀ s : State, s.dst.wf →
    let a := s.bwHdr.toNat + 4 + s.bwCnt.toNat / 8
    (s.bwOpen = false → exec .bwDestroy s = .next s) ∧
    (s.bwOpen = true → ∃ t, exec .bwFlush s = .next t ∧ exec .bwDestroy s = .next { t with bwOpen := false }) ∧
    (s.bwOpen = true → s.bwCnt.toNat % 8 ≠ 0 → s.cfg.dstSize.toNat ≤ a →
      exec .bwDestroy s = .next (raiseExc (capacity .sinkRange) { s with bwOpen := false })) ∧
    (s.bwOpen = true → s.bwHdr.toNat + 4 ≤ s.cfg.dstSize.toNat →
      (s.bwCnt.toNat % 8 ≠ 0 → a < s.cfg.dstSize.toNat) → ∃ m,
      exec .bwDestroy s = .next { s with
        bwOpen := false, dst := m, dstPos := BitVec.ofNat 32 (s.bwHdr.toNat + 4 + (s.bwCnt.toNat + 7) / 8) } ∧
      ∀ x, Memory.read m x = flushedByte s x)

/-- R127: an open writer's sink image. A BW.OPEN that raises nothing starts one at the old DST_POS; from then on every
command leaves the bits as they are, or is BW.WRITE and adds its bit, or is BW.DESTROY or SRESET; it never changes a
complete payload byte; and a BW.FLUSH or BW.DESTROY that raises nothing leaves the bits' block in the sink, DST_POS past
it. -/
def Obligations.OpenWriterHoldsItsBits : Prop :=
  ∀ s t : State, s.Inv → s.errKind = 0 →
    (exec .bwOpen s = .next t → t.errKind = 0 → WriterHolds t [] ∧ t.bwHdr = s.dstPos) ∧
    ∀ (i : Instr) (bits : List Bool), i.wellFormed = true → WriterHolds s bits → exec i s = .next t →
      (WriterHolds t bits ∨ (∃ b : Bool, i = .bwWrite (if b then 1 else 0) ∧ WriterHolds t (bits ++ [b]))
        ∨ (t.bwOpen = false ∧ (i = .bwDestroy ∨ i = .sreset))) ∧
      (∀ j < bits.length / 8, t.dst.read (s.bwHdr.toNat + 4 + j) = s.dst.read (s.bwHdr.toNat + 4 + j)) ∧
      (i = .bwFlush ∨ i = .bwDestroy → t.errKind = 0 →
        t.dst.readBytes s.bwHdr.toNat (4 + ceil8 bits.length) = bitBlock bits ∧
        t.dstPos.toNat = s.bwHdr.toNat + 4 + ceil8 bits.length)

/-- R87, R127: BW.OPEN, the writes of a bit list and BW.DESTROY leave in the sink the bit-sequence block of the list, at the
old DST_POS, and nothing else changed in it; BW_CNT is the number of bits, DST_POS is past the block. -/
def Obligations.WriterLeavesTheBitSequenceBlock : Prop :=
  ∀ (s : State) (bits : List Bool), s.dst.wf → s.errKind = 0 → s.bwOpen = false → bits.length < 2 ^ 32 →
    s.dstPos.toNat + 4 + ceil8 bits.length ≤ s.cfg.dstSize.toNat →
    ∃ t : State, runWords (0x00000001#32 :: bits.map (fun b => if b then 0x00000102#32 else 0x00000002#32)
        ++ [0x00000004#32]) s = .next t ∧
      t = { s with bwHdr := s.dstPos, bwCnt := BitVec.ofNat 32 bits.length, bwAcc := t.bwAcc, dst := t.dst,
                   dstPos := BitVec.ofNat 32 (s.dstPos.toNat + 4 + ceil8 bits.length) } ∧
      t.dst.readBytes s.dstPos.toNat (4 + ceil8 bits.length) = bitBlock bits ∧
      ∀ a, (a < s.dstPos.toNat ∨ s.dstPos.toNat + 4 + ceil8 bits.length ≤ a) → t.dst.read a = s.dst.read a

/-! ## The bit reader -/

/-- R141: BR.OPEN. -/
def Obligations.BrOpenStartsAReader : Prop :=
  encode .brOpen = 0x00000008#32 ∧ ∀ s : State, s.srcEnd.toNat ≤ s.cfg.srcSize.toNat →
    (s.srcEnd.toNat < s.srcPos.toNat + 4 →
      exec .brOpen s = .next (raiseExc (formatErr .bithdrShort) { s with brOpen := false, srcEof := true })) ∧
    (s.srcPos.toNat + 4 ≤ s.srcEnd.toNat →
      exec .brOpen s = .next { s with
        brOpen := true, brSize := BitVec.ofNat 32 (memRead s.src s.srcPos.toNat 4), brCnt := 0, brCur := 0,
        srcPos := s.srcPos + 4 })

/-- R142: BR.READ. -/
def Obligations.BrReadReturnsTheNextBit : Prop :=
  encode .brRead = 0x00000009#32 ∧ ∀ s : State, s.srcEnd.toNat ≤ s.cfg.srcSize.toNat →
    let k := s.brCnt.toNat % 8
    (s.brOpen = false → exec .brRead s = .next (raiseExc (illegalOp .brState) s)) ∧
    (s.brOpen = true → s.brCnt = s.brSize → exec .brRead s = .next (raiseExc ⟨.endOfSequence, .bitsExhausted⟩ s)) ∧
    (s.brOpen = true → s.brCnt ≠ s.brSize → k = 0 → s.srcEnd.toNat ≤ s.srcPos.toNat →
      exec .brRead s = .next (raiseExc (formatErr .payloadShort) { s with srcEof := true })) ∧
    (s.brOpen = true → s.brCnt ≠ s.brSize → k = 0 → s.srcPos.toNat < s.srcEnd.toNat →
      exec .brRead s = .next { s with
        brCur := s.src.read s.srcPos.toNat, srcPos := s.srcPos + 1,
        result := ((s.src.read s.srcPos.toNat) &&& 1#8).setWidth 32, brCnt := s.brCnt + 1 }) ∧
    (s.brOpen = true → s.brCnt ≠ s.brSize → k ≠ 0 →
      exec .brRead s = .next { s with
        result := ((s.brCur >>> k) &&& 1#8).setWidth 32, brCnt := s.brCnt + 1 })

/-- R145: after BR.OPEN of a block of K bits and n + 1 reads, n < K, RESULT is bit n of the payload, SRC_POS has moved past
the header and the bytes those bits need, and nothing is recorded; read K records END_OF_SEQUENCE; where SRC_END cuts the
payload after m bytes, read 8m records FORMAT_ERROR(PAYLOAD_SHORT); and a payload that holds a writer's bits (R87) gives
those bits back, in order. -/
def Obligations.ReaderReturnsThePayloadBits : Prop :=
  ∀ (s : State) (K : Nat), s.srcEnd.toNat ≤ s.cfg.srcSize.toNat → s.errKind = 0 → s.srcPos.toNat + 4 ≤ s.srcEnd.toNat →
    memRead s.src s.srcPos.toNat 4 = K →
    let run := fun reads => runWords (0x00000008#32 :: List.replicate reads 0x00000009#32) s
    (∀ n < K, s.srcPos.toNat + 4 + ceil8 (n + 1) ≤ s.srcEnd.toNat → ∃ t : State, run (n + 1) = .next t ∧
      t = { s with brOpen := true, brSize := BitVec.ofNat 32 K, brCnt := BitVec.ofNat 32 (n + 1), brCur := t.brCur,
                   srcPos := BitVec.ofNat 32 (s.srcPos.toNat + 4 + ceil8 (n + 1)), result := t.result } ∧
      t.result = if (s.src.read (s.srcPos.toNat + 4 + n / 8)).getLsbD (n % 8) then 1 else 0) ∧
    (s.srcPos.toNat + 4 + ceil8 K ≤ s.srcEnd.toNat → ∃ t : State, run (K + 1) = .next t ∧
      t.records ⟨.endOfSequence, .bitsExhausted⟩ ∧ t.brCnt.toNat = K ∧ t.srcPos.toNat = s.srcPos.toNat + 4 + ceil8 K) ∧
    (∀ m < ceil8 K, s.srcEnd.toNat = s.srcPos.toNat + 4 + m → ∃ t : State, run (8 * m + 1) = .next t ∧
      t.records (formatErr .payloadShort) ∧ t.brCnt.toNat = 8 * m ∧ t.srcPos = s.srcEnd) ∧
    ∀ bits : List Bool, bits.length = K → s.src.readBytes (s.srcPos.toNat + 4) (ceil8 K) = payload bits →
      s.srcPos.toNat + 4 + ceil8 K ≤ s.srcEnd.toNat → ∀ n < K, ∃ t : State, run (n + 1) = .next t ∧
        t.result = if bits[n]?.getD false then 1 else 0

/-! ## Commands that only return a value -/

/-- R126, R143, R144, R165, R226: BW.SIZE, BR.EOS, BR.SIZE, FC.GET, HT.ADSIZE write RESULT and nothing else. -/
def Obligations.ValueCommandsWriteResultOnly : Prop :=
  encode .bwSize = 0x00000005#32 ∧ encode .brEos = 0x0000000A#32 ∧ encode .brSize = 0x0000000B#32 ∧
  (∀ v : Byte, encode (.fcGet v) = 0x00000014#32 ||| (v.setWidth 32 <<< 8)) ∧ encode .htAdsize = 0x00000025#32 ∧
  ∀ s : State,
    exec .bwSize s = .next { s with result := s.bwCnt } ∧
    exec .brEos s = .next { s with result := if s.brCnt = s.brSize then 1 else 0 } ∧
    exec .brSize s = .next { s with result := s.brSize } ∧
    (∀ v : Byte, exec (.fcGet v) s = .next { s with result := s.freqOf v }) ∧
    exec .htAdsize s = .next { s with result := BitVec.ofNat 32 (2 + 8 * s.node.length + 4) }

/-! ## The frequency counter -/

/-- R161, R162, R166: FC.CLEAR empties the mapping, FC.SET sets one entry, FC.NSYM counts the present symbols. -/
def Obligations.FcClearSetAndNsym : Prop :=
  encode .fcClear = 0x00000010#32 ∧ (∀ v : Byte, encode (.fcSet v) = 0x00000011#32 ||| (v.setWidth 32 <<< 8)) ∧
  encode .fcNsym = 0x00000015#32 ∧
  (∀ s : State, ∃ t, exec .fcClear s = .next t ∧ t = { s with freq := t.freq, present := t.present } ∧
    ∀ x, t.freqOf x = 0 ∧ t.hasSym x = false) ∧
  (∀ (v : Byte) (s : State), ∃ t, exec (.fcSet v) s = .next t ∧ t = { s with freq := t.freq, present := t.present } ∧
    ∀ x, t.freqOf x = (if x = v then s.warg else s.freqOf x) ∧ t.hasSym x = (x == v || s.hasSym x)) ∧
  ∀ s : State, exec .fcNsym s = .next { s with
    result := BitVec.ofNat 32 ((List.range 256).countP fun n => s.hasSym (BitVec.ofNat 8 n)) }

/-- R163: FC.COUNT counts the bytes between SRC_POS and SRC_END into a fresh mapping and changes nothing else. -/
def Obligations.FcCountCountsTheSource : Prop :=
  encode .fcCount = 0x00000012#32 ∧ ∀ s : State, s.srcEnd.toNat ≤ s.cfg.srcSize.toNat →
    ∃ t, exec .fcCount s = .next t ∧ t = { s with freq := t.freq, present := t.present } ∧
      ∀ x, t.freqOf x = BitVec.ofNat 32 (s.input.count x) ∧ t.hasSym x = decide (x ∈ s.input)

/-- R164: FC.PAD adds 0x00 and 0x01 with weight 0, each where absent, if fewer than two symbols are present; at least two
are afterwards. -/
def Obligations.FcPadEnsuresTwoSymbols : Prop :=
  encode .fcPad = 0x00000013#32 ∧ ∀ s : State, ∃ t, exec .fcPad s = .next t ∧
    t = { s with freq := t.freq, present := t.present } ∧
    (2 ≤ s.symbols.length → t = s) ∧
    (s.symbols.length < 2 → ∀ x,
      t.hasSym x = (s.hasSym x || x == 0x00#8 || x == 0x01#8) ∧
      t.freqOf x = if s.hasSym x = false ∧ (x = 0x00#8 ∨ x = 0x01#8) then 0 else s.freqOf x) ∧
    2 ≤ t.symbols.length

/-! ## The tree -/

/-- R181 to R185: HT.BUILD replaces NODE by the tree of the present symbols in ascending order, merged least two first, and
empties PQ; nothing else changes. From every node the root is at most N - 1 steps up. -/
def Obligations.HtBuildMergesTheLeastTwo : Prop :=
  encode .htBuild = 0x00000020#32 ∧ ∀ s : State, ∃ nodes ws,
    exec .htBuild s = .next { s with node := nodes, pq := [] } ∧ Built s.symbols (fun v => (s.freqOf v).toNat) ws nodes ∧
    ∀ i < nodes.length, (sidesUp nodes (s.symbols.length - 1) (nodeAt nodes i)).isSome = true

/-- R186: the tree HT.BUILD leaves has, for the weights of FREQ, the least sum of weight times code length that any prefix
code of the present symbols has. -/
def Obligations.HtBuildIsOptimal : Prop :=
  ∀ s : State, ∃ (nodes : List Node) (len : Byte → Nat), exec .htBuild s = .next { s with node := nodes, pq := [] } ∧
    (∀ v ∈ s.symbols, (codeWord nodes v).map List.length = some (len v)) ∧
    ∀ code : Byte → List Bool, (∀ x ∈ s.symbols, ∀ y ∈ s.symbols, x ≠ y → ¬ code x <+: code y) →
      (s.symbols.map fun v => (s.freqOf v).toNat * len v).sum
        ≤ (s.symbols.map fun v => (s.freqOf v).toNat * (code v).length).sum

/-- R90: in a tree built for N ≥ 2 symbols every symbol has a code word of 1 to N - 1 bits, none begins another, and the
code words of an input, one after another, decode to it. -/
def Obligations.CodeWordsAreAPrefixCode : Prop :=
  ∀ (s : State) (nodes : List Node), exec .htBuild s = .next { s with node := nodes, pq := [] } → 2 ≤ s.symbols.length →
    (∀ v ∈ s.symbols, ∃ w, codeWord nodes v = some w ∧ 1 ≤ w.length ∧ w.length ≤ s.symbols.length - 1 ∧
      ∀ v' ∈ s.symbols, v' ≠ v → ∀ w', codeWord nodes v' = some w' → ¬ w <+: w') ∧
    ∀ input : List Byte, (∀ v ∈ input, v ∈ s.symbols) → ∃ bits, codeBits nodes input = some bits ∧
      decodeBits nodes bits = some input

/-- R187, R188: HT.SNAP copies the tree into the shadow tree; HT.EQ returns whether the two are equal in every field. -/
def Obligations.HtSnapAndHtEq : Prop :=
  encode .htSnap = 0x00000026#32 ∧ encode .htEq = 0x00000027#32 ∧
  (∀ s : State, exec .htSnap s = .next { s with snode := s.node }) ∧
  ∀ s : State, exec .htEq s = .next { s with result := if s.node = s.snode then 1 else 0 }

/-- R221: HT.SAVE. -/
def Obligations.HtSaveWritesTheTreeBlock : Prop :=
  encode .htSave = 0x00000021#32 ∧ ∀ s : State, s.dst.wf → s.node.length ≤ nodeCap →
    let P := s.dstPos.toNat
    let n := s.node.length
    (s.bwOpen = true → exec .htSave s = .next (raiseExc (illegalOp .sinkBound) s)) ∧
    (s.bwOpen = false → s.cfg.dstSize.toNat < P + 2 + 8 * n →
      exec .htSave s = .next (raiseExc (capacity .sinkRange) s)) ∧
    (s.bwOpen = false → P + 2 + 8 * n ≤ s.cfg.dstSize.toNat → ∃ m,
      exec .htSave s = .next { s with dst := m, dstPos := BitVec.ofNat 32 (P + 2 + 8 * n) } ∧
      memRead m P 2 = n ∧
      (∀ i < n, let r := P + 2 + 8 * i
        memRead m r 2 = (nodeAt s.node i).c0.toNat ∧ memRead m (r + 2) 2 = (nodeAt s.node i).c1.toNat ∧
        memRead m (r + 4) 2 = (nodeAt s.node i).par.toNat ∧
        Memory.read m (r + 6) = (if (nodeAt s.node i).side then 0x01#8 else 0x00#8) ∧
        Memory.read m (r + 7) = (nodeAt s.node i).sym) ∧
      ∀ a, (a < P ∨ P + 2 + 8 * n ≤ a) → Memory.read m a = s.dst.read a)

/-- R223, R224: HT.LOAD. -/
def Obligations.HtLoadReadsTheTreeBlock : Prop :=
  encode .htLoad = 0x00000022#32 ∧ ∀ s : State, s.srcEnd.toNat ≤ s.cfg.srcSize.toNat →
    let P := s.srcPos.toNat
    let n := memRead s.src P 2
    (s.srcEnd.toNat < P + 2 →
      exec .htLoad s = .next (raiseExc (formatErr .treeCountShort) { s with srcEof := true })) ∧
    (P + 2 ≤ s.srcEnd.toNat → s.srcEnd.toNat < P + 2 + 8 * n →
      exec .htLoad s = .next (raiseExc (formatErr .treeRecordsShort) { s with srcEof := true })) ∧
    (P + 2 + 8 * n ≤ s.srcEnd.toNat → ∃ nodes,
      exec .htLoad s = .next { s with node := nodes, srcPos := BitVec.ofNat 32 (P + 2 + 8 * n) } ∧
      nodes.length = n ∧
      ∀ i < n, let r := P + 2 + 8 * i
        (nodeAt nodes i).c0.toNat = memRead s.src r 2 ∧ (nodeAt nodes i).c1.toNat = memRead s.src (r + 2) 2 ∧
        (nodeAt nodes i).par.toNat = memRead s.src (r + 4) 2 ∧
        (nodeAt nodes i).side = decide (s.src.read (r + 6) ≠ 0x00#8) ∧ (nodeAt nodes i).sym = s.src.read (r + 7))

/-- R225: where HT.SAVE raises nothing, HT.LOAD of the bytes it wrote gives the saved tree back, and HT.EQ against a snapshot
of it returns 1. -/
def Obligations.SavedTreeLoadsBack : Prop :=
  ∀ s t u : State, s.dst.wf → s.node.length ≤ nodeCap → s.errKind = 0 → exec .htSave s = .next t → t.errKind = 0 →
    u.srcEnd.toNat ≤ u.cfg.srcSize.toNat → u.srcPos.toNat + (2 + 8 * s.node.length) ≤ u.srcEnd.toNat →
    u.src.readBytes u.srcPos.toNat (2 + 8 * s.node.length) = t.dst.readBytes s.dstPos.toNat (2 + 8 * s.node.length) →
    u.snode = s.node →
    ∃ v, exec .htLoad u = .next v ∧ v = { u with node := s.node, srcPos := v.srcPos } ∧
      exec .htEq v = .next { v with result := 1 }

/-! ## Transcoding -/

/-- R201, R204, R89, R90, R87: HT.ENCODE refuses an open writer and a sink without room for the header; on an input whose
symbols all have code words, with room, it leaves the bit-sequence block of the code words. -/
def Obligations.HtEncodeWritesTheCodeWords : Prop :=
  encode .htEncode = 0x00000023#32 ∧ ∀ s : State, s.Inv →
    (s.bwOpen = true → exec .htEncode s = .next (raiseExc (illegalOp .bwState) s)) ∧
    (s.bwOpen = false → s.cfg.dstSize.toNat < s.dstPos.toNat + 4 →
      exec .htEncode s = .next (raiseExc (capacity .sinkRange) s)) ∧
    ∀ bits : List Bool, s.bwOpen = false → codeBits s.node s.input = some bits → bits.length < 2 ^ 32 →
      s.dstPos.toNat + 4 + ceil8 bits.length ≤ s.cfg.dstSize.toNat → ∃ m stk,
      exec .htEncode s = .next { s with
        bwHdr := s.dstPos
        bwCnt := BitVec.ofNat 32 bits.length
        bwAcc := payloadByte bits (bits.length / 8)
        dst := m
        dstPos := BitVec.ofNat 32 (s.dstPos.toNat + 4 + ceil8 bits.length)
        srcPos := if s.srcPos.toNat ≤ s.srcEnd.toNat then s.srcEnd else s.srcPos
        srcEof := true
        stk := stk } ∧
      ∀ a, Memory.read m a = if s.dstPos.toNat ≤ a ∧ a < s.dstPos.toNat + 4 + ceil8 bits.length
        then (bitBlock bits)[a - s.dstPos.toNat]?.getD 0 else s.dst.read a

/-- R204: a writer HT.ENCODE opened is gone when the command ends, however it ends, inside ENCODE too; where its body and
the release both raise, the body's exception is the one raised. -/
def Obligations.HtEncodeAlwaysReleasesItsWriter : Prop :=
  (∀ s t : State, s.bwOpen = false → exec .htEncode s = .next t ∨ exec .facadeEncode s = .next t → t.bwOpen = false) ∧
  ∀ (e : Exc) (s : State), ∃ t, releaseWriter (.raised e s) = .raised e t ∧ t.bwOpen = false

/-- R201 to R204, R283: at a symbol without leaf, or whose chain of parents leaves the array or is too long, HT.ENCODE has
consumed that symbol, leaves the block of the symbols before it, and records the exception; where the release then has no
place for the partial byte, the header stays the placeholder and the exception is still the symbol's. -/
def Obligations.HtEncodeStopsAtASymbolItCannotEncode : Prop :=
  ∀ (s : State) (pre post : List Byte) (v : Byte) (e : Exc) (bits : List Bool), s.Inv → s.bwOpen = false →
    s.input = pre ++ v :: post → codeBits s.node pre = some bits → symbolFails s.node v e → bits.length < 2 ^ 32 →
    s.dstPos.toNat + 4 + bits.length / 8 ≤ s.cfg.dstSize.toNat → ∃ m stk,
      exec .htEncode s = .next (raiseExc e { s with
        bwHdr := s.dstPos
        bwCnt := BitVec.ofNat 32 bits.length
        bwAcc := payloadByte bits (bits.length / 8)
        dst := m
        dstPos := BitVec.ofNat 32 (s.dstPos.toNat + (leftBlock s bits).length)
        srcPos := BitVec.ofNat 32 (s.srcPos.toNat + pre.length + 1)
        stk := stk }) ∧
      ∀ a, Memory.read m a = if s.dstPos.toNat ≤ a ∧ a < s.dstPos.toNat + (leftBlock s bits).length
        then (leftBlock s bits)[a - s.dstPos.toNat]?.getD 0 else s.dst.read a

/-- R201, R204, R122, R123: HT.ENCODE where the sink or the bit count ends. Where every bit was written and only the last,
partial byte has no place, the release raises SINK_RANGE and the header stays the placeholder. Where the BW.WRITE of bit k of
a code word raises, that symbol is consumed, and the sink holds what the release can complete of the bits written before. -/
def Obligations.HtEncodeStopsWhereTheSinkOrTheCountEnds : Prop :=
  ∀ s : State, s.Inv → s.bwOpen = false →
    (∀ bits : List Bool, codeBits s.node s.input = some bits → bits.length < 2 ^ 32 → bits.length % 8 ≠ 0 →
      s.dstPos.toNat + 4 + bits.length / 8 = s.cfg.dstSize.toNat → ∃ m stk,
      exec .htEncode s = .next (raiseExc (capacity .sinkRange) { s with
        bwHdr := s.dstPos
        bwCnt := BitVec.ofNat 32 bits.length
        bwAcc := payloadByte bits (bits.length / 8)
        dst := m
        dstPos := s.cfg.dstSize
        srcPos := if s.srcPos.toNat ≤ s.srcEnd.toNat then s.srcEnd else s.srcPos
        srcEof := true
        stk := stk }) ∧
      ∀ a, Memory.read m a = if s.dstPos.toNat ≤ a ∧ a < s.cfg.dstSize.toNat
        then (openBlock bits)[a - s.dstPos.toNat]?.getD 0 else s.dst.read a) ∧
    ∀ (pre post : List Byte) (v : Byte) (ws word : List Bool) (k : Nat) (e : Exc), s.input = pre ++ v :: post →
      codeBits s.node pre = some ws → codeWord s.node v = some word → k < word.length → writeFails s (ws.length + k) e →
      s.dstPos.toNat + 4 + (ws.length + k) / 8 ≤ s.cfg.dstSize.toNat →
      let bits := ws ++ word.take k
      ∃ m stk, exec .htEncode s = .next (raiseExc e { s with
        bwHdr := s.dstPos
        bwCnt := BitVec.ofNat 32 (ws.length + k)
        bwAcc := payloadByte bits ((ws.length + k) / 8)
        dst := m
        dstPos := BitVec.ofNat 32 (s.dstPos.toNat + (leftBlock s bits).length)
        srcPos := BitVec.ofNat 32 (s.srcPos.toNat + pre.length + 1)
        stk := stk }) ∧
      ∀ a, Memory.read m a = if s.dstPos.toNat ≤ a ∧ a < s.dstPos.toNat + (leftBlock s bits).length
        then (leftBlock s bits)[a - s.dstPos.toNat]?.getD 0 else s.dst.read a

/-- R201: where HT.ENCODE records nothing, no writer was open, every symbol had a code word, and the sink had room. -/
def Obligations.HtEncodeSucceedsOnlyOnEncodableInput : Prop :=
  ∀ s t : State, s.Inv → s.errKind = 0 → exec .htEncode s = .next t → t.errKind = 0 →
    s.bwOpen = false ∧ ∃ bits, codeBits s.node s.input = some bits ∧ bits.length < 2 ^ 32 ∧
      s.dstPos.toNat + 4 + ceil8 bits.length ≤ s.cfg.dstSize.toNat

/-- R205: HT.DECODE refuses an open writer and a short header. On a whole block whose bits decode it leaves the
symbols in the sink (RESULT is then the last bit read, BR_CUR the last payload byte, as its BR.READ steps leave them). Else
it stops after the symbols it emitted: with the cause that the bits at hand, A payload bytes, meet in the tree, or where the
sink is full. It has then read exactly j bits, those the descents took: 8·A where the payload is short, K where the declared
bits run out, in the sink's case those of the symbols up to the one without a place. -/
def Obligations.HtDecodeFollowsItsBits : Prop :=
  encode .htDecode = 0x00000024#32 ∧ ∀ s : State, s.dst.wf → s.srcEnd.toNat ≤ s.cfg.srcSize.toNat →
    (s.bwOpen = true → exec .htDecode s = .next (raiseExc (illegalOp .sinkBound) s)) ∧
    (s.bwOpen = false → s.srcEnd.toNat < s.srcPos.toNat + 4 →
      exec .htDecode s = .next (raiseExc (formatErr .bithdrShort) { s with brOpen := false, srcEof := true })) ∧
    (∀ (K : Nat) (syms : List Byte), s.bwOpen = false → memRead s.src s.srcPos.toNat 4 = K →
      s.srcPos.toNat + 4 + ceil8 K ≤ s.srcEnd.toNat →
      let bytes := s.src.readBytes (s.srcPos.toNat + 4) (ceil8 K)
      decodeBits s.node (bitsOf bytes K) = some syms →
      (syms ≠ [] → s.dstPos.toNat + syms.length ≤ s.cfg.dstSize.toNat) → ∃ m,
      exec .htDecode s = .next { s with
        brOpen := false
        brSize := BitVec.ofNat 32 K
        brCnt := BitVec.ofNat 32 K
        brCur := bytes.getLast?.getD 0
        result := ((bitsOf bytes K).getLast?.map fun b => if b then 1#32 else 0#32).getD s.result
        srcPos := BitVec.ofNat 32 (s.srcPos.toNat + 4 + ceil8 K)
        dst := m
        dstPos := BitVec.ofNat 32 (s.dstPos.toNat + syms.length) } ∧
      ∀ a, Memory.read m a = if s.dstPos.toNat ≤ a ∧ a < s.dstPos.toNat + syms.length
        then syms[a - s.dstPos.toNat]?.getD 0 else s.dst.read a) ∧
    ∀ (K A : Nat) (syms : List Byte) (f : Option (ErrCause × Nat)), s.bwOpen = false →
      memRead s.src s.srcPos.toNat 4 = K → s.srcPos.toNat + 4 ≤ s.srcEnd.toNat →
      A = min (ceil8 K) (s.srcEnd.toNat - (s.srcPos.toNat + 4)) →
      let bytes := s.src.readBytes (s.srcPos.toNat + 4) A
      let bits := bitsOf bytes (min K (8 * A))
      let lastBit := fun j => ((bits.take j).getLast?.map fun b => if b then 1#32 else 0#32).getD s.result
      decodeRun s.node (decide (8 * A < K)) (bits.length + 1) bits = (syms, f) →
      (∀ c j, f = some (c, j) → (syms ≠ [] → s.dstPos.toNat + syms.length ≤ s.cfg.dstSize.toNat) → ∃ m,
        exec .htDecode s = .next (raiseExc (formatErr c) { s with
          brOpen := false
          brSize := BitVec.ofNat 32 K
          brCnt := BitVec.ofNat 32 j
          brCur := (bytes.take (ceil8 j)).getLast?.getD 0
          result := lastBit j
          srcPos := BitVec.ofNat 32 (s.srcPos.toNat + 4 + ceil8 j)
          srcEof := s.srcEof || c == .payloadShort
          dst := m
          dstPos := BitVec.ofNat 32 (s.dstPos.toNat + syms.length) }) ∧ j ≤ bits.length ∧
        (c = .payloadShort → j = 8 * A) ∧ (c = .bitsExhausted → j = K) ∧
        ∀ a, Memory.read m a = if s.dstPos.toNat ≤ a ∧ a < s.dstPos.toNat + syms.length
          then syms[a - s.dstPos.toNat]?.getD 0 else s.dst.read a) ∧
      ∀ n < syms.length, s.dstPos.toNat + n = max s.dstPos.toNat s.cfg.dstSize.toNat → ∃ m,
        let j := bitsUsed s.node (n + 1) bits
        exec .htDecode s = .next (raiseExc (capacity .sinkRange) { s with
          brOpen := false
          brSize := BitVec.ofNat 32 K
          brCnt := BitVec.ofNat 32 j
          brCur := (bytes.take (ceil8 j)).getLast?.getD 0
          result := lastBit j
          srcPos := BitVec.ofNat 32 (s.srcPos.toNat + 4 + ceil8 j)
          dst := m
          dstPos := BitVec.ofNat 32 (s.dstPos.toNat + n) }) ∧ j ≤ bits.length ∧
        ∀ a, Memory.read m a = if s.dstPos.toNat ≤ a ∧ a < s.dstPos.toNat + n
          then syms[a - s.dstPos.toNat]?.getD 0 else s.dst.read a

/-- R205: where HT.DECODE records nothing, no writer was open, the whole block was there, and its bits decode: no malformed
sequence passes. -/
def Obligations.HtDecodeSucceedsOnlyOnDecodableBits : Prop :=
  ∀ s t : State, s.Inv → s.errKind = 0 → exec .htDecode s = .next t → t.errKind = 0 →
    let K := memRead s.src s.srcPos.toNat 4
    s.bwOpen = false ∧ s.srcPos.toNat + 4 + ceil8 K ≤ s.srcEnd.toNat ∧
      ∃ syms, decodeBits s.node (bitsOf (s.src.readBytes (s.srcPos.toNat + 4) (ceil8 K)) K) = some syms ∧
        (syms ≠ [] → s.dstPos.toNat + syms.length ≤ s.cfg.dstSize.toNat)

/-- R209: with a tree HT.BUILD made for at least two symbols that cover the input, HT.DECODE of the bytes HT.ENCODE wrote
emits the input and raises nothing; with a tree of one symbol HT.ENCODE writes no bit and HT.DECODE emits nothing. -/
def Obligations.TranscodingRoundTrip : Prop :=
  ∀ b s t u : State, exec .htBuild b = .next { b with node := s.node, pq := [] } →
    s.Inv → s.errKind = 0 → (∀ v ∈ s.input, b.hasSym v = true) →
    exec .htEncode s = .next t → t.errKind = 0 →
    u.Inv → u.errKind = 0 → u.bwOpen = false → u.node = s.node →
    let n := t.dstPos.toNat - s.dstPos.toNat
    u.src.readBytes u.srcPos.toNat n = t.dst.readBytes s.dstPos.toNat n → u.srcPos.toNat + n ≤ u.srcEnd.toNat →
    u.dstPos.toNat + s.input.length ≤ u.cfg.dstSize.toNat →
    ∃ v, exec .htDecode u = .next v ∧ v.errKind = 0 ∧
      (2 ≤ b.symbols.length → v.dst.readBytes u.dstPos.toNat s.input.length = s.input ∧
        v.dstPos.toNat = u.dstPos.toNat + s.input.length) ∧
      (b.symbols.length = 1 → t.bwCnt = 0 ∧ v.dstPos = u.dstPos ∧ v.dst = u.dst)

/-! ## ENCODE and DECODE -/

/-- The steps of R241 and R243 (as R98 orders them): ENCODE is FC.COUNT, FC.PAD, HT.BUILD, HT.SAVE, HT.ENCODE and DECODE is
HT.LOAD, HT.DECODE, one after another, stopping at the first that raises, with RESULT <- 8·NN + 6 at the end if none did;
both refuse an open writer. That BR_OPEN stays as it was where the HT.LOAD step of DECODE raises, and where DECODE refuses an
open writer, is the model's reading of R243's pseudocode against its line of flags (log 17). -/
def Obligations.FacadeIsItsSteps : Prop :=
  encode .facadeEncode = 0x00000030#32 ∧ encode .facadeDecode = 0x00000031#32 ∧
  (∀ s : State, s.bwOpen = true →
    exec .facadeEncode s = .next (raiseExc (illegalOp .bwState) s) ∧
    exec .facadeDecode s = .next (raiseExc (illegalOp .sinkBound) s)) ∧
  (∀ s : State, s.Inv → s.errKind = 0 → s.bwOpen = false → ∃ t,
    runWords [0x00000012#32, 0x00000013#32, 0x00000020#32, 0x00000021#32, 0x00000023#32] s = .next t ∧
    exec .facadeEncode s = .next
      (if t.errKind = 0 then { t with result := BitVec.ofNat 32 (8 * t.node.length + 6) } else t)) ∧
  ∀ s : State, s.Inv → s.errKind = 0 → s.bwOpen = false → ∃ t,
    runWords [0x00000022#32, 0x00000024#32] s = .next t ∧
    exec .facadeDecode s = .next
      (if t.errKind = 0 then { t with result := BitVec.ofNat 32 (8 * t.node.length + 6) } else t)

/-- R241, R242, R246: every input has a bit sequence in the tree that FC.COUNT, FC.PAD, HT.BUILD make of it, and with room
in the sink ENCODE leaves that tree's block and the sequence's block there and returns 8·NN + 6. -/
def Obligations.EncodeWritesTheFile : Prop :=
  ∀ s : State, s.Inv → s.errKind = 0 → s.bwOpen = false → ∃ (b : State) (bits : List Bool),
    runWords [0x00000012#32, 0x00000013#32, 0x00000020#32] s = .next b ∧ codeBits b.node s.input = some bits ∧
    (bits.length < 2 ^ 32 →
      s.dstPos.toNat + (2 + 8 * b.node.length) + 4 + ceil8 bits.length ≤ s.cfg.dstSize.toNat → ∃ m stk,
      exec .facadeEncode s = .next { b with
        bwHdr := BitVec.ofNat 32 (s.dstPos.toNat + (2 + 8 * b.node.length))
        bwCnt := BitVec.ofNat 32 bits.length
        bwAcc := payloadByte bits (bits.length / 8)
        dst := m
        dstPos := BitVec.ofNat 32 (s.dstPos.toNat + (2 + 8 * b.node.length) + 4 + ceil8 bits.length)
        srcPos := if s.srcPos.toNat ≤ s.srcEnd.toNat then s.srcEnd else s.srcPos
        srcEof := true
        result := BitVec.ofNat 32 (8 * b.node.length + 6)
        stk := stk } ∧
      ∀ a, Memory.read m a
        = if s.dstPos.toNat ≤ a ∧ a < s.dstPos.toNat + (2 + 8 * b.node.length) + 4 + ceil8 bits.length
          then (treeBlock b.node ++ bitBlock bits)[a - s.dstPos.toNat]?.getD 0 else s.dst.read a)

/-- R243: DECODE of a tree block and a bit-sequence block that decodes with that tree, with room in the sink, leaves the
symbols there and the tree in NODE, and returns 8·NN + 6. -/
def Obligations.DecodeReadsTheFile : Prop :=
  ∀ (s : State) (nodes : List Node) (K : Nat) (syms : List Byte), s.dst.wf → s.srcEnd.toNat ≤ s.cfg.srcSize.toNat →
    s.bwOpen = false → nodes.length ≤ nodeCap →
    let B := 2 + 8 * nodes.length
    let bytes := s.src.readBytes (s.srcPos.toNat + B + 4) (ceil8 K)
    s.src.readBytes s.srcPos.toNat B = treeBlock nodes → memRead s.src (s.srcPos.toNat + B) 4 = K →
    s.srcPos.toNat + B + 4 + ceil8 K ≤ s.srcEnd.toNat → decodeBits nodes (bitsOf bytes K) = some syms →
    (syms ≠ [] → s.dstPos.toNat + syms.length ≤ s.cfg.dstSize.toNat) → ∃ m,
    exec .facadeDecode s = .next { s with
      node := nodes
      brOpen := false
      brSize := BitVec.ofNat 32 K
      brCnt := BitVec.ofNat 32 K
      brCur := bytes.getLast?.getD 0
      result := BitVec.ofNat 32 (8 * nodes.length + 6)
      srcPos := BitVec.ofNat 32 (s.srcPos.toNat + B + 4 + ceil8 K)
      dst := m
      dstPos := BitVec.ofNat 32 (s.dstPos.toNat + syms.length) } ∧
    ∀ a, Memory.read m a = if s.dstPos.toNat ≤ a ∧ a < s.dstPos.toNat + syms.length
      then syms[a - s.dstPos.toNat]?.getD 0 else s.dst.read a

/-- R246: for every input whose payload has at most 2^32 - 1 bits, with room in the sink, ENCODE records nothing, and where
the bytes it wrote are the source, with room for the input in the sink: DECODE of all of them records nothing, writes
exactly the input and returns the same RESULT; DECODE of a proper prefix, with SRC_END at its end, records FORMAT_ERROR. -/
def Obligations.FileRoundTrip : Prop :=
  ∀ s : State, s.Inv → s.errKind = 0 → s.bwOpen = false → ∃ (b : State) (bits : List Bool),
    runWords [0x00000012#32, 0x00000013#32, 0x00000020#32] s = .next b ∧ codeBits b.node s.input = some bits ∧
    (bits.length < 2 ^ 32 →
      s.dstPos.toNat + (2 + 8 * b.node.length) + 4 + ceil8 bits.length ≤ s.cfg.dstSize.toNat → ∃ t,
      exec .facadeEncode s = .next t ∧ t.errKind = 0 ∧
      let n := t.dstPos.toNat - s.dstPos.toNat
      ∀ u : State, u.Inv → u.errKind = 0 → u.bwOpen = false →
        u.dstPos.toNat + s.input.length ≤ u.cfg.dstSize.toNat →
        (u.src.readBytes u.srcPos.toNat n = t.dst.readBytes s.dstPos.toNat n → u.srcPos.toNat + n ≤ u.srcEnd.toNat →
          ∃ v, exec .facadeDecode u = .next v ∧ v.errKind = 0 ∧
            v.dst.readBytes u.dstPos.toNat s.input.length = s.input ∧
            v.dstPos.toNat = u.dstPos.toNat + s.input.length ∧ v.result = t.result) ∧
        ∀ k < n, u.src.readBytes u.srcPos.toNat k = t.dst.readBytes s.dstPos.toNat k →
          u.srcEnd.toNat = u.srcPos.toNat + k →
          ∃ v, exec .facadeDecode u = .next v ∧ v.errKind = ErrKind.formatError.code)

/-! ## The whole machine -/

/-- R12, R15 to R21, R327: a command writes no register but those R12 and R15 to R21 name it for; none writes SRC, the
sizes or the host's side. That SRESET leaves the sizes and the host's side too is the model's reading (log 11); the fields
that hold it, `pending` and `rdata`, are the model's (log 1, log 2). -/
def Obligations.CommandsWriteOnlyTheirRegisters : Prop :=
  ∀ (i : Instr) (s t : State), i.wellFormed = true → exec i s = .next t →
    t.cfg = s.cfg ∧ t.src = s.src ∧ t.pending = s.pending ∧ t.rdata = s.rdata ∧ ∀ r, r ∉ writes i → r.same s t

/-- R21, R327: no command reads DST. On every sink memory it does the same and stores the same bytes at the same places, so
at each address two runs leave the same byte, or each its own old byte. -/
def Obligations.CommandsNeverReadTheSink : Prop :=
  ∀ (i : Instr) (s t : State), exec i s = .next t → ∃ cells : List Host.Cell,
    (∀ m : Memory, exec i { s with dst := m } = .next { t with dst := m.stores cells }) ∧
    ∀ m : Memory, s.dst.wf → m.wf → ∀ a, (m.stores cells).read a = t.dst.read a ∨
      ((m.stores cells).read a = m.read a ∧ t.dst.read a = s.dst.read a)

/-- R34: the invariant holds after reset. -/
def Obligations.ResetMeetsTheInvariant : Prop := State.reset.Inv

/-- R34: every step keeps the invariant. -/
def Obligations.EveryStepKeepsTheInvariant : Prop := ∀ s t : State, s.Inv → step s = .next t → t.Inv

/-- In a state with the invariant, with the host's byte accesses in range (log 8), no step faults or refuses. -/
def Obligations.NoStepStops : Prop := ∀ s : State, s.Inv → s.hostInRange → Safe (step s)

end
end

