-- ==== Sys2Proof/Laws/State.lean ====
section
/-! SUPPORT. One lemma per field for each named update of State, true by rfl or by one case split, tagged @[simp], so that
no proof unfolds a record update. -/

namespace Sys2Proof.Machine

variable (s : State)

/-! ## Taking an exception: only ERR_KIND and ERR_CAUSE change (R280) -/

@[simp] theorem raiseExc_cfg (e : Exc) : (raiseExc e s).cfg = s.cfg := by unfold raiseExc; split <;> rfl
@[simp] theorem raiseExc_bwOpen (e : Exc) : (raiseExc e s).bwOpen = s.bwOpen := by unfold raiseExc; split <;> rfl
@[simp] theorem raiseExc_bwHdr (e : Exc) : (raiseExc e s).bwHdr = s.bwHdr := by unfold raiseExc; split <;> rfl
@[simp] theorem raiseExc_bwCnt (e : Exc) : (raiseExc e s).bwCnt = s.bwCnt := by unfold raiseExc; split <;> rfl
@[simp] theorem raiseExc_bwAcc (e : Exc) : (raiseExc e s).bwAcc = s.bwAcc := by unfold raiseExc; split <;> rfl
@[simp] theorem raiseExc_brOpen (e : Exc) : (raiseExc e s).brOpen = s.brOpen := by unfold raiseExc; split <;> rfl
@[simp] theorem raiseExc_brSize (e : Exc) : (raiseExc e s).brSize = s.brSize := by unfold raiseExc; split <;> rfl
@[simp] theorem raiseExc_brCnt (e : Exc) : (raiseExc e s).brCnt = s.brCnt := by unfold raiseExc; split <;> rfl
@[simp] theorem raiseExc_brCur (e : Exc) : (raiseExc e s).brCur = s.brCur := by unfold raiseExc; split <;> rfl
@[simp] theorem raiseExc_srcPos (e : Exc) : (raiseExc e s).srcPos = s.srcPos := by unfold raiseExc; split <;> rfl
@[simp] theorem raiseExc_srcEnd (e : Exc) : (raiseExc e s).srcEnd = s.srcEnd := by unfold raiseExc; split <;> rfl
@[simp] theorem raiseExc_dstPos (e : Exc) : (raiseExc e s).dstPos = s.dstPos := by unfold raiseExc; split <;> rfl
@[simp] theorem raiseExc_srcEof (e : Exc) : (raiseExc e s).srcEof = s.srcEof := by unfold raiseExc; split <;> rfl
@[simp] theorem raiseExc_node (e : Exc) : (raiseExc e s).node = s.node := by unfold raiseExc; split <;> rfl
@[simp] theorem raiseExc_snode (e : Exc) : (raiseExc e s).snode = s.snode := by unfold raiseExc; split <;> rfl
@[simp] theorem raiseExc_freq (e : Exc) : (raiseExc e s).freq = s.freq := by unfold raiseExc; split <;> rfl
@[simp] theorem raiseExc_present (e : Exc) : (raiseExc e s).present = s.present := by unfold raiseExc; split <;> rfl
@[simp] theorem raiseExc_stk (e : Exc) : (raiseExc e s).stk = s.stk := by unfold raiseExc; split <;> rfl
@[simp] theorem raiseExc_sp (e : Exc) : (raiseExc e s).sp = s.sp := by unfold raiseExc; split <;> rfl
@[simp] theorem raiseExc_pq (e : Exc) : (raiseExc e s).pq = s.pq := by unfold raiseExc; split <;> rfl
@[simp] theorem raiseExc_warg (e : Exc) : (raiseExc e s).warg = s.warg := by unfold raiseExc; split <;> rfl
@[simp] theorem raiseExc_result (e : Exc) : (raiseExc e s).result = s.result := by unfold raiseExc; split <;> rfl
@[simp] theorem raiseExc_src (e : Exc) : (raiseExc e s).src = s.src := by unfold raiseExc; split <;> rfl
@[simp] theorem raiseExc_dst (e : Exc) : (raiseExc e s).dst = s.dst := by unfold raiseExc; split <;> rfl
@[simp] theorem raiseExc_pending (e : Exc) : (raiseExc e s).pending = s.pending := by unfold raiseExc; split <;> rfl
@[simp] theorem raiseExc_rdata (e : Exc) : (raiseExc e s).rdata = s.rdata := by unfold raiseExc; split <;> rfl

/-- With none recorded, the exception is recorded (R280). -/
theorem raiseExc_of_none {s : State} (e : Exc) (h : s.errKind = 0) :
    raiseExc e s = { s with errKind := e.kind.code, errCause := e.cause.code } := if_pos h

/-- The first exception wins (R281). -/
theorem raiseExc_of_some {s : State} (e : Exc) (h : s.errKind ≠ 0) : raiseExc e s = s := if_neg h

/-! ## Clearing the exception record (R251) -/

@[simp] theorem clearExc_cfg : (clearExc s).cfg = s.cfg := rfl
@[simp] theorem clearExc_bwOpen : (clearExc s).bwOpen = s.bwOpen := rfl
@[simp] theorem clearExc_bwHdr : (clearExc s).bwHdr = s.bwHdr := rfl
@[simp] theorem clearExc_bwCnt : (clearExc s).bwCnt = s.bwCnt := rfl
@[simp] theorem clearExc_bwAcc : (clearExc s).bwAcc = s.bwAcc := rfl
@[simp] theorem clearExc_brOpen : (clearExc s).brOpen = s.brOpen := rfl
@[simp] theorem clearExc_brSize : (clearExc s).brSize = s.brSize := rfl
@[simp] theorem clearExc_brCnt : (clearExc s).brCnt = s.brCnt := rfl
@[simp] theorem clearExc_brCur : (clearExc s).brCur = s.brCur := rfl
@[simp] theorem clearExc_srcPos : (clearExc s).srcPos = s.srcPos := rfl
@[simp] theorem clearExc_srcEnd : (clearExc s).srcEnd = s.srcEnd := rfl
@[simp] theorem clearExc_dstPos : (clearExc s).dstPos = s.dstPos := rfl
@[simp] theorem clearExc_srcEof : (clearExc s).srcEof = s.srcEof := rfl
@[simp] theorem clearExc_node : (clearExc s).node = s.node := rfl
@[simp] theorem clearExc_snode : (clearExc s).snode = s.snode := rfl
@[simp] theorem clearExc_freq : (clearExc s).freq = s.freq := rfl
@[simp] theorem clearExc_present : (clearExc s).present = s.present := rfl
@[simp] theorem clearExc_stk : (clearExc s).stk = s.stk := rfl
@[simp] theorem clearExc_sp : (clearExc s).sp = s.sp := rfl
@[simp] theorem clearExc_pq : (clearExc s).pq = s.pq := rfl
@[simp] theorem clearExc_warg : (clearExc s).warg = s.warg := rfl
@[simp] theorem clearExc_result : (clearExc s).result = s.result := rfl
@[simp] theorem clearExc_errKind : (clearExc s).errKind = 0 := rfl
@[simp] theorem clearExc_errCause : (clearExc s).errCause = 0 := rfl
@[simp] theorem clearExc_src : (clearExc s).src = s.src := rfl
@[simp] theorem clearExc_dst : (clearExc s).dst = s.dst := rfl
@[simp] theorem clearExc_pending : (clearExc s).pending = s.pending := rfl
@[simp] theorem clearExc_rdata : (clearExc s).rdata = s.rdata := rfl

/-! ## An entry of the frequency mapping -/

@[simp] theorem setSym_cfg (v : Byte) (w : Word) : (s.setSym v w).cfg = s.cfg := rfl
@[simp] theorem setSym_bwOpen (v : Byte) (w : Word) : (s.setSym v w).bwOpen = s.bwOpen := rfl
@[simp] theorem setSym_bwHdr (v : Byte) (w : Word) : (s.setSym v w).bwHdr = s.bwHdr := rfl
@[simp] theorem setSym_bwCnt (v : Byte) (w : Word) : (s.setSym v w).bwCnt = s.bwCnt := rfl
@[simp] theorem setSym_bwAcc (v : Byte) (w : Word) : (s.setSym v w).bwAcc = s.bwAcc := rfl
@[simp] theorem setSym_brOpen (v : Byte) (w : Word) : (s.setSym v w).brOpen = s.brOpen := rfl
@[simp] theorem setSym_brSize (v : Byte) (w : Word) : (s.setSym v w).brSize = s.brSize := rfl
@[simp] theorem setSym_brCnt (v : Byte) (w : Word) : (s.setSym v w).brCnt = s.brCnt := rfl
@[simp] theorem setSym_brCur (v : Byte) (w : Word) : (s.setSym v w).brCur = s.brCur := rfl
@[simp] theorem setSym_srcPos (v : Byte) (w : Word) : (s.setSym v w).srcPos = s.srcPos := rfl
@[simp] theorem setSym_srcEnd (v : Byte) (w : Word) : (s.setSym v w).srcEnd = s.srcEnd := rfl
@[simp] theorem setSym_dstPos (v : Byte) (w : Word) : (s.setSym v w).dstPos = s.dstPos := rfl
@[simp] theorem setSym_srcEof (v : Byte) (w : Word) : (s.setSym v w).srcEof = s.srcEof := rfl
@[simp] theorem setSym_node (v : Byte) (w : Word) : (s.setSym v w).node = s.node := rfl
@[simp] theorem setSym_snode (v : Byte) (w : Word) : (s.setSym v w).snode = s.snode := rfl
@[simp] theorem setSym_stk (v : Byte) (w : Word) : (s.setSym v w).stk = s.stk := rfl
@[simp] theorem setSym_sp (v : Byte) (w : Word) : (s.setSym v w).sp = s.sp := rfl
@[simp] theorem setSym_pq (v : Byte) (w : Word) : (s.setSym v w).pq = s.pq := rfl
@[simp] theorem setSym_warg (v : Byte) (w : Word) : (s.setSym v w).warg = s.warg := rfl
@[simp] theorem setSym_result (v : Byte) (w : Word) : (s.setSym v w).result = s.result := rfl
@[simp] theorem setSym_errKind (v : Byte) (w : Word) : (s.setSym v w).errKind = s.errKind := rfl
@[simp] theorem setSym_errCause (v : Byte) (w : Word) : (s.setSym v w).errCause = s.errCause := rfl
@[simp] theorem setSym_src (v : Byte) (w : Word) : (s.setSym v w).src = s.src := rfl
@[simp] theorem setSym_dst (v : Byte) (w : Word) : (s.setSym v w).dst = s.dst := rfl
@[simp] theorem setSym_pending (v : Byte) (w : Word) : (s.setSym v w).pending = s.pending := rfl
@[simp] theorem setSym_rdata (v : Byte) (w : Word) : (s.setSym v w).rdata = s.rdata := rfl

/-! ## The empty mapping -/

@[simp] theorem clearSyms_cfg : (s.clearSyms).cfg = s.cfg := rfl
@[simp] theorem clearSyms_bwOpen : (s.clearSyms).bwOpen = s.bwOpen := rfl
@[simp] theorem clearSyms_bwHdr : (s.clearSyms).bwHdr = s.bwHdr := rfl
@[simp] theorem clearSyms_bwCnt : (s.clearSyms).bwCnt = s.bwCnt := rfl
@[simp] theorem clearSyms_bwAcc : (s.clearSyms).bwAcc = s.bwAcc := rfl
@[simp] theorem clearSyms_brOpen : (s.clearSyms).brOpen = s.brOpen := rfl
@[simp] theorem clearSyms_brSize : (s.clearSyms).brSize = s.brSize := rfl
@[simp] theorem clearSyms_brCnt : (s.clearSyms).brCnt = s.brCnt := rfl
@[simp] theorem clearSyms_brCur : (s.clearSyms).brCur = s.brCur := rfl
@[simp] theorem clearSyms_srcPos : (s.clearSyms).srcPos = s.srcPos := rfl
@[simp] theorem clearSyms_srcEnd : (s.clearSyms).srcEnd = s.srcEnd := rfl
@[simp] theorem clearSyms_dstPos : (s.clearSyms).dstPos = s.dstPos := rfl
@[simp] theorem clearSyms_srcEof : (s.clearSyms).srcEof = s.srcEof := rfl
@[simp] theorem clearSyms_node : (s.clearSyms).node = s.node := rfl
@[simp] theorem clearSyms_snode : (s.clearSyms).snode = s.snode := rfl
@[simp] theorem clearSyms_freq : (s.clearSyms).freq = Vector.replicate 256 0 := rfl
@[simp] theorem clearSyms_present : (s.clearSyms).present = Vector.replicate 256 false := rfl
@[simp] theorem clearSyms_stk : (s.clearSyms).stk = s.stk := rfl
@[simp] theorem clearSyms_sp : (s.clearSyms).sp = s.sp := rfl
@[simp] theorem clearSyms_pq : (s.clearSyms).pq = s.pq := rfl
@[simp] theorem clearSyms_warg : (s.clearSyms).warg = s.warg := rfl
@[simp] theorem clearSyms_result : (s.clearSyms).result = s.result := rfl
@[simp] theorem clearSyms_errKind : (s.clearSyms).errKind = s.errKind := rfl
@[simp] theorem clearSyms_errCause : (s.clearSyms).errCause = s.errCause := rfl
@[simp] theorem clearSyms_src : (s.clearSyms).src = s.src := rfl
@[simp] theorem clearSyms_dst : (s.clearSyms).dst = s.dst := rfl
@[simp] theorem clearSyms_pending : (s.clearSyms).pending = s.pending := rfl
@[simp] theorem clearSyms_rdata : (s.clearSyms).rdata = s.rdata := rfl

/-! ## A push on the side-bit stack -/

@[simp] theorem pushSide_cfg (b : Bool) : (pushSide b s).cfg = s.cfg := rfl
@[simp] theorem pushSide_bwOpen (b : Bool) : (pushSide b s).bwOpen = s.bwOpen := rfl
@[simp] theorem pushSide_bwHdr (b : Bool) : (pushSide b s).bwHdr = s.bwHdr := rfl
@[simp] theorem pushSide_bwCnt (b : Bool) : (pushSide b s).bwCnt = s.bwCnt := rfl
@[simp] theorem pushSide_bwAcc (b : Bool) : (pushSide b s).bwAcc = s.bwAcc := rfl
@[simp] theorem pushSide_brOpen (b : Bool) : (pushSide b s).brOpen = s.brOpen := rfl
@[simp] theorem pushSide_brSize (b : Bool) : (pushSide b s).brSize = s.brSize := rfl
@[simp] theorem pushSide_brCnt (b : Bool) : (pushSide b s).brCnt = s.brCnt := rfl
@[simp] theorem pushSide_brCur (b : Bool) : (pushSide b s).brCur = s.brCur := rfl
@[simp] theorem pushSide_srcPos (b : Bool) : (pushSide b s).srcPos = s.srcPos := rfl
@[simp] theorem pushSide_srcEnd (b : Bool) : (pushSide b s).srcEnd = s.srcEnd := rfl
@[simp] theorem pushSide_dstPos (b : Bool) : (pushSide b s).dstPos = s.dstPos := rfl
@[simp] theorem pushSide_srcEof (b : Bool) : (pushSide b s).srcEof = s.srcEof := rfl
@[simp] theorem pushSide_node (b : Bool) : (pushSide b s).node = s.node := rfl
@[simp] theorem pushSide_snode (b : Bool) : (pushSide b s).snode = s.snode := rfl
@[simp] theorem pushSide_freq (b : Bool) : (pushSide b s).freq = s.freq := rfl
@[simp] theorem pushSide_present (b : Bool) : (pushSide b s).present = s.present := rfl
@[simp] theorem pushSide_stk (b : Bool) : (pushSide b s).stk = s.stk.setIfInBounds s.sp b := rfl
@[simp] theorem pushSide_sp (b : Bool) : (pushSide b s).sp = s.sp + 1 := rfl
@[simp] theorem pushSide_pq (b : Bool) : (pushSide b s).pq = s.pq := rfl
@[simp] theorem pushSide_warg (b : Bool) : (pushSide b s).warg = s.warg := rfl
@[simp] theorem pushSide_result (b : Bool) : (pushSide b s).result = s.result := rfl
@[simp] theorem pushSide_errKind (b : Bool) : (pushSide b s).errKind = s.errKind := rfl
@[simp] theorem pushSide_errCause (b : Bool) : (pushSide b s).errCause = s.errCause := rfl
@[simp] theorem pushSide_src (b : Bool) : (pushSide b s).src = s.src := rfl
@[simp] theorem pushSide_dst (b : Bool) : (pushSide b s).dst = s.dst := rfl
@[simp] theorem pushSide_pending (b : Bool) : (pushSide b s).pending = s.pending := rfl
@[simp] theorem pushSide_rdata (b : Bool) : (pushSide b s).rdata = s.rdata := rfl

/-! ## A leaf added while building -/

@[simp] theorem addLeaf_cfg (v : Byte) : (addLeaf s v).cfg = s.cfg := rfl
@[simp] theorem addLeaf_bwOpen (v : Byte) : (addLeaf s v).bwOpen = s.bwOpen := rfl
@[simp] theorem addLeaf_bwHdr (v : Byte) : (addLeaf s v).bwHdr = s.bwHdr := rfl
@[simp] theorem addLeaf_bwCnt (v : Byte) : (addLeaf s v).bwCnt = s.bwCnt := rfl
@[simp] theorem addLeaf_bwAcc (v : Byte) : (addLeaf s v).bwAcc = s.bwAcc := rfl
@[simp] theorem addLeaf_brOpen (v : Byte) : (addLeaf s v).brOpen = s.brOpen := rfl
@[simp] theorem addLeaf_brSize (v : Byte) : (addLeaf s v).brSize = s.brSize := rfl
@[simp] theorem addLeaf_brCnt (v : Byte) : (addLeaf s v).brCnt = s.brCnt := rfl
@[simp] theorem addLeaf_brCur (v : Byte) : (addLeaf s v).brCur = s.brCur := rfl
@[simp] theorem addLeaf_srcPos (v : Byte) : (addLeaf s v).srcPos = s.srcPos := rfl
@[simp] theorem addLeaf_srcEnd (v : Byte) : (addLeaf s v).srcEnd = s.srcEnd := rfl
@[simp] theorem addLeaf_dstPos (v : Byte) : (addLeaf s v).dstPos = s.dstPos := rfl
@[simp] theorem addLeaf_srcEof (v : Byte) : (addLeaf s v).srcEof = s.srcEof := rfl
@[simp] theorem addLeaf_node (v : Byte) : (addLeaf s v).node = s.node ++ [leafNode v] := rfl
@[simp] theorem addLeaf_snode (v : Byte) : (addLeaf s v).snode = s.snode := rfl
@[simp] theorem addLeaf_freq (v : Byte) : (addLeaf s v).freq = s.freq := rfl
@[simp] theorem addLeaf_present (v : Byte) : (addLeaf s v).present = s.present := rfl
@[simp] theorem addLeaf_stk (v : Byte) : (addLeaf s v).stk = s.stk := rfl
@[simp] theorem addLeaf_sp (v : Byte) : (addLeaf s v).sp = s.sp := rfl
@[simp] theorem addLeaf_pq (v : Byte) : (addLeaf s v).pq = pqInsert { weight := (s.freqOf v).setWidth 40, idx := BitVec.ofNat 16 s.node.length } s.pq := rfl
@[simp] theorem addLeaf_warg (v : Byte) : (addLeaf s v).warg = s.warg := rfl
@[simp] theorem addLeaf_result (v : Byte) : (addLeaf s v).result = s.result := rfl
@[simp] theorem addLeaf_errKind (v : Byte) : (addLeaf s v).errKind = s.errKind := rfl
@[simp] theorem addLeaf_errCause (v : Byte) : (addLeaf s v).errCause = s.errCause := rfl
@[simp] theorem addLeaf_src (v : Byte) : (addLeaf s v).src = s.src := rfl
@[simp] theorem addLeaf_dst (v : Byte) : (addLeaf s v).dst = s.dst := rfl
@[simp] theorem addLeaf_pending (v : Byte) : (addLeaf s v).pending = s.pending := rfl
@[simp] theorem addLeaf_rdata (v : Byte) : (addLeaf s v).rdata = s.rdata := rfl

/-! ## Reset: what it leaves alone, the rest as `State.reset` has it (R252, R310) -/

@[simp] theorem resetState_cfg : (resetState s).cfg = s.cfg := rfl
@[simp] theorem resetState_bwOpen : (resetState s).bwOpen = State.reset.bwOpen := rfl
@[simp] theorem resetState_bwHdr : (resetState s).bwHdr = State.reset.bwHdr := rfl
@[simp] theorem resetState_bwCnt : (resetState s).bwCnt = State.reset.bwCnt := rfl
@[simp] theorem resetState_bwAcc : (resetState s).bwAcc = State.reset.bwAcc := rfl
@[simp] theorem resetState_brOpen : (resetState s).brOpen = State.reset.brOpen := rfl
@[simp] theorem resetState_brSize : (resetState s).brSize = State.reset.brSize := rfl
@[simp] theorem resetState_brCnt : (resetState s).brCnt = State.reset.brCnt := rfl
@[simp] theorem resetState_brCur : (resetState s).brCur = State.reset.brCur := rfl
@[simp] theorem resetState_srcPos : (resetState s).srcPos = State.reset.srcPos := rfl
@[simp] theorem resetState_srcEnd : (resetState s).srcEnd = State.reset.srcEnd := rfl
@[simp] theorem resetState_dstPos : (resetState s).dstPos = State.reset.dstPos := rfl
@[simp] theorem resetState_srcEof : (resetState s).srcEof = State.reset.srcEof := rfl
@[simp] theorem resetState_node : (resetState s).node = State.reset.node := rfl
@[simp] theorem resetState_snode : (resetState s).snode = State.reset.snode := rfl
@[simp] theorem resetState_freq : (resetState s).freq = State.reset.freq := rfl
@[simp] theorem resetState_present : (resetState s).present = State.reset.present := rfl
@[simp] theorem resetState_stk : (resetState s).stk = State.reset.stk := rfl
@[simp] theorem resetState_sp : (resetState s).sp = State.reset.sp := rfl
@[simp] theorem resetState_pq : (resetState s).pq = State.reset.pq := rfl
@[simp] theorem resetState_warg : (resetState s).warg = State.reset.warg := rfl
@[simp] theorem resetState_result : (resetState s).result = State.reset.result := rfl
@[simp] theorem resetState_errKind : (resetState s).errKind = State.reset.errKind := rfl
@[simp] theorem resetState_errCause : (resetState s).errCause = State.reset.errCause := rfl
@[simp] theorem resetState_src : (resetState s).src = s.src := rfl
@[simp] theorem resetState_dst : (resetState s).dst = s.dst := rfl
@[simp] theorem resetState_pending : (resetState s).pending = s.pending := rfl
@[simp] theorem resetState_rdata : (resetState s).rdata = s.rdata := rfl

end Sys2Proof.Machine
end

