-- ==== Sys2Proof/Laws/Ops.lean ====
section
/-! SUPPORT. What the shared operations of Machine/Ops.lean do: memory read after write and canonical form, little-endian
integers, the outcomes of an operation, the source primitives, the sink primitives. -/

namespace Sys2Proof.Machine

/-! ## Memory -/

theorem Memory.read_eq_unlisted {m : Memory} {a : Nat} (h : ∀ c ∈ m, c.1 ≠ a) : m.read a = unlistedByte := by
  induction m with
  | nil => rfl
  | cons c m ih =>
    obtain ⟨k, v⟩ := c
    have hk : k ≠ a := h (k, v) (by simp)
    simp only [Memory.read, hk, if_false]
    exact ih fun c hc => h c (by simp [hc])

theorem Memory.read_of_mem {m : Memory} (hm : m.wf) {a : Nat} {b : Byte} (h : (a, b) ∈ m) : m.read a = b := by
  induction m with
  | nil => simp at h
  | cons c m ih =>
    obtain ⟨k, v⟩ := c
    obtain ⟨hp, hv⟩ := hm
    rw [List.pairwise_cons] at hp
    rcases List.mem_cons.1 h with h | h
    · cases h; simp [Memory.read]
    · have : k < a := hp.1 _ h
      simp only [Memory.read, Nat.ne_of_lt this, if_false]
      exact ih ⟨hp.2, fun c hc => hv c (by simp [hc])⟩ h

/-- Every entry of a written memory is an old entry or the written one. -/
theorem Memory.mem_write {m : Memory} {a : Nat} {b : Byte} {c : Host.Cell} (h : c ∈ m.write a b) :
    c ∈ m ∨ (c = (a, b) ∧ b ≠ unlistedByte) := by
  induction m with
  | nil =>
    unfold Memory.write at h
    split at h <;> simp_all
  | cons d m ih =>
    obtain ⟨k, v⟩ := d
    unfold Memory.write at h
    split at h
    · split at h <;> (simp_all; try tauto)
    · split at h
      · split at h <;> (simp_all; try tauto)
      · rcases List.mem_cons.1 h with h | h
        · simp [h]
        · rcases ih h with h | h <;> simp_all

theorem Memory.read_write_self (m : Memory) (hm : m.wf) (a : Nat) (b : Byte) : (m.write a b).read a = b := by
  induction m with
  | nil => unfold Memory.write; split <;> simp_all [Memory.read]
  | cons d m ih =>
    obtain ⟨k, v⟩ := d
    obtain ⟨hp, hv⟩ := hm
    rw [List.pairwise_cons] at hp
    have hgt : ∀ c ∈ m, k < c.1 := fun c hc => hp.1 c hc
    unfold Memory.write
    split
    · split
      · subst_vars
        have : ∀ c ∈ ((k, v) :: m : Memory), c.1 ≠ a := by
          intro c hc
          rcases List.mem_cons.1 hc with rfl | hc
          · simp; omega
          · have := hgt c hc; omega
        rw [Memory.read_eq_unlisted this]
      · simp [Memory.read]
    · split
      · split
        · subst_vars
          rw [Memory.read_eq_unlisted fun c hc => by have := hgt c hc; omega]
        · simp [Memory.read]
      · simp only [Memory.read, show k ≠ a by omega, if_false]
        exact ih ⟨hp.2, fun c hc => hv c (by simp [hc])⟩

theorem Memory.read_write_ne (m : Memory) {a x : Nat} (b : Byte) (h : x ≠ a) : (m.write a b).read x = m.read x := by
  induction m with
  | nil => unfold Memory.write; split <;> simp [Memory.read, Ne.symm h]
  | cons d m ih =>
    obtain ⟨k, v⟩ := d
    unfold Memory.write
    split
    · split <;> simp [Memory.read, Ne.symm h]
    · split
      · subst_vars
        split <;> simp [Memory.read, Ne.symm h]
      · simp only [Memory.read, ih]

/-- Read after write. -/
theorem Memory.read_write (m : Memory) (hm : m.wf) (a x : Nat) (b : Byte) :
    (m.write a b).read x = if x = a then b else m.read x := by
  split
  · next h => subst h; exact Memory.read_write_self m hm _ b
  · next h => exact Memory.read_write_ne m b h

/-- A write keeps the canonical form. -/
theorem Memory.wf_write {m : Memory} (hm : m.wf) (a : Nat) (b : Byte) : (m.write a b).wf := by
  refine ⟨?_, fun c hc => ?_⟩
  · induction m with
    | nil => unfold Memory.write; split <;> simp
    | cons d m ih =>
      obtain ⟨k, v⟩ := d
      obtain ⟨hp, hv⟩ := hm
      have hp' := hp
      rw [List.pairwise_cons] at hp
      unfold Memory.write
      split
      · split
        · exact hp'
        · next hlt _ =>
          rw [List.pairwise_cons]
          refine ⟨fun c hc => ?_, hp'⟩
          rcases List.mem_cons.1 hc with rfl | hc
          · exact hlt
          · exact Nat.lt_trans hlt (hp.1 c hc)
      · split
        · subst_vars
          split
          · exact hp.2
          · rw [List.pairwise_cons]
            exact ⟨fun c hc => hp.1 c hc, hp.2⟩
        · rw [List.pairwise_cons]
          refine ⟨fun c hc => ?_, ih ⟨hp.2, fun c hc => hv c (by simp [hc])⟩⟩
          rcases Memory.mem_write hc with hc | ⟨rfl, -⟩
          · exact hp.1 c hc
          · show k < a; omega
  · rcases Memory.mem_write hc with hc | ⟨rfl, hb⟩
    · exact hm.2 c hc
    · exact hb

/-- A write to a byte that exists lists only bytes that exist. -/
theorem Memory.within_write {m : Memory} {size : Word} (hm : m.within size) {a : Nat} (ha : a < size.toNat) (b : Byte) :
    (m.write a b).within size := fun c hc => by
  rcases Memory.mem_write hc with hc | ⟨rfl, -⟩
  · exact hm c hc
  · exact ha

theorem Memory.wf_nil : Memory.wf [] := by simp [Memory.wf]

theorem Memory.wf_writeBytes {m : Memory} (hm : m.wf) (a : Nat) (bs : List Byte) : (m.writeBytes a bs).wf := by
  induction bs generalizing m a with
  | nil => exact hm
  | cons b bs ih => exact ih (Memory.wf_write hm a b) (a + 1)

theorem Memory.within_writeBytes {m : Memory} {size : Word} (hm : m.within size) {a : Nat} {bs : List Byte}
    (ha : a + bs.length ≤ size.toNat) : (m.writeBytes a bs).within size := by
  induction bs generalizing m a with
  | nil => exact hm
  | cons b bs ih =>
    simp only [List.length_cons] at ha
    exact ih (Memory.within_write hm (by omega) b) (by omega)

/-- A write of bytes leaves every byte outside them alone. -/
theorem Memory.read_writeBytes_out (m : Memory) {a x : Nat} {bs : List Byte} (h : x < a ∨ a + bs.length ≤ x) :
    (m.writeBytes a bs).read x = m.read x := by
  induction bs generalizing m a with
  | nil => rfl
  | cons b bs ih =>
    simp only [List.length_cons] at h
    rw [Memory.writeBytes, ih _ (by omega), Memory.read_write_ne _ _ (by omega)]

/-- Read after a write of bytes. -/
theorem Memory.read_writeBytes (m : Memory) (hm : m.wf) (a x : Nat) (bs : List Byte) :
    (m.writeBytes a bs).read x = if a ≤ x then bs[x - a]?.getD (m.read x) else m.read x := by
  induction bs generalizing m a with
  | nil => simp [Memory.writeBytes]
  | cons b bs ih =>
    rw [Memory.writeBytes, ih _ (Memory.wf_write hm a b), Memory.read_write m hm]
    rcases Nat.lt_trichotomy x a with h | h | h
    · simp [show ¬ a + 1 ≤ x by omega, show ¬ a ≤ x by omega, show x ≠ a by omega]
    · subst h; simp
    · have : x - a = (x - (a + 1)) + 1 := by omega
      simp [show a + 1 ≤ x by omega, show a ≤ x by omega, show x ≠ a by omega, this]

/-- A stored block, by its bytes, and what is around it. -/
theorem Memory.read_writeBytes_block (m : Memory) (hm : m.wf) (a x : Nat) (bs : List Byte) :
    (m.writeBytes a bs).read x = if a ≤ x ∧ x < a + bs.length then bs[x - a]?.getD 0 else m.read x := by
  rw [Memory.read_writeBytes _ hm]
  by_cases h1 : a ≤ x
  · by_cases h2 : x < a + bs.length
    · have h3 : x - a < bs.length := by omega
      rw [if_pos h1, if_pos ⟨h1, h2⟩, List.getElem?_eq_getElem h3]
      rfl
    · rw [if_pos h1, if_neg (by omega), List.getElem?_eq_none (by omega)]
      rfl
  · rw [if_neg h1, if_neg (by omega)]

/-- Equal canonical memories are those that read the same everywhere. -/
theorem Memory.ext {m n : Memory} (hm : m.wf) (hn : n.wf) (h : ∀ a, m.read a = n.read a) : m = n := by
  have key : ∀ {m n : Memory}, m.wf → n.wf → (∀ a, m.read a = n.read a) → ∀ c ∈ m, c ∈ n := by
    intro m n hm hn h c hc
    by_contra hcn
    have h1 : m.read c.1 = c.2 := Memory.read_of_mem hm hc
    by_cases hex : ∃ d ∈ n, d.1 = c.1
    · obtain ⟨d, hd, hdc⟩ := hex
      have h2 : n.read d.1 = d.2 := Memory.read_of_mem hn hd
      have : d = c := Prod.ext hdc (by rw [← h2, hdc, ← h, h1])
      exact hcn (this ▸ hd)
    · have h2 : n.read c.1 = unlistedByte := Memory.read_eq_unlisted fun d hd hdc => hex ⟨d, hd, hdc⟩
      exact hm.2 c hc (by rw [← h1, h, h2])
  have nodup : ∀ {m : Memory}, m.wf → m.Nodup := fun hm =>
    hm.1.imp fun {c d} hlt heq => by subst heq; exact Nat.lt_irrefl _ hlt
  have hperm : m.Perm n := (List.perm_ext_iff_of_nodup (nodup hm) (nodup hn)).2 fun c =>
    ⟨key hm hn h c, key hn hm (fun a => (h a).symm) c⟩
  exact hperm.eq_of_pairwise (fun a b _ _ hab hba => absurd hab (by omega)) hm.1 hn.1

@[simp] theorem Memory.readBytes_length (m : Memory) (a n : Nat) : (m.readBytes a n).length = n := by
  simp [Memory.readBytes]

theorem Memory.readBytes_succ (m : Memory) (a n : Nat) :
    m.readBytes a (n + 1) = m.read a :: m.readBytes (a + 1) n := by
  simp only [Memory.readBytes, List.range_succ_eq_map, List.map_cons, List.map_map, Nat.add_zero]
  refine congrArg _ (List.map_congr_left fun j _ => ?_)
  simp [Nat.add_comm, Nat.add_left_comm]

theorem Memory.readBytes_getElem? (m : Memory) (a n j : Nat) :
    (m.readBytes a n)[j]? = if j < n then some (m.read (a + j)) else none := by
  by_cases h : j < n <;> simp [Memory.readBytes, h]

theorem Memory.readBytes_congr {m m' : Memory} {a n : Nat} (h : ∀ j < n, m.read (a + j) = m'.read (a + j)) :
    m.readBytes a n = m'.readBytes a n :=
  List.map_congr_left fun j hj => h j (by simpa using hj)

/-- What was written is read back. -/
theorem Memory.readBytes_writeBytes (m : Memory) (hm : m.wf) (a : Nat) (bs : List Byte) :
    (m.writeBytes a bs).readBytes a bs.length = bs := by
  apply List.ext_getElem?
  intro j
  rw [Memory.readBytes_getElem?]
  by_cases h : j < bs.length
  · simp [h, Memory.read_writeBytes m hm]
  · simp [h]

theorem Memory.writeBytes_append (m : Memory) (a : Nat) (bs cs : List Byte) :
    m.writeBytes a (bs ++ cs) = (m.writeBytes a bs).writeBytes (a + bs.length) cs := by
  induction bs generalizing m a with
  | nil => simp [Memory.writeBytes]
  | cons b bs ih => simp [Memory.writeBytes, ih, Nat.add_assoc, Nat.add_comm 1]

/-! ## Little-endian integers -/

@[simp] theorem leBytes_length (n v : Nat) : (leBytes n v).length = n := by
  induction n generalizing v with
  | zero => rfl
  | succ n ih => simp [leBytes, ih]

theorem memRead_lt (m : Memory) (a n : Nat) : memRead m a n < 256 ^ n := by
  induction n generalizing a with
  | zero => simp [memRead]
  | succ n ih =>
    have h1 := (m.read a).isLt
    have h2 := ih (a + 1)
    simp only [memRead, Nat.pow_succ]
    omega

/-- `MemRead` depends on its bytes alone. -/
theorem memRead_eq_of_readBytes {m : Memory} {a n v : Nat} (h : m.readBytes a n = leBytes n v) (hv : v < 256 ^ n) :
    memRead m a n = v := by
  induction n generalizing a v with
  | zero => simp [memRead] at *; omega
  | succ n ih =>
    rw [Memory.readBytes_succ, leBytes, List.cons.injEq] at h
    rw [memRead, ih h.2 (by rw [Nat.pow_succ] at hv; omega), h.1]
    simp
    omega

theorem memRead_congr {m m' : Memory} {a a' n : Nat} (h : m.readBytes a n = m'.readBytes a' n) :
    memRead m a n = memRead m' a' n := by
  induction n generalizing a a' with
  | zero => rfl
  | succ n ih =>
    rw [Memory.readBytes_succ, Memory.readBytes_succ, List.cons.injEq] at h
    rw [memRead, memRead, h.1, ih h.2]

/-- The bytes of a field are what its little-endian integer says. -/
theorem readBytes_eq_leBytes (m : Memory) (a n : Nat) : m.readBytes a n = leBytes n (memRead m a n) := by
  induction n generalizing a with
  | zero => simp [Memory.readBytes, leBytes]
  | succ n ih =>
    rw [Memory.readBytes_succ, memRead, leBytes, ih (a + 1)]
    have h := (m.read a).isLt
    congr 1
    · apply BitVec.eq_of_toNat_eq
      rw [BitVec.toNat_ofNat]
      omega
    · congr 1; omega

theorem ceil8_le (n : Nat) : ceil8 n ≤ n / 8 + 1 := by unfold ceil8; omega

/-! ## Outcomes of an operation -/

@[simp] theorem Eff.andThen_done {α β : Type} (a : α) (s : State) (f : α → State → Eff β) :
    (Eff.done a s).andThen f = f a s := rfl

@[simp] theorem Eff.andThen_raised {α β : Type} (e : Exc) (s : State) (f : α → State → Eff β) :
    (Eff.raised e s).andThen f = .raised e s := rfl

@[simp] theorem Eff.andThen_stop {α β : Type} (x : Fault) (f : α → State → Eff β) :
    (Eff.stop x : Eff α).andThen f = .stop x := rfl

@[simp] theorem Eff.finish_done {α : Type} (a : α) (s : State) : (Eff.done a s).finish = .next s := rfl

@[simp] theorem Eff.finish_raised {α : Type} (e : Exc) (s : State) :
    (Eff.raised e s : Eff α).finish = .next (raiseExc e s) := rfl

@[simp] theorem Eff.finish_stop {α : Type} (x : Fault) : (Eff.stop x : Eff α).finish = .fault x := rfl

/-- The operation ends in a state with P, an exception it raises is in the list, and it does not stop at a byte that does
not exist. -/
def Eff.Keeps {α : Type} (P : State → Prop) (es : List Exc) : Eff α → Prop
  | .done _ s => P s
  | .raised e s => e ∈ es ∧ P s
  | .stop _ => False

theorem Eff.Keeps.mono {α : Type} {P Q : State → Prop} {es fs : List Exc} {r : Eff α} (hr : r.Keeps P es)
    (h : es ⊆ fs) (hPQ : ∀ s, P s → Q s) : r.Keeps Q fs := by
  cases r with
  | done a s => exact hPQ s hr
  | raised e s => exact ⟨h hr.1, hPQ s hr.2⟩
  | stop x => exact hr

theorem Eff.Keeps.andThen {α β : Type} {P Q : State → Prop} {es fs : List Exc} {r : Eff α} {f : α → State → Eff β}
    (hr : r.Keeps P es) (h : es ⊆ fs) (hPQ : ∀ s, P s → Q s) (hf : ∀ a s, P s → (f a s).Keeps Q fs) :
    (r.andThen f).Keeps Q fs := by
  cases r with
  | done a s => exact hf a s hr
  | raised e s => exact ⟨h hr.1, hPQ s hr.2⟩
  | stop x => exact hr

theorem Eff.finish_next {α : Type} {r : Eff α} {t : State} (h : r.finish = .next t) :
    (∃ a, r = .done a t) ∨ ∃ e s, r = .raised e s ∧ t = raiseExc e s := by
  cases r with
  | done a s => simp at h; exact .inl ⟨a, by rw [h]⟩
  | raised e s => simp at h; exact .inr ⟨e, s, rfl, h.symm⟩
  | stop x => simp at h

/-- A command over such an operation goes on, in a state with P or in one with P after a recorded raise (R280). -/
theorem Eff.Keeps.finish {α : Type} {P : State → Prop} {es : List Exc} {r : Eff α} (hr : r.Keeps P es) :
    ∃ t, r.finish = .next t ∧ (P t ∨ ∃ e ∈ es, ∃ s, P s ∧ t = raiseExc e s) := by
  cases r with
  | done a s => exact ⟨s, rfl, .inl hr⟩
  | raised e s => exact ⟨_, rfl, .inr ⟨e, hr.1, s, hr.2, rfl⟩⟩
  | stop x => exact absurd hr id

/-! ## The source -/

theorem srcAvail_eq (s : State) : srcAvail s = s.srcEnd.toNat - s.srcPos.toNat := by unfold srcAvail; split <;> omega

/-- `SrcNext` at the end of the source. -/
theorem srcNext_eof {s : State} (h : srcAvail s = 0) : srcNext s = .done none { s with srcEof := true } := by
  simp [srcNext, h]

theorem srcPos_succ {s : State} (h : srcAvail s ≠ 0) : (s.srcPos + 1).toNat = s.srcPos.toNat + 1 := by
  rw [srcAvail_eq] at h
  have := s.srcEnd.isLt
  rw [BitVec.toNat_add]; simp; omega

/-- `SrcNext` with a byte there. -/
theorem srcNext_byte {s : State} (h : srcAvail s ≠ 0) (hs : s.srcEnd.toNat ≤ s.cfg.srcSize.toNat) :
    srcNext s = .done (some (s.src.read s.srcPos.toNat)) { s with srcPos := s.srcPos + 1 } := by
  have h' := h
  rw [srcAvail_eq] at h'
  simp [srcNext, h, srcHas, show s.srcPos.toNat + 1 ≤ s.cfg.srcSize.toNat by omega]

/-- `SrcField` with fewer than n bytes there. -/
theorem srcField_eof {s : State} {n : Nat} (h : srcAvail s < n) : srcField n s = .done none { s with srcEof := true } := by
  simp [srcField, h]

/-- `SrcField` with the bytes there. -/
theorem srcField_some {s : State} {n : Nat} (h : n ≤ srcAvail s) (hn : 0 < n)
    (hs : s.srcEnd.toNat ≤ s.cfg.srcSize.toNat) :
    srcField n s = .done (some (memRead s.src s.srcPos.toNat n))
      { s with srcPos := BitVec.ofNat 32 (s.srcPos.toNat + n) } := by
  have h' := h
  rw [srcAvail_eq] at h'
  simp [srcField, srcHas, show ¬ srcAvail s < n by omega, show s.srcPos.toNat + n ≤ s.cfg.srcSize.toNat by omega]

/-- The next source byte and the rest of the input. -/
theorem input_cons {s : State} (h : srcAvail s ≠ 0) :
    s.input = s.src.read s.srcPos.toNat :: ({ s with srcPos := s.srcPos + 1 } : State).input := by
  obtain ⟨n, hn⟩ := Nat.exists_eq_succ_of_ne_zero h
  have h1 : srcAvail { s with srcPos := s.srcPos + 1 } = n := by
    rw [srcAvail_eq] at hn ⊢
    show s.srcEnd.toNat - (s.srcPos + 1).toNat = n
    rw [srcPos_succ h]; omega
  unfold State.input
  rw [hn, h1, Memory.readBytes_succ, srcPos_succ h]

theorem input_nil {s : State} (h : srcAvail s = 0) : s.input = [] := by simp [State.input, h, Memory.readBytes]

@[simp] theorem input_length (s : State) : s.input.length = srcAvail s := by simp [State.input]

/-! ## The sink -/

theorem dstByte_ok {s : State} {a : Nat} (v : Byte) (h : a < s.cfg.dstSize.toNat) :
    dstByte a v s = .done () { s with dst := s.dst.write a v } := by
  simp [dstByte, show ¬ s.cfg.dstSize.toNat ≤ a by omega]

theorem dstByte_full {s : State} {a : Nat} (v : Byte) (h : s.cfg.dstSize.toNat ≤ a) :
    dstByte a v s = .raised (capacity .sinkRange) s := by simp [dstByte, h]

/-- Bytes that all exist are all written. -/
theorem dstBytes_ok {s : State} {a : Nat} {bs : List Byte} (h : a + bs.length ≤ s.cfg.dstSize.toNat) :
    dstBytes a bs s = .done () { s with dst := s.dst.writeBytes a bs } := by
  induction bs generalizing s a with
  | nil => rfl
  | cons b bs ih =>
    simp only [List.length_cons] at h
    rw [dstBytes, dstByte_ok b (by omega), Eff.andThen_done, ih (s := { s with dst := s.dst.write a b })
      (show a + 1 + bs.length ≤ s.cfg.dstSize.toNat by omega)]
    rfl

theorem memWrite_ok {s : State} {a n v : Nat} (h : a + n ≤ s.cfg.dstSize.toNat) :
    memWrite a n v s = .done () { s with dst := s.dst.writeBytes a (leBytes n v) } :=
  dstBytes_ok (by simpa using h)

/-- Whatever a sequence of sink writes does, it only changes DST, by writes to bytes that exist. -/
theorem dstBytes_cases (a : Nat) (bs : List Byte) (s : State) :
    (∃ m, dstBytes a bs s = .done () { s with dst := m } ∧ a + bs.length ≤ max a s.cfg.dstSize.toNat
        ∧ m = s.dst.writeBytes a bs) ∨
    ∃ n, n < bs.length ∧ dstBytes a bs s = .raised (capacity .sinkRange) { s with dst := s.dst.writeBytes a (bs.take n) }
      ∧ a + n = max a s.cfg.dstSize.toNat := by
  by_cases h : a + bs.length ≤ max a s.cfg.dstSize.toNat
  · left
    rcases bs with _ | ⟨b, bs⟩
    · exact ⟨s.dst, rfl, h, rfl⟩
    · exact ⟨_, dstBytes_ok (by simp only [List.length_cons] at *; omega), h, rfl⟩
  · right
    induction bs generalizing s a with
    | nil => simp at h
    | cons b bs ih =>
      by_cases ha : s.cfg.dstSize.toNat ≤ a
      · exact ⟨0, by simp, by simp [dstBytes, dstByte_full b ha, Memory.writeBytes], by omega⟩
      · have h' : ¬ a + 1 + bs.length ≤ max (a + 1) s.cfg.dstSize.toNat := by simp at h; omega
        obtain ⟨n, hn, he, hs⟩ := ih (a + 1) { s with dst := s.dst.write a b } h'
        refine ⟨n + 1, by simpa using hn, ?_, ?_⟩
        · rw [dstBytes, dstByte_ok b (by omega), Eff.andThen_done, he]; rfl
        · show a + (n + 1) = max a s.cfg.dstSize.toNat
          have hs' : a + 1 + n = max (a + 1) s.cfg.dstSize.toNat := hs
          omega

end Sys2Proof.Machine
end

