-- ==== Sys2Proof/Laws/Operands.lean ====
section
/-! SUPPORT. What the operand and data forms of Machine/Operands.lean do: the bits of payload bytes, the frequency
mapping, node records and the tree block. -/

namespace Sys2Proof.Machine

/-! ## Bits of a payload byte (R51, R87, R88) -/

theorem sum_bits_getLsbD : ∀ f0 f1 f2 f3 f4 f5 f6 f7 : Bool, ∀ k < 8,
    (BitVec.ofNat 8 ((if f0 then 2 ^ 0 else 0) + ((if f1 then 2 ^ 1 else 0) + ((if f2 then 2 ^ 2 else 0)
      + ((if f3 then 2 ^ 3 else 0) + ((if f4 then 2 ^ 4 else 0) + ((if f5 then 2 ^ 5 else 0)
      + ((if f6 then 2 ^ 6 else 0) + ((if f7 then 2 ^ 7 else 0) + 0))))))))).getLsbD k
      = [f0, f1, f2, f3, f4, f5, f6, f7][k]?.getD false := by decide +kernel

/-- Bit k of payload byte j is bit 8j + k of the sequence (R51). -/
theorem payloadByte_getLsbD (bits : List Bool) (j : Nat) {k : Nat} (hk : k < 8) :
    (payloadByte bits j).getLsbD k = bits[8 * j + k]?.getD false := by
  have h := sum_bits_getLsbD (bits[8 * j + 0]?.getD false) (bits[8 * j + 1]?.getD false) (bits[8 * j + 2]?.getD false)
    (bits[8 * j + 3]?.getD false) (bits[8 * j + 4]?.getD false) (bits[8 * j + 5]?.getD false)
    (bits[8 * j + 6]?.getD false) (bits[8 * j + 7]?.getD false) k hk
  have hsum : ((List.range 8).map fun k => if bits[8 * j + k]?.getD false then 2 ^ k else 0).sum = _ := rfl
  rw [payloadByte, hsum]
  refine h.trans ?_
  interval_cases k <;> rfl

theorem payloadByte_ext {b : Byte} {bits : List Bool} {j : Nat}
    (h : ∀ k < 8, b.getLsbD k = bits[8 * j + k]?.getD false) : b = payloadByte bits j :=
  BitVec.eq_of_getLsbD_eq fun k hk => by rw [h k hk, payloadByte_getLsbD _ _ hk]

theorem bitByte_getLsbD (b : Bool) (k : Nat) : (bitByte b).getLsbD k = (b && decide (k = 0)) := by
  cases b <;> simp [bitByte]

theorem packBit_getLsbD (acc : Byte) (n : Nat) (b : Bool) {k : Nat} (hk : k < 8) :
    (packBit acc n b).getLsbD k = (acc.getLsbD k || (b && decide (k = n))) := by
  simp only [packBit, BitVec.getLsbD_or, BitVec.getLsbD_shiftLeft, bitByte_getLsbD, hk, decide_true, Bool.true_and]
  rcases Nat.lt_trichotomy k n with h | h | h
  · simp [h, Nat.ne_of_lt h]
  · simp [h]
  · simp [show ¬ k < n by omega, show k ≠ n by omega, show k - n ≠ 0 by omega]

/-- Appending a bit completes or continues the byte in progress (R88, R122). -/
theorem packBit_payloadByte (bits : List Bool) (b : Bool) :
    packBit (payloadByte bits (bits.length / 8)) (bits.length % 8) b
      = payloadByte (bits ++ [b]) (bits.length / 8) := by
  apply payloadByte_ext
  intro k hk
  rw [packBit_getLsbD _ _ _ hk, payloadByte_getLsbD _ _ hk]
  rcases Nat.lt_trichotomy k (bits.length % 8) with h | h | h
  · rw [List.getElem?_append_left (by omega)]; simp [Nat.ne_of_lt h]
  · rw [show 8 * (bits.length / 8) + k = bits.length by omega]
    simp [h]
  · rw [List.getElem?_eq_none (by omega), List.getElem?_eq_none (by simp; omega)]
    simp [Nat.ne_of_gt h]

/-- A byte already complete is not changed by further bits. -/
theorem payloadByte_append (bits more : List Bool) {j : Nat} (h : 8 * (j + 1) ≤ bits.length) :
    payloadByte (bits ++ more) j = payloadByte bits j := by
  refine (payloadByte_ext fun k hk => ?_).symm
  rw [payloadByte_getLsbD _ _ hk, List.getElem?_append_left (by omega)]

/-- Past the last bit a payload byte is 0. -/
theorem payloadByte_beyond (bits : List Bool) {j : Nat} (h : bits.length ≤ 8 * j) : payloadByte bits j = 0 := by
  refine (payloadByte_ext fun k hk => ?_).symm
  rw [List.getElem?_eq_none (by omega)]; simp

/-- R34: the bits at and above the current position are 0. -/
theorem payloadByte_lt (bits : List Bool) : (payloadByte bits (bits.length / 8)).toNat < 2 ^ (bits.length % 8) := by
  apply Nat.lt_pow_two_of_testBit
  intro k hk
  by_cases h : k < 8
  · have := payloadByte_getLsbD bits (bits.length / 8) h
    rw [BitVec.getLsbD] at this
    rw [this, List.getElem?_eq_none (by omega)]; rfl
  · exact Nat.testBit_eq_false_of_lt
      (Nat.lt_of_lt_of_le (payloadByte bits (bits.length / 8)).isLt (Nat.pow_le_pow_right (by omega) (by omega)))

theorem packBit_lt {acc : Byte} {k : Nat} (b : Bool) (h : acc.toNat < 2 ^ k) :
    (packBit acc k b).toNat < 2 ^ (k + 1) := by
  apply Nat.lt_pow_two_of_testBit
  intro j hj
  by_cases h8 : j < 8
  · have := packBit_getLsbD acc k b h8
    rw [BitVec.getLsbD] at this
    rw [this, BitVec.getLsbD, Nat.testBit_eq_false_of_lt (Nat.lt_of_lt_of_le h (Nat.pow_le_pow_right (by omega) (by omega)))]
    simp [show j ≠ k by omega]
  · exact Nat.testBit_eq_false_of_lt
      (Nat.lt_of_lt_of_le (packBit acc k b).isLt (Nat.pow_le_pow_right (by omega) (by omega)))

theorem unpackBit_eq (byte : Byte) (k : Nat) : unpackBit byte k = byte.getLsbD k := by
  simp [unpackBit]

@[simp] theorem payload_length (bits : List Bool) : (payload bits).length = ceil8 bits.length := by simp [payload]

@[simp] theorem bitBlock_length (bits : List Bool) : (bitBlock bits).length = 4 + ceil8 bits.length := by
  simp [bitBlock]

theorem payload_getElem? (bits : List Bool) (j : Nat) :
    (payload bits)[j]? = if j < ceil8 bits.length then some (payloadByte bits j) else none := by
  by_cases h : j < ceil8 bits.length <;> simp [payload, h]

@[simp] theorem bitsOf_length (bytes : List Byte) (K : Nat) : (bitsOf bytes K).length = K := by simp [bitsOf]

/-- The bits written are the bits read (R127, R145). -/
theorem bitsOf_payload (bits : List Bool) : bitsOf (payload bits) bits.length = bits := by
  apply List.ext_getElem
  · simp
  · intro j h1 h2
    simp only [bitsOf, List.getElem_map, List.getElem_range]
    have hj : j / 8 < ceil8 bits.length := by unfold ceil8; omega
    rw [payload_getElem?, if_pos hj, Option.getD_some, payloadByte_getLsbD _ _ (Nat.mod_lt _ (by omega))]
    rw [show 8 * (j / 8) + j % 8 = j by omega, List.getElem?_eq_getElem h2]; rfl

/-! ## The frequency mapping (R18) -/

theorem freqOf_setSym (s : State) (v x : Byte) (w : Word) :
    (s.setSym v w).freqOf x = if x = v then w else s.freqOf x := by
  unfold State.freqOf State.setSym
  simp only [Vector.getElem_set, BitVec.toNat_inj]
  simp only [eq_comm]

theorem hasSym_setSym (s : State) (v x : Byte) (w : Word) : (s.setSym v w).hasSym x = (x == v || s.hasSym x) := by
  unfold State.hasSym State.setSym
  simp only [Vector.getElem_set, BitVec.toNat_inj]
  by_cases h : x = v
  · simp [h]
  · simp [h, Ne.symm h]

@[simp] theorem freqOf_clearSyms (s : State) (v : Byte) : s.clearSyms.freqOf v = 0 := by
  simp [State.freqOf, State.clearSyms]

@[simp] theorem hasSym_clearSyms (s : State) (v : Byte) : s.clearSyms.hasSym v = false := by
  simp [State.hasSym, State.clearSyms]

/-- FREQ[v] and PRESENT[v] depend on the two arrays alone. -/
theorem freqOf_congr {s t : State} (h : s.freq = t.freq) (v : Byte) : s.freqOf v = t.freqOf v := by
  simp only [State.freqOf, h]

theorem hasSym_congr {s t : State} (h : s.present = t.present) (v : Byte) : s.hasSym v = t.hasSym v := by
  simp only [State.hasSym, h]

theorem symbols_congr {s t : State} (h : s.present = t.present) : s.symbols = t.symbols :=
  List.filter_congr fun v _ => hasSym_congr h v

/-- Equal readings of every entry make equal arrays. -/
theorem freq_ext {s t : State} (h : ∀ v, s.freqOf v = t.freqOf v) : s.freq = t.freq := by
  apply Vector.ext
  intro i hi
  have := h (BitVec.ofNat 8 i)
  simp only [State.freqOf, BitVec.toNat_ofNat, Nat.mod_eq_of_lt hi] at this
  simpa [Nat.mod_eq_of_lt hi] using this

theorem present_ext {s t : State} (h : ∀ v, s.hasSym v = t.hasSym v) : s.present = t.present := by
  apply Vector.ext
  intro i hi
  have := h (BitVec.ofNat 8 i)
  simpa [State.hasSym, Nat.mod_eq_of_lt hi] using this

theorem mem_allSyms (v : Byte) : v ∈ allSyms := by
  refine List.mem_map.2 ⟨v.toNat, List.mem_range.2 v.isLt, ?_⟩
  simp

theorem mem_symbols {s : State} {v : Byte} : v ∈ s.symbols ↔ s.hasSym v = true := by
  simp [State.symbols, mem_allSyms]

theorem allSyms_nodup : allSyms.Nodup := by
  refine List.Nodup.map_on (fun x hx y hy h => ?_) List.nodup_range
  have := congrArg BitVec.toNat h
  simp only [BitVec.toNat_ofNat] at this
  simp at hx hy
  omega

theorem symbols_nodup (s : State) : s.symbols.Nodup := allSyms_nodup.filter _

theorem symbols_length_le (s : State) : s.symbols.length ≤ 256 :=
  (List.length_filter_le _ _).trans (by simp [allSyms])

/-! ## Node records and the tree block (R85, R86) -/

@[simp] theorem recordBytes_length (nd : Node) : (recordBytes nd).length = 8 := by simp [recordBytes]

theorem records_length (nodes : List Node) : (nodes.flatMap recordBytes).length = 8 * nodes.length := by
  induction nodes with
  | nil => rfl
  | cons nd nodes ih => simp [ih]; omega

@[simp] theorem treeBlock_length (nodes : List Node) : (treeBlock nodes).length = 2 + 8 * nodes.length := by
  simp only [treeBlock, List.length_append, leBytes_length, records_length]

/-- A record's bytes read back as the record (R224). -/
theorem readRecord_of_bytes {m : Memory} {r : Nat} {nd : Node} (h : m.readBytes r 8 = recordBytes nd) :
    readRecord m r = nd := by
  have hb : ∀ j < 8, m.read (r + j) = (recordBytes nd)[j]?.getD 0 := fun j hj => by
    rw [← h, Memory.readBytes_getElem?, if_pos hj]; rfl
  have field : ∀ (o : Nat) (v : Idx), o + 1 < 8 → (recordBytes nd)[o]?.getD 0 = BitVec.ofNat 8 v.toNat →
      (recordBytes nd)[o + 1]?.getD 0 = BitVec.ofNat 8 (v.toNat / 256) →
      BitVec.ofNat 16 (memRead m (r + o) 2) = v := by
    intro o v ho h0 h1
    have h2 : memRead m (r + o) 2 = v.toNat := by
      have := v.isLt
      simp only [memRead, hb o (by omega), h0, show r + o + 1 = r + (o + 1) by omega, hb (o + 1) ho, h1,
        BitVec.toNat_ofNat]
      omega
    rw [h2]; simp
  have hside : m.read (r + 6) = bitByte nd.side := by rw [hb 6 (by omega)]; rfl
  have hsym : m.read (r + 7) = nd.sym := by rw [hb 7 (by omega)]; rfl
  have h0 := field 0 nd.c0 (by omega) rfl rfl
  have h2 := field 2 nd.c1 (by omega) rfl rfl
  have h4 := field 4 nd.par (by omega) rfl rfl
  simp only [Nat.add_zero] at h0
  simp only [readRecord, h0, h2, h4, hside, hsym]
  cases nd with
  | mk c0 c1 par side sym => cases side <;> rfl

theorem readRecords_succ (m : Memory) (r n : Nat) :
    readRecords m r (n + 1) = readRecord m r :: readRecords m (r + 8) n := by
  simp only [readRecords, List.range_succ_eq_map, List.map_cons, List.map_map]
  refine congrArg _ (List.map_congr_left fun j _ => ?_)
  show readRecord m (r + 8 * (j + 1)) = readRecord m (r + 8 + 8 * j)
  rw [show r + 8 * (j + 1) = r + 8 + 8 * j by omega]

@[simp] theorem readRecords_length (m : Memory) (r n : Nat) : (readRecords m r n).length = n := by simp [readRecords]

theorem Memory.readBytes_split (m : Memory) (a n k : Nat) :
    m.readBytes a (n + k) = m.readBytes a n ++ m.readBytes (a + n) k := by
  induction n generalizing a with
  | zero => simp [Memory.readBytes]
  | succ n ih =>
    rw [show n + 1 + k = (n + k) + 1 by omega, Memory.readBytes_succ, Memory.readBytes_succ, ih]
    simp [Nat.add_assoc, Nat.add_comm 1]

/-- The records of a tree block read back as the node array (R225). -/
theorem readRecords_of_bytes {m : Memory} {r : Nat} {nodes : List Node}
    (h : m.readBytes r (8 * nodes.length) = nodes.flatMap recordBytes) :
    readRecords m r nodes.length = nodes := by
  induction nodes generalizing r with
  | nil => rfl
  | cons nd nodes ih =>
    rw [List.length_cons, show 8 * (nodes.length + 1) = 8 + 8 * nodes.length by omega, Memory.readBytes_split,
      List.flatMap_cons] at h
    obtain ⟨h1, h2⟩ := List.append_inj h (by simp)
    rw [List.length_cons, readRecords_succ, readRecord_of_bytes h1, ih h2]

end Sys2Proof.Machine
end

