-- ==== Sys2Proof/Laws/Freq.lean ====
section
/-! SUPPORT. What the frequency counter does (spec/42_freq_counter.md R163, R164): the count of the source bytes, and the
padding. -/

namespace Sys2Proof.Machine

/-- The mapping with these bytes counted into it (R163). -/
def tally (bytes : List Byte) (s : State) : State := bytes.foldl (fun s v => s.setSym v (s.freqOf v + 1)) s

@[simp] theorem tally_cons (v : Byte) (bytes : List Byte) (s : State) :
    tally (v :: bytes) s = tally bytes (s.setSym v (s.freqOf v + 1)) := rfl

/-- A tally changes the mapping only. -/
theorem tally_eq (bytes : List Byte) (s : State) :
    tally bytes s = { s with freq := (tally bytes s).freq, present := (tally bytes s).present } := by
  induction bytes generalizing s with
  | nil => rfl
  | cons v bytes ih => rw [tally_cons, ih]; simp

/-- A tally does not look beyond the mapping. -/
theorem tally_pos (bytes : List Byte) (s : State) (p : Word) (e : Bool) :
    tally bytes { s with srcPos := p, srcEof := e } = { tally bytes s with srcPos := p, srcEof := e } := by
  induction bytes generalizing s with
  | nil => rfl
  | cons v bytes ih => exact ih (s.setSym v (s.freqOf v + 1))

theorem freqOf_tally (bytes : List Byte) (s : State) (v : Byte) :
    (tally bytes s).freqOf v = s.freqOf v + BitVec.ofNat 32 (bytes.count v) := by
  induction bytes generalizing s with
  | nil => simp [tally]
  | cons x bytes ih =>
    rw [tally_cons, ih, freqOf_setSym, List.count_cons]
    by_cases h : v = x
    · subst h
      simp only [if_true, beq_self_eq_true]
      apply BitVec.eq_of_toNat_eq
      simp [BitVec.toNat_add, Nat.add_assoc, Nat.add_comm 1]
    · simp [h, show ¬ x = v from fun h' => h h'.symm]

theorem hasSym_tally (bytes : List Byte) (s : State) (v : Byte) :
    (tally bytes s).hasSym v = (decide (v ∈ bytes) || s.hasSym v) := by
  induction bytes generalizing s with
  | nil => simp [tally]
  | cons x bytes ih =>
    rw [tally_cons, ih, hasSym_setSym]
    by_cases h : v = x
    · simp [h]
    · simp [h, show (v == x) = false by simpa using h]

/-- The counting loop reads the source to its end (R163). -/
theorem countLoop_ok {u : State} (hs : u.srcEnd.toNat ≤ u.cfg.srcSize.toNat) :
    countLoop (srcAvail u + 1) u = .done () { tally u.input u with
      srcPos := BitVec.ofNat 32 (max u.srcPos.toNat u.srcEnd.toNat), srcEof := true } := by
  induction hav : srcAvail u generalizing u with
  | zero =>
    have h2 : max u.srcPos.toNat u.srcEnd.toNat = u.srcPos.toNat := by rw [srcAvail_eq] at hav; omega
    rw [input_nil hav, countLoop, srcNext_eof hav, Eff.andThen_done, h2]
    simp [tally]
  | succ n ih =>
    have hne : srcAvail u ≠ 0 := by omega
    rw [countLoop, srcNext_byte hne hs, Eff.andThen_done, input_cons hne]
    simp only [tally_cons]
    have hav' : srcAvail (({ u with srcPos := u.srcPos + 1 } : State).setSym (u.src.read u.srcPos.toNat)
        (({ u with srcPos := u.srcPos + 1 } : State).freqOf (u.src.read u.srcPos.toNat) + 1)) = n := by
      rw [srcAvail_eq] at hav ⊢
      show u.srcEnd.toNat - (u.srcPos + 1).toNat = n
      rw [srcPos_succ hne]; omega
    have hmax : max (u.srcPos + 1).toNat u.srcEnd.toNat = max u.srcPos.toNat u.srcEnd.toNat := by
      rw [srcPos_succ hne]; rw [srcAvail_eq] at hne; omega
    rw [ih (by exact hs) hav']
    simp only [setSym_srcPos, setSym_srcEnd, hmax]
    congr 1
    have := tally_pos ({ u with srcPos := u.srcPos + 1 } : State).input
      (u.setSym (u.src.read u.srcPos.toNat) (u.freqOf (u.src.read u.srcPos.toNat) + 1)) (u.srcPos + 1) u.srcEof
    exact congrArg (fun t : State => { t with
      srcPos := BitVec.ofNat 32 (max u.srcPos.toNat u.srcEnd.toNat), srcEof := true }) this

/-- FC.COUNT counts the input and changes nothing but the mapping (R163). -/
theorem countSource_ok {s : State} (hs : s.srcEnd.toNat ≤ s.cfg.srcSize.toNat) :
    countSource s = .done () (tally s.input s.clearSyms) := by
  have h := countLoop_ok (u := s.clearSyms) hs
  rw [countSource, show srcAvail s = srcAvail s.clearSyms from rfl, h, Eff.andThen_done,
    show s.clearSyms.input = s.input from rfl]
  congr 1
  rw [tally_eq]
  rfl

theorem freqOf_counted (s : State) (v : Byte) :
    (tally s.input s.clearSyms).freqOf v = BitVec.ofNat 32 (s.input.count v) := by
  rw [freqOf_tally]; simp

theorem hasSym_counted (s : State) (v : Byte) : (tally s.input s.clearSyms).hasSym v = decide (v ∈ s.input) := by
  rw [hasSym_tally]; simp

/-! ## Padding -/

theorem padSym_eq (v : Byte) (s : State) :
    padSym v s = { s with freq := (padSym v s).freq, present := (padSym v s).present } := by
  unfold padSym; split <;> rfl

/-- FC.PAD changes the mapping only (R164). -/
theorem padMapping_eq (s : State) :
    padMapping s = { s with freq := (padMapping s).freq, present := (padMapping s).present } := by
  unfold padMapping
  split
  · rw [padSym_eq, padSym_eq]
  · rfl

theorem hasSym_padSym (v x : Byte) (s : State) : (padSym v s).hasSym x = (x == v || s.hasSym x) := by
  unfold padSym
  split
  · next h => by_cases hx : x = v <;> simp_all
  · rw [hasSym_setSym]

theorem freqOf_padSym (v x : Byte) {s : State} (h0 : ∀ v, s.hasSym v = false → s.freqOf v = 0) :
    (padSym v s).freqOf x = s.freqOf x := by
  unfold padSym
  split
  · rfl
  · next h =>
    rw [freqOf_setSym]
    split
    · next hx => subst hx; rw [h0 x (by simpa using h)]
    · rfl

theorem hasSym_padMapping (s : State) (x : Byte) :
    (padMapping s).hasSym x = (s.hasSym x || (decide (s.symbols.length < 2) && (x == synth0 || x == synth1))) := by
  unfold padMapping
  split
  · next h =>
    rw [hasSym_padSym, hasSym_padSym]
    simp only [h, decide_true, Bool.true_and]
    cases s.hasSym x <;> cases x == synth0 <;> cases x == synth1 <;> rfl
  · next h => simp [h]

/-- Padding never changes the weight of any symbol: an added one had weight 0 (R164, R18). -/
theorem freqOf_padMapping {s : State} (h0 : ∀ v, s.hasSym v = false → s.freqOf v = 0) (x : Byte) :
    (padMapping s).freqOf x = s.freqOf x := by
  unfold padMapping
  split
  · rw [freqOf_padSym, freqOf_padSym _ _ h0]
    intro v hv
    rw [hasSym_padSym] at hv
    rw [freqOf_padSym _ _ h0]
    exact h0 v (by simp_all)
  · rfl

/-- After padding there are at least two symbols (R164). -/
theorem two_le_symbols_padMapping (s : State) : 2 ≤ (padMapping s).symbols.length := by
  by_cases h : s.symbols.length < 2
  · have h0 : synth0 ∈ (padMapping s).symbols := by rw [mem_symbols, hasSym_padMapping]; simp [h]
    have h1 : synth1 ∈ (padMapping s).symbols := by rw [mem_symbols, hasSym_padMapping]; simp [h]
    have hnd := symbols_nodup (padMapping s)
    have hsub : [synth0, synth1].Subperm (padMapping s).symbols :=
      List.subperm_of_subset (by decide) (by intro x hx; simp at hx; rcases hx with rfl | rfl <;> assumption)
    simpa using hsub.length_le
  · have : padMapping s = s := by unfold padMapping; rw [if_neg h]
    rw [this]; omega

end Sys2Proof.Machine
end

