-- ==== Sys2Proof/Laws/Build.lean ====
section
/-! SUPPORT. What HT.BUILD does (spec/43_tree_build.md R181 to R185, R189): an invariant of the merge loop, and from it the
shape of the finished array and which entries each pass took. -/

namespace Sys2Proof.Machine

/-! ## The priority structure -/

theorem PqEntry.before_iff (x y : PqEntry) :
    x.before y = true ↔ lexLt x.weight.toNat x.idx.toNat y.weight.toNat y.idx.toNat := by
  simp [PqEntry.before, lexLt, BitVec.toNat_inj]

theorem pqInsert_perm (e : PqEntry) (q : List PqEntry) : (pqInsert e q).Perm (e :: q) := by
  induction q with
  | nil => rfl
  | cons x q ih =>
    unfold pqInsert
    split
    · rfl
    · exact ((List.Perm.cons x ih).trans (List.Perm.swap e x q))

/-- PQ in extraction order: strictly rising in (weight, index). -/
def PqSorted (q : List PqEntry) : Prop := q.Pairwise fun x y => x.before y = true

/-- Insertion keeps the extraction order, the new index being fresh (R183). -/
theorem pqInsert_sorted {e : PqEntry} {q : List PqEntry} (hq : PqSorted q) (hf : ∀ x ∈ q, x.idx ≠ e.idx) :
    PqSorted (pqInsert e q) := by
  induction q with
  | nil => simp [pqInsert, PqSorted]
  | cons x q ih =>
    have hq' := hq
    unfold PqSorted at hq'
    rw [List.pairwise_cons] at hq'
    unfold pqInsert
    split
    · next h =>
      refine List.pairwise_cons.2 ⟨fun y hy => ?_, hq⟩
      rcases List.mem_cons.1 hy with rfl | hy
      · exact h
      · have hxy := hq'.1 y hy
        rw [PqEntry.before_iff] at *
        unfold lexLt at *
        omega
    · next h =>
      refine List.pairwise_cons.2 ⟨fun y hy => ?_, ih hq'.2 fun z hz => hf z (by simp [hz])⟩
      rcases List.mem_cons.1 ((pqInsert_perm e q).mem_iff.1 hy) with rfl | hy
      · have hne : x.idx.toNat ≠ y.idx.toNat := fun h' => hf x (by simp) (BitVec.eq_of_toNat_eq h')
        rw [PqEntry.before_iff] at *
        unfold lexLt at *
        omega
      · exact hq'.1 y hy

theorem pqInsert_length (e : PqEntry) (q : List PqEntry) : (pqInsert e q).length = q.length + 1 :=
  (pqInsert_perm e q).length_eq

/-! ## The merge loop -/

theorem nodeAt_append_left {nodes more : List Node} {i : Nat} (h : i < nodes.length) :
    nodeAt (nodes ++ more) i = nodeAt nodes i := by simp [nodeAt, List.getElem?_append_left h]

theorem weightAt_append_left {ws more : List Nat} {i : Nat} (h : i < ws.length) :
    weightAt (ws ++ more) i = weightAt ws i := by simp [weightAt, List.getElem?_append_left h]

theorem nodeAt_setParent (nodes : List Node) (a k : Idx) (b : Bool) {i : Nat} (h : i < nodes.length) :
    nodeAt (setParent a k b nodes) i
      = if i = a.toNat then { nodeAt nodes i with par := k, side := b } else nodeAt nodes i := by
  unfold nodeAt setParent
  rw [List.getElem?_modify]
  by_cases hi : i = a.toNat
  · subst hi; simp [List.getElem?_eq_getElem h]
  · simp [hi, show ¬ a.toNat = i from fun h => hi h.symm]

@[simp] theorem setParent_length (nodes : List Node) (a k : Idx) (b : Bool) :
    (setParent a k b nodes).length = nodes.length := by simp [setParent]

/-- The invariant of the merge loop, for the symbols syms with weights f. -/
structure Merging (syms : List Byte) (f : Byte → Nat) (ws : List Nat) (nodes : List Node) (pq : List PqEntry) : Prop where
  len : nodes.length + pq.length = 2 * syms.length
  leaves_le : syms.length ≤ nodes.length
  ws_len : ws.length = nodes.length
  sorted : PqSorted pq
  entry_lt : ∀ e ∈ pq, e.idx.toNat < nodes.length
  entry_weight : ∀ e ∈ pq, e.weight.toNat = weightAt ws e.idx.toNat
  open_iff : ∀ i < nodes.length, (nodeAt nodes i).par = sentinel ↔ ∃ e ∈ pq, e.idx.toNat = i
  open_side : ∀ i < nodes.length, (nodeAt nodes i).par = sentinel → (nodeAt nodes i).side = false
  total : (pq.map fun e => e.weight.toNat).sum = (syms.map f).sum
  leaf : ∀ i < syms.length, (nodeAt nodes i).c0 = sentinel ∧ (nodeAt nodes i).c1 = sentinel
    ∧ syms[i]? = some (nodeAt nodes i).sym ∧ weightAt ws i = f (nodeAt nodes i).sym
  inner : ∀ i < nodes.length, syms.length ≤ i → ∃ a b, MergedFrom nodes ws i a b
  up : ∀ i < nodes.length, (nodeAt nodes i).par ≠ sentinel → i < (nodeAt nodes i).par.toNat
    ∧ (nodeAt nodes i).par.toNat < nodes.length ∧ syms.length ≤ (nodeAt nodes i).par.toNat
    ∧ ((nodeAt nodes (nodeAt nodes i).par.toNat).child (nodeAt nodes i).side).toNat = i

/-- The array and the queue after one merge of the first two entries (R181). -/
theorem Merging.merge {syms : List Byte} {f : Byte → Nat} {ws : List Nat} {nodes : List Node} {x y : PqEntry}
    {q : List PqEntry} (h : Merging syms f ws nodes (x :: y :: q)) (h256 : syms.length ≤ 256)
    (hsum : (syms.map f).sum < 2 ^ 40) :
    Merging syms f (ws ++ [weightAt ws x.idx.toNat + weightAt ws y.idx.toNat])
      (setParent y.idx (BitVec.ofNat 16 nodes.length) true
        (setParent x.idx (BitVec.ofNat 16 nodes.length) false (nodes ++ [innerNode x.idx y.idx])))
      (pqInsert { weight := x.weight + y.weight, idx := BitVec.ofNat 16 nodes.length } q) := by
  obtain ⟨len, leaves_le, ws_len, sorted, entry_lt, entry_weight, open_iff, open_side, total, leaf, inner, up⟩ := h
  simp only [List.length_cons] at len
  -- the two entries
  set k := nodes.length with hk
  have hk16 : (BitVec.ofNat 16 k).toNat = k := by rw [BitVec.toNat_ofNat]; exact Nat.mod_eq_of_lt (by omega)
  have hksent : BitVec.ofNat 16 k ≠ sentinel := fun h => by
    have := congrArg BitVec.toNat h; rw [hk16] at this; simp at this; omega
  have hxlt : x.idx.toNat < k := entry_lt x (by simp)
  have hylt : y.idx.toNat < k := entry_lt y (by simp)
  have hwx := entry_weight x (by simp)
  have hwy := entry_weight y (by simp)
  have hs := sorted
  unfold PqSorted at hs
  rw [List.pairwise_cons, List.pairwise_cons] at hs
  obtain ⟨hsx, hsy, hsq⟩ := hs
  have ne_of_before : ∀ e e' : PqEntry, e ∈ x :: y :: q → e' ∈ x :: y :: q → e.before e' = true →
      e.idx.toNat ≠ e'.idx.toNat := by
    intro e e' he he' hb hi
    have h1 := entry_weight e he
    have h2 := entry_weight e' he'
    rw [hi, ← h2] at h1
    rw [PqEntry.before_iff] at hb
    unfold lexLt at hb
    omega
  have hxy : x.idx.toNat ≠ y.idx.toNat := ne_of_before x y (by simp) (by simp) (hsx y (by simp))
  have hxq : ∀ e ∈ q, x.idx.toNat ≠ e.idx.toNat := fun e he =>
    ne_of_before x e (by simp) (by simp [he]) (hsx e (by simp [he]))
  have hyq : ∀ e ∈ q, y.idx.toNat ≠ e.idx.toNat := fun e he =>
    ne_of_before y e (by simp) (by simp [he]) (hsy e he)
  have hxopen : (nodeAt nodes x.idx.toNat).par = sentinel := (open_iff _ hxlt).2 ⟨x, by simp, rfl⟩
  have hyopen : (nodeAt nodes y.idx.toNat).par = sentinel := (open_iff _ hylt).2 ⟨y, by simp, rfl⟩
  have hweight : (x.weight + y.weight).toNat = weightAt ws x.idx.toNat + weightAt ws y.idx.toNat := by
    simp only [List.map_cons, List.sum_cons] at total
    rw [BitVec.toNat_add, Nat.mod_eq_of_lt (by omega), hwx, hwy]
  -- the new array, entry by entry
  set nodes' := setParent y.idx (BitVec.ofNat 16 k) true
    (setParent x.idx (BitVec.ofNat 16 k) false (nodes ++ [innerNode x.idx y.idx])) with hn'
  set ws' := ws ++ [weightAt ws x.idx.toNat + weightAt ws y.idx.toNat] with hws'
  have hlen' : nodes'.length = k + 1 := by simp [hn', hk]
  have hold : ∀ i < k, nodeAt nodes' i =
      if i = y.idx.toNat then { nodeAt nodes i with par := BitVec.ofNat 16 k, side := true }
      else if i = x.idx.toNat then { nodeAt nodes i with par := BitVec.ofNat 16 k, side := false }
      else nodeAt nodes i := by
    intro i hi
    rw [hn', nodeAt_setParent _ _ _ _ (by simp; omega), nodeAt_setParent _ _ _ _ (by simp; omega),
      nodeAt_append_left (by omega)]
    by_cases h1 : i = y.idx.toNat
    · simp [h1, show ¬ y.idx.toNat = x.idx.toNat from fun h => hxy h.symm]
    · simp [h1]
  have hx' : nodeAt nodes' x.idx.toNat =
      { nodeAt nodes x.idx.toNat with par := BitVec.ofNat 16 k, side := false } := by
    rw [hold _ hxlt, if_neg hxy, if_pos rfl]
  have hy' : nodeAt nodes' y.idx.toNat =
      { nodeAt nodes y.idx.toNat with par := BitVec.ofNat 16 k, side := true } := by
    rw [hold _ hylt, if_pos rfl]
  have hsame : ∀ i < k, i ≠ x.idx.toNat → i ≠ y.idx.toNat → nodeAt nodes' i = nodeAt nodes i := by
    intro i hi h1 h2; rw [hold i hi, if_neg h2, if_neg h1]
  have hclosed : ∀ i < k, (nodeAt nodes i).par ≠ sentinel → nodeAt nodes' i = nodeAt nodes i := by
    intro i hi hp
    refine hsame i hi (fun h => ?_) (fun h => ?_)
    · subst h; exact hp hxopen
    · subst h; exact hp hyopen
  have hkids : ∀ i < k, (nodeAt nodes' i).c0 = (nodeAt nodes i).c0 ∧ (nodeAt nodes' i).c1 = (nodeAt nodes i).c1
      ∧ (nodeAt nodes' i).sym = (nodeAt nodes i).sym := by
    intro i hi
    rw [hold i hi]
    split
    · exact ⟨rfl, rfl, rfl⟩
    · split <;> exact ⟨rfl, rfl, rfl⟩
  have hnew : nodeAt nodes' k = innerNode x.idx y.idx := by
    rw [hn', nodeAt_setParent _ _ _ _ (by simp [hk]), nodeAt_setParent _ _ _ _ (by simp [hk]),
      if_neg (by omega), if_neg (by omega)]
    simp [nodeAt, hk]
  have hw : ∀ i < k, weightAt ws' i = weightAt ws i := fun i hi => weightAt_append_left (by omega)
  have hwk : weightAt ws' k = weightAt ws x.idx.toNat + weightAt ws y.idx.toNat := by
    simp [weightAt, hws', ← ws_len]
  refine ⟨?_, ?_, ?_, ?_, ?_, ?_, ?_, ?_, ?_, ?_, ?_, ?_⟩
  · rw [hlen', pqInsert_length]; omega
  · omega
  · simp [hws', hlen', ws_len, hk]
  · refine pqInsert_sorted hsq fun e he h => ?_
    have := entry_lt e (by simp [he])
    rw [h] at this
    simp only [hk16] at this
    omega
  · intro e he
    rw [hlen']
    rcases List.mem_cons.1 ((pqInsert_perm _ q).mem_iff.1 he) with rfl | he
    · simp only [hk16]; omega
    · have := entry_lt e (by simp [he]); omega
  · intro e he
    rcases List.mem_cons.1 ((pqInsert_perm _ q).mem_iff.1 he) with rfl | he
    · simp only [hk16]; rw [hwk, hweight]
    · rw [hw _ (entry_lt e (by simp [he]))]; exact entry_weight e (by simp [he])
  · intro i hi
    simp only [(pqInsert_perm _ q).mem_iff, List.mem_cons]
    rw [hlen'] at hi
    rcases Nat.lt_or_ge i k with hik | hik
    · by_cases h1 : i = x.idx.toNat
      · subst h1
        rw [hx']
        refine ⟨fun h => absurd h hksent, ?_⟩
        rintro ⟨e, rfl | he, hei⟩
        · simp only [hk16] at hei; omega
        · exact absurd hei.symm (hxq e he)
      · by_cases h2 : i = y.idx.toNat
        · subst h2
          rw [hy']
          refine ⟨fun h => absurd h hksent, ?_⟩
          rintro ⟨e, rfl | he, hei⟩
          · simp only [hk16] at hei; omega
          · exact absurd hei.symm (hyq e he)
        · rw [hsame i hik h1 h2, open_iff i hik]
          constructor
          · rintro ⟨e, he, hei⟩
            rcases List.mem_cons.1 he with rfl | he
            · exact absurd hei.symm h1
            · rcases List.mem_cons.1 he with rfl | he
              · exact absurd hei.symm h2
              · exact ⟨e, .inr he, hei⟩
          · rintro ⟨e, rfl | he, hei⟩
            · simp only [hk16] at hei; omega
            · exact ⟨e, by simp [he], hei⟩
    · have : i = k := by omega
      subst this
      rw [hnew]
      exact ⟨fun _ => ⟨_, .inl rfl, hk16⟩, fun _ => rfl⟩
  · intro i hi hp
    rw [hlen'] at hi
    rcases Nat.lt_or_ge i k with hik | hik
    · have : i ≠ x.idx.toNat ∧ i ≠ y.idx.toNat := by
        constructor <;> rintro rfl
        · rw [hx'] at hp; exact hksent hp
        · rw [hy'] at hp; exact hksent hp
      rw [hsame i hik this.1 this.2] at hp ⊢
      exact open_side i hik hp
    · have : i = k := by omega
      subst this
      rw [hnew]; rfl
  · rw [((pqInsert_perm _ q).map _).sum_eq]
    simp only [List.map_cons, List.sum_cons] at total ⊢
    rw [hweight, ← hwx, ← hwy]; omega
  · intro i hi
    obtain ⟨h1, h2, h3⟩ := hkids i (by omega)
    rw [h1, h2, h3, hw i (by omega)]
    exact leaf i hi
  · intro i hi hN
    rw [hlen'] at hi
    rcases Nat.lt_or_ge i k with hik | hik
    · obtain ⟨a, b, m⟩ := inner i hik hN
      obtain ⟨h1, h2, h3⟩ := hkids i hik
      have hpa : (nodeAt nodes a).par ≠ sentinel := fun h => by
        have := m.a_par; rw [h] at this; simp at this; omega
      have hpb : (nodeAt nodes b).par ≠ sentinel := fun h => by
        have := m.b_par; rw [h] at this; simp at this; omega
      have hal := m.a_lt
      have hbl := m.b_lt
      refine ⟨a, b, ⟨by rw [h1]; exact m.c0, by rw [h2]; exact m.c1, by rw [h3]; exact m.sym, hal, hbl, ?_, ?_, ?_, ?_, ?_,
        ?_, ?_⟩⟩
      · rw [hclosed a (by omega) hpa]; exact m.a_par
      · rw [hclosed a (by omega) hpa]; exact m.a_side
      · rw [hclosed b (by omega) hpb]; exact m.b_par
      · rw [hclosed b (by omega) hpb]; exact m.b_side
      · rw [hw i hik, hw a (by omega), hw b (by omega)]; exact m.weight
      · rw [hw a (by omega), hw b (by omega)]; exact m.first
      · intro j hj hja hjb hjp
        rw [hw b (by omega), hw j (by omega)]
        refine m.least j hj hja hjb ?_
        rw [hold j (by omega)] at hjp
        have hsent : sentinel.toNat = 65535 := rfl
        split at hjp
        · next h => subst h; rw [hyopen, hsent]; omega
        · split at hjp
          · next h => subst h; rw [hxopen, hsent]; omega
          · exact hjp
    · have hik' : i = k := by omega
      subst hik'
      refine ⟨x.idx.toNat, y.idx.toNat, ⟨by rw [hnew]; rfl, by rw [hnew]; rfl, by rw [hnew]; rfl, hxlt, hylt,
        by rw [hx']; exact hk16, by rw [hx'], by rw [hy']; exact hk16, by rw [hy'], ?_, ?_, ?_⟩⟩
      · rw [hwk, hw _ hxlt, hw _ hylt]
      · rw [hw _ hxlt, hw _ hylt, ← hwx, ← hwy]
        exact (PqEntry.before_iff x y).1 (hsx y (by simp))
      · intro j hj hjx hjy hjp
        rw [hsame j hj hjx hjy] at hjp
        have hjo : (nodeAt nodes j).par = sentinel := by
          by_contra hne
          have := (up j hj hne).2.1
          omega
        obtain ⟨e, he, hei⟩ := (open_iff j hj).1 hjo
        rw [hw _ hylt, hw j hj, ← hei, ← entry_weight e he, ← hwy]
        rcases List.mem_cons.1 he with rfl | he
        · exact absurd hei.symm hjx
        · rcases List.mem_cons.1 he with rfl | he
          · exact absurd hei.symm hjy
          · exact (PqEntry.before_iff y e).1 (hsy e he)
  · intro i hi hp
    rw [hlen'] at hi ⊢
    rcases Nat.lt_or_ge i k with hik | hik
    · by_cases h1 : i = x.idx.toNat
      · subst h1
        rw [hx']
        simp only [hk16, hnew]
        exact ⟨hik, by omega, leaves_le, rfl⟩
      · by_cases h2 : i = y.idx.toNat
        · subst h2
          rw [hy']
          simp only [hk16, hnew]
          exact ⟨hik, by omega, leaves_le, rfl⟩
        · rw [hsame i hik h1 h2] at hp ⊢
          obtain ⟨u1, u2, u3, u4⟩ := up i hik hp
          obtain ⟨h3, h4, -⟩ := hkids _ u2
          refine ⟨u1, by omega, u3, ?_⟩
          unfold Node.child at u4 ⊢
          rw [h3, h4]; exact u4
    · have : i = k := by omega
      subst this
      rw [hnew] at hp
      exact absurd rfl hp

/-- HT.EQ's comparison, record by record and field by field, is equality of the arrays (R188). -/
theorem treesEqual_iff (a b : List Node) : treesEqual a b = true ↔ a = b := by
  induction a generalizing b with
  | nil => cases b <;> simp [treesEqual]
  | cons x a ih =>
    cases b with
    | nil => simp [treesEqual]
    | cons y b =>
      have := ih b
      unfold treesEqual at this
      rcases x with ⟨⟩
      rcases y with ⟨⟩
      simp only [treesEqual, List.length_cons, List.zip_cons_cons, List.all_cons, List.cons.injEq, ← this,
        Bool.and_eq_true, beq_iff_eq, Node.mk.injEq, Nat.add_right_cancel_iff]
      tauto

end Sys2Proof.Machine
end

