-- ==== Sys2Proof/Laws/Serial.lean ====
section
/-! SUPPORT. What saving and loading a tree do (spec/45_tree_serial.md R221 to R225): their cases, and that a saved tree
loads back. -/

namespace Sys2Proof.Machine

theorem blockSize_eq (n : Nat) : blockSize n = 2 + 8 * n := rfl

theorem saveTree_busy {s : State} (h : s.bwOpen = true) : saveTree s = .raised (illegalOp .sinkBound) s := by
  simp [saveTree, h]

theorem saveTree_full {s : State} (h : s.bwOpen = false) (hr : s.cfg.dstSize.toNat < s.dstPos.toNat + blockSize s.nn) :
    saveTree s = .raised (capacity .sinkRange) s := by simp [saveTree, h, hr]

theorem saveTree_ok {s : State} (h : s.bwOpen = false) (hr : s.dstPos.toNat + blockSize s.nn ≤ s.cfg.dstSize.toNat) :
    saveTree s = .done () { s with
      dst := s.dst.writeBytes s.dstPos.toNat (treeBlock s.node)
      dstPos := BitVec.ofNat 32 (s.dstPos.toNat + blockSize s.nn) } := by
  have hw := dstBytes_ok (s := s) (a := s.dstPos.toNat) (bs := treeBlock s.node)
    (by rw [treeBlock_length]; exact hr)
  rw [saveTree, if_neg (by simp [h]), if_neg (by omega), hw]
  rfl

theorem loadTree_countShort {s : State} (h : srcAvail s < 2) :
    loadTree s = .raised (formatErr .treeCountShort) { s with srcEof := true } := by simp [loadTree, h]

theorem loadTree_recordsShort {s : State} (h : 2 ≤ srcAvail s) (hs : s.srcEnd.toNat ≤ s.cfg.srcSize.toNat)
    (hr : srcAvail s < blockSize (memRead s.src s.srcPos.toNat 2)) :
    loadTree s = .raised (formatErr .treeRecordsShort) { s with srcEof := true } := by
  have h' := h
  rw [srcAvail_eq] at h'
  rw [blockSize_eq] at hr
  simp [loadTree, srcHas, show ¬ srcAvail s < 2 by omega, show s.srcPos.toNat + 2 ≤ s.cfg.srcSize.toNat by omega,
    show srcAvail s - 2 < 8 * memRead s.src s.srcPos.toNat 2 by omega]

theorem loadTree_ok {s : State} {n : Nat} (hs : s.srcEnd.toNat ≤ s.cfg.srcSize.toNat)
    (hn : memRead s.src s.srcPos.toNat 2 = n) (hr : blockSize n ≤ srcAvail s) :
    loadTree s = .done () { s with
      node := readRecords s.src (s.srcPos.toNat + 2) n
      srcPos := BitVec.ofNat 32 (s.srcPos.toNat + blockSize n) } := by
  have hr' := hr
  rw [srcAvail_eq, blockSize_eq] at hr'
  rw [blockSize_eq] at hr
  simp [loadTree, srcHas, hn, show ¬ srcAvail s < 2 by omega, show s.srcPos.toNat + 2 ≤ s.cfg.srcSize.toNat by omega,
    show ¬ srcAvail s - 2 < 8 * n by omega, blockSize_eq, show s.srcPos.toNat + (2 + 8 * n) ≤ s.cfg.srcSize.toNat by omega]

/-- A block that holds a tree loads as that tree (R224, R225). -/
theorem block_loads {m : Memory} {a : Nat} {nodes : List Node} (hcap : nodes.length ≤ nodeCap)
    (h : m.readBytes a (blockSize nodes.length) = treeBlock nodes) :
    memRead m a 2 = nodes.length ∧ readRecords m (a + 2) nodes.length = nodes := by
  rw [blockSize_eq, Memory.readBytes_split] at h
  have := List.append_inj h (by simp)
  refine ⟨memRead_eq_of_readBytes this.1 ?_, readRecords_of_bytes this.2⟩
  have : nodes.length ≤ 65535 := hcap
  omega

/-- Record i of a block that holds a tree (R85, R86). -/
theorem block_record {m : Memory} {a : Nat} {nodes : List Node} {i : Nat} (hi : i < nodes.length)
    (h : m.readBytes a (2 + 8 * nodes.length) = treeBlock nodes) :
    m.readBytes (a + 2 + 8 * i) 8 = recordBytes (nodeAt nodes i) := by
  have hn : nodes = nodes.take i ++ nodeAt nodes i :: nodes.drop (i + 1) := by
    have : nodeAt nodes i = nodes[i] := by simp [nodeAt, hi]
    rw [this, List.cons_getElem_drop_succ, List.take_append_drop]
  have hl : (nodes.take i).length = i := by simp; omega
  rw [show 2 + 8 * nodes.length = (2 + 8 * i) + (8 + 8 * (nodes.length - (i + 1))) by omega, Memory.readBytes_split,
    Memory.readBytes_split (n := 8)] at h
  have hb : treeBlock nodes = (leBytes 2 nodes.length ++ (nodes.take i).flatMap recordBytes)
      ++ (recordBytes (nodeAt nodes i) ++ (nodes.drop (i + 1)).flatMap recordBytes) := by
    have := congrArg (List.flatMap recordBytes) hn
    rw [List.flatMap_append, List.flatMap_cons] at this
    rw [treeBlock, this]
    simp
  rw [hb] at h
  have h1 := (List.append_inj h (by rw [List.length_append, records_length, hl]; simp)).2
  have h2 := (List.append_inj h1 (by simp)).1
  rwa [← Nat.add_assoc] at h2

end Sys2Proof.Machine
end

