-- ==== Sys2Proof/Laws/Reader.lean ====
section
/-! SUPPORT. What the bit reader does (spec/41_bitreader.md): each step's cases, then the reader as a stream: after BR.OPEN
and j reads its state is one closed form. -/

namespace Sys2Proof.Machine

/-! ## The cases of each step -/

theorem readerOpen_short {s : State} (h : srcAvail s < 4) :
    readerOpen s = .raised (formatErr .bithdrShort) { s with brOpen := false, srcEof := true } := by
  have := srcField_eof (s := { s with brOpen := false }) (n := 4) h
  simp [readerOpen, this]

theorem readerOpen_ok {s : State} (h : 4 ≤ srcAvail s) (hs : s.srcEnd.toNat ≤ s.cfg.srcSize.toNat) :
    readerOpen s = .done () { s with
      srcPos := BitVec.ofNat 32 (s.srcPos.toNat + 4), brSize := BitVec.ofNat 32 (memRead s.src s.srcPos.toNat 4),
      brCnt := 0, brCur := 0, brOpen := true } := by
  have := srcField_some (s := { s with brOpen := false }) (n := 4) h (by omega) hs
  simp [readerOpen, this]

theorem readerBit_closed {s : State} (h : s.brOpen = false) : readerBit s = .raised (illegalOp .brState) s := by
  simp [readerBit, h]

theorem readerBit_end {s : State} (h : s.brOpen = true) (he : s.brCnt = s.brSize) :
    readerBit s = .raised ⟨.endOfSequence, .bitsExhausted⟩ s := by simp [readerBit, h, he]

theorem readerBit_short {s : State} (h : s.brOpen = true) (he : s.brCnt ≠ s.brSize) (hk : s.brCnt.toNat % 8 = 0)
    (ha : srcAvail s = 0) : readerBit s = .raised (formatErr .payloadShort) { s with srcEof := true } := by
  simp [readerBit, h, he, readerFetch, hk, srcNext_eof ha]

theorem readerBit_fetch {s : State} (h : s.brOpen = true) (he : s.brCnt ≠ s.brSize) (hk : s.brCnt.toNat % 8 = 0)
    (ha : srcAvail s ≠ 0) (hs : s.srcEnd.toNat ≤ s.cfg.srcSize.toNat) :
    readerBit s = .done ((s.src.read s.srcPos.toNat).getLsbD 0) { s with
      srcPos := s.srcPos + 1, brCur := s.src.read s.srcPos.toNat,
      result := boolWord ((s.src.read s.srcPos.toNat).getLsbD 0), brCnt := s.brCnt + 1 } := by
  simp [readerBit, h, he, readerFetch, hk, srcNext_byte ha hs, unpackBit_eq]

theorem readerBit_hold {s : State} (h : s.brOpen = true) (he : s.brCnt ≠ s.brSize) (hk : s.brCnt.toNat % 8 ≠ 0) :
    readerBit s = .done (s.brCur.getLsbD (s.brCnt.toNat % 8)) { s with
      result := boolWord (s.brCur.getLsbD (s.brCnt.toNat % 8)), brCnt := s.brCnt + 1 } := by
  simp [readerBit, h, he, readerFetch, hk, unpackBit_eq]

/-! ## The reader as a stream -/

/-- Bit j of the payload that follows a header at SRC_POS (R145). -/
def streamBit (u : State) (j : Nat) : Bool := (u.src.read (u.srcPos.toNat + 4 + j / 8)).getLsbD (j % 8)

/-- The state u with a reader of K bits opened at its SRC_POS from which j bits have been read (R141, R142, R145). -/
def readerAt (u : State) (K j : Nat) : State :=
  { u with
    brOpen := true
    brSize := BitVec.ofNat 32 K
    brCnt := BitVec.ofNat 32 j
    brCur := if j = 0 then 0 else u.src.read (u.srcPos.toNat + 4 + (j - 1) / 8)
    srcPos := BitVec.ofNat 32 (u.srcPos.toNat + 4 + ceil8 j)
    result := if j = 0 then u.result else boolWord (streamBit u (j - 1)) }

theorem readerOpen_eq_readerAt {u : State} (h : 4 ≤ srcAvail u) (hs : u.srcEnd.toNat ≤ u.cfg.srcSize.toNat) :
    readerOpen u = .done () (readerAt u (memRead u.src u.srcPos.toNat 4) 0) := by
  rw [readerOpen_ok h hs]
  simp [readerAt, ceil8]

theorem readerAt_srcAvail {u : State} {K j : Nat} (h : u.srcPos.toNat + 4 + ceil8 j ≤ u.srcEnd.toNat) :
    srcAvail (readerAt u K j) = u.srcEnd.toNat - (u.srcPos.toNat + 4 + ceil8 j) := by
  have := u.srcEnd.isLt
  rw [srcAvail_eq]
  simp only [readerAt, BitVec.toNat_ofNat]
  omega

/-- One more bit (R142). -/
theorem readerBit_readerAt {u : State} {K j : Nat} (hK : K < 2 ^ 32) (hj : j < K)
    (ha : u.srcPos.toNat + 4 + ceil8 (j + 1) ≤ u.srcEnd.toNat) (hs : u.srcEnd.toNat ≤ u.cfg.srcSize.toNat) :
    readerBit (readerAt u K j) = .done (streamBit u j) (readerAt u K (j + 1)) := by
  have hcnt : (readerAt u K j).brCnt.toNat = j := by
    simp only [readerAt, BitVec.toNat_ofNat]; exact Nat.mod_eq_of_lt (by omega)
  have hne : (readerAt u K j).brCnt ≠ (readerAt u K j).brSize := by
    intro h
    have := congrArg BitVec.toNat h
    rw [hcnt] at this
    simp only [readerAt, BitVec.toNat_ofNat] at this
    omega
  have hsucc : BitVec.ofNat 32 j + 1#32 = BitVec.ofNat 32 (j + 1) := by
    apply BitVec.eq_of_toNat_eq; simp
  by_cases hk : j % 8 = 0
  · have hc : ceil8 (j + 1) = ceil8 j + 1 := by unfold ceil8; omega
    have hpos : (readerAt u K j).srcPos.toNat = u.srcPos.toNat + 4 + j / 8 := by
      have := u.srcEnd.isLt
      simp only [readerAt, BitVec.toNat_ofNat]
      unfold ceil8 at *; omega
    have hav := readerAt_srcAvail (u := u) (K := K) (j := j) (by omega)
    rw [readerBit_fetch rfl hne (by rw [hcnt]; exact hk) (by rw [hav]; omega) hs, hpos]
    have hbit : ((readerAt u K j).src.read (u.srcPos.toNat + 4 + j / 8)).getLsbD 0 = streamBit u j := by
      unfold streamBit; rw [hk]; rfl
    have hinc : (readerAt u K j).srcPos + 1 = BitVec.ofNat 32 (u.srcPos.toNat + 4 + ceil8 (j + 1)) := by
      apply BitVec.eq_of_toNat_eq
      rw [BitVec.toNat_add, hpos]
      show (u.srcPos.toNat + 4 + j / 8 + 1) % 2 ^ 32 = (u.srcPos.toNat + 4 + ceil8 (j + 1)) % 2 ^ 32
      congr 1
      unfold ceil8; omega
    rw [hbit, hinc]
    simp [readerAt, hsucc]
  · have hc : ceil8 (j + 1) = ceil8 j := by unfold ceil8; omega
    have hj0 : j ≠ 0 := by rintro rfl; simp at hk
    have hdiv : (j - 1) / 8 = j / 8 := by omega
    rw [readerBit_hold rfl hne (by rw [hcnt]; exact hk), hcnt]
    have hbit : (readerAt u K j).brCur.getLsbD (j % 8) = streamBit u j := by
      simp [readerAt, hj0, hdiv, streamBit]
    rw [hbit]
    simp [readerAt, hsucc, hc, hj0, hdiv]

/-- The bits of the payload are the stream's bits (R145). -/
theorem bitsOf_stream (u : State) (K : Nat) :
    bitsOf (u.src.readBytes (u.srcPos.toNat + 4) (ceil8 K)) K = (List.range K).map (streamBit u) := by
  refine List.map_congr_left fun j hj => ?_
  have hj := List.mem_range.1 hj
  rw [Memory.readBytes_getElem?, if_pos (by unfold ceil8; omega)]
  rfl

end Sys2Proof.Machine
end

