-- ==== Sys2Proof/Laws/DecodeStream.lean ====
section
/-! SUPPORT. What HT.DECODE does (spec/44_tree_transcode.md R205 to R207): the walk down follows the bits to a leaf, the
symbol loop emits the symbols the bit sequence decodes to, and the command leaves them in the sink. -/

namespace Sys2Proof.Machine

/-- Bits j .. K-1 of the stream. -/
def streamFrom (u : State) (K j : Nat) : List Bool := ((List.range K).map (streamBit u)).drop j

@[simp] theorem streamFrom_length (u : State) (K j : Nat) : (streamFrom u K j).length = K - j := by simp [streamFrom]

theorem streamFrom_succ {u : State} {K j : Nat} (h : j < K) :
    streamFrom u K j = streamBit u j :: streamFrom u K (j + 1) := by
  unfold streamFrom
  rw [List.drop_eq_getElem_cons (by simpa using h)]
  simp

theorem descend_length {nodes : List Node} {nd leaf : Node} {bits rest : List Bool}
    (h : descend nodes nd bits = some (leaf, rest)) : rest.length < bits.length ∧ leaf.isLeaf = true := by
  induction bits generalizing nd with
  | nil => simp [descend] at h
  | cons b bs ih =>
    unfold descend at h
    split at h
    · simp at h
    · split at h
      · simp at h
      · split at h
        · next hl => cases h; exact ⟨by simp, hl⟩
        · have := ih h; simp only [List.length_cons]; exact ⟨by omega, this.2⟩

/-- The walk down follows the bits to the leaf and leaves the rest (R205, R207). -/
theorem walkDown_readerAt {u : State} {K j steps : Nat} {nd leaf : Node} {rest : List Bool} (hK : K < 2 ^ 32)
    (ha : u.srcPos.toNat + 4 + ceil8 K ≤ u.srcEnd.toNat) (hs : u.srcEnd.toNat ≤ u.cfg.srcSize.toNat)
    (hst : K - j < steps) (h : descend u.node nd (streamFrom u K j) = some (leaf, rest)) :
    ∃ j', j < j' ∧ j' ≤ K ∧ rest = streamFrom u K j'
      ∧ walkDown steps nd (readerAt u K j) = .done leaf (readerAt u K j') := by
  induction steps generalizing j nd with
  | zero => omega
  | succ steps ih =>
    by_cases hj : j < K
    · rw [streamFrom_succ hj] at h
      unfold descend at h
      have hc : ceil8 (j + 1) ≤ ceil8 K := by unfold ceil8; omega
      rw [walkDown, readerBit_readerAt hK hj (by omega) hs, Eff.andThen_done]
      split at h
      · simp at h
      · next hne =>
        rw [if_neg hne]
        split at h
        · simp at h
        · next n hn =>
          have hn' : (readerAt u K (j + 1)).node[(nd.child (streamBit u j)).toNat]? = some n := hn
          simp only [hn']
          split at h
          · next hl => cases h; exact ⟨j + 1, by omega, by omega, rfl, by simp [hl]⟩
          · next hl =>
            obtain ⟨j', h1, h2, h3, h4⟩ := ih (by omega) h
            exact ⟨j', by omega, h2, h3, by simp [hl, h4]⟩
    · have : streamFrom u K j = [] := List.length_eq_zero_iff.1 (by simp; omega)
      rw [this] at h
      simp [descend] at h

/-- The symbol loop emits the symbols of the bits still to come (R205). -/
theorem decodeSymbols_readerAt {u : State} {K j passes rounds : Nat} {syms : List Byte} (hK : K < 2 ^ 32)
    (ha : u.srcPos.toNat + 4 + ceil8 K ≤ u.srcEnd.toNat) (hs : u.srcEnd.toNat ≤ u.cfg.srcSize.toNat) (hj : j ≤ K)
    (hp : K - j ≤ passes) (h : symbolsOf u.node rounds (streamFrom u K j) = some syms)
    (hr : syms ≠ [] → u.dstPos.toNat + syms.length ≤ u.cfg.dstSize.toNat) :
    decodeSymbols passes (readerAt u K j) = .done () (readerAt { u with
      dst := u.dst.writeBytes u.dstPos.toNat syms, dstPos := BitVec.ofNat 32 (u.dstPos.toNat + syms.length) } K K) := by
  have hcnt : ∀ (u : State) {j : Nat}, j ≤ K → (readerAt u K j).brCnt.toNat = j := fun u {j} hj => by
    simp only [readerAt, BitVec.toNat_ofNat]; exact Nat.mod_eq_of_lt (by omega)
  have hsize : ∀ (u : State) (j : Nat), (readerAt u K j).brSize.toNat = K := fun u j => by
    simp only [readerAt, BitVec.toNat_ofNat]; exact Nat.mod_eq_of_lt (by omega)
  induction passes generalizing u j rounds syms with
  | zero =>
    have hjK : j = K := by omega
    subst hjK
    have : streamFrom u j j = [] := List.length_eq_zero_iff.1 (by simp)
    rw [this] at h
    cases rounds <;> cases h <;> simp [decodeSymbols, Memory.writeBytes]
  | succ passes ih =>
    by_cases hjK : j = K
    · subst hjK
      have : streamFrom u j j = [] := List.length_eq_zero_iff.1 (by simp)
      rw [this] at h
      have heos : (readerAt u j j).brEos = true := by simp [State.brEos, readerAt]
      cases rounds <;> cases h <;> simp [decodeSymbols, heos, Memory.writeBytes]
    · have hjlt : j < K := by omega
      have heos : (readerAt u K j).brEos = false := by
        simp only [State.brEos, beq_eq_false_iff_ne]
        intro h
        have := congrArg BitVec.toNat h
        rw [hcnt u hj, hsize] at this
        omega
      have hcons := streamFrom_succ (u := u) hjlt
      obtain ⟨rounds, rfl⟩ : ∃ r, rounds = r + 1 := by
        cases rounds with
        | zero => rw [hcons] at h; simp [symbolsOf] at h
        | succ r => exact ⟨r, rfl⟩
      rw [hcons] at h
      unfold symbolsOf at h
      rw [← hcons] at h
      split at h
      · simp at h
      · next root hroot =>
        split at h
        · simp at h
        · next leaf rest hd =>
          obtain ⟨syms', hsy, rfl⟩ := Option.map_eq_some_iff.1 h
          have hr := hr (by simp)
          simp only [List.length_cons] at hr
          have hleft : bitsLeft (readerAt u K j) = K - j := by rw [bitsLeft, hcnt u hj, hsize]
          obtain ⟨j', h1, h2, rfl, h4⟩ := walkDown_readerAt (steps := K - j + 1) hK ha hs (by omega) hd
          have hroot' : (readerAt u K j).node.getLast? = some root := hroot
          have hinc : u.dstPos + 1 = BitVec.ofNat 32 (u.dstPos.toNat + 1) := by
            apply BitVec.eq_of_toNat_eq; simp
          have hsz := u.cfg.dstSize.isLt
          have hposn : (BitVec.ofNat 32 (u.dstPos.toNat + 1)).toNat = u.dstPos.toNat + 1 := by
            rw [BitVec.toNat_ofNat]; exact Nat.mod_eq_of_lt (by omega)
          have hbyte : dstByte (readerAt u K j').dstPos.toNat leaf.sym (readerAt u K j')
              = .done () { readerAt u K j' with dst := u.dst.write u.dstPos.toNat leaf.sym } :=
            dstByte_ok leaf.sym (show u.dstPos.toNat < u.cfg.dstSize.toNat by omega)
          have hsym : decodeSymbol (readerAt u K j) = .done () (readerAt { u with
              dst := u.dst.write u.dstPos.toNat leaf.sym, dstPos := BitVec.ofNat 32 (u.dstPos.toNat + 1) } K j') := by
            unfold decodeSymbol
            simp only [hroot', hleft, h4, Eff.andThen_done, hbyte]
            rw [← hinc]
            rfl
          have hrest := ih (u := { u with
              dst := u.dst.write u.dstPos.toNat leaf.sym, dstPos := BitVec.ofNat 32 (u.dstPos.toNat + 1) })
            (j := j') (rounds := rounds) (syms := syms') ha hs h2 (by omega) hsy (fun _ => by
              show (BitVec.ofNat 32 (u.dstPos.toNat + 1)).toNat + syms'.length ≤ u.cfg.dstSize.toNat
              rw [hposn]; omega)
          rw [decodeSymbols, heos]
          simp only [Bool.false_eq_true, if_false, hsym, Eff.andThen_done, hrest, hposn, List.length_cons]
          rw [show u.dstPos.toNat + 1 + syms'.length = u.dstPos.toNat + (syms'.length + 1) by omega]
          rfl

/-- The state HT.DECODE leaves after a sequence of K bits that decodes to syms (R205). -/
def decodedState (s : State) (K : Nat) (syms : List Byte) : State :=
  { readerAt s K K with
    brOpen := false
    dst := s.dst.writeBytes s.dstPos.toNat syms
    dstPos := BitVec.ofNat 32 (s.dstPos.toNat + syms.length) }

/-- HT.DECODE on a block whose bits decode, with room for the symbols (R205). -/
theorem decodeSource_ok {s : State} {K : Nat} {syms : List Byte} (hb : s.bwOpen = false)
    (hs : s.srcEnd.toNat ≤ s.cfg.srcSize.toNat) (hK : memRead s.src s.srcPos.toNat 4 = K)
    (ha : s.srcPos.toNat + 4 + ceil8 K ≤ s.srcEnd.toNat)
    (h : decodeBits s.node (bitsOf (s.src.readBytes (s.srcPos.toNat + 4) (ceil8 K)) K) = some syms)
    (hr : syms ≠ [] → s.dstPos.toNat + syms.length ≤ s.cfg.dstSize.toNat) :
    decodeSource s = .done () (decodedState s K syms) := by
  have hK32 : K < 2 ^ 32 := by
    have := memRead_lt s.src s.srcPos.toNat 4
    omega
  rw [decodeBits, bitsOf_stream] at h
  have hloop := decodeSymbols_readerAt (u := s) (j := 0) (passes := K) (syms := syms) hK32 ha hs (by omega) (by omega)
    h hr
  have hleft : bitsLeft (readerAt s K 0) = K := by
    simp only [bitsLeft, readerAt, BitVec.toNat_ofNat]
    rw [Nat.mod_eq_of_lt hK32]; simp
  rw [decodeSource, if_neg (by simp [hb]), readerOpen_eq_readerAt (by rw [srcAvail_eq]; omega) hs, hK,
    Eff.andThen_done, hleft, hloop]
  rfl

end Sys2Proof.Machine
end

