-- ==== Sys2Proof/Laws/Writer.lean ====
section
/-! SUPPORT. What the bit writer does (spec/40_bitwriter.md): each step's cases, then the writer as a stream: after BW.OPEN
and the writes of a bit list its state is one closed form, and its release leaves the bit-sequence block. -/

namespace Sys2Proof.Machine

/-! ## The cases of each step -/

theorem writerOpen_busy {s : State} (h : s.bwOpen = true) : writerOpen s = .raised (illegalOp .bwState) s := by
  simp [writerOpen, h]

theorem writerOpen_full {s : State} (h : s.bwOpen = false) (hr : s.cfg.dstSize.toNat < s.dstPos.toNat + 4) :
    writerOpen s = .raised (capacity .sinkRange) s := by simp [writerOpen, h, hr]

theorem writerOpen_ok {s : State} (h : s.bwOpen = false) (hr : s.dstPos.toNat + 4 ≤ s.cfg.dstSize.toNat) :
    writerOpen s = .done () { s with
      bwHdr := s.dstPos, dst := s.dst.writeBytes s.dstPos.toNat (leBytes 4 0), dstPos := s.dstPos + 4,
      bwCnt := 0, bwAcc := 0, bwOpen := true } := by
  have hm := memWrite_ok (s := { s with bwHdr := s.dstPos }) (a := s.dstPos.toNat) (n := 4) (v := 0) hr
  rw [writerOpen, if_neg (by simp [h]), if_neg (by omega), hm]
  rfl

theorem writerBit_closed {s : State} (b : Bool) (h : s.bwOpen = false) :
    writerBit b s = .raised (illegalOp .bwState) s := by simp [writerBit, h]

theorem writerBit_overflow {s : State} (b : Bool) (h : s.bwOpen = true) (hc : s.bwCnt = 0xFFFFFFFF#32) :
    writerBit b s = .raised (capacity .bitcntOverflow) s := by simp [writerBit, h, hc]

theorem writerBit_partial {s : State} (b : Bool) (h : s.bwOpen = true) (hc : s.bwCnt ≠ 0xFFFFFFFF#32)
    (hk : s.bwCnt.toNat % 8 ≠ 7) :
    writerBit b s = .done () { s with bwAcc := packBit s.bwAcc (s.bwCnt.toNat % 8) b, bwCnt := s.bwCnt + 1 } := by
  simp [writerBit, h, hc, hk]

theorem writerBit_full {s : State} (b : Bool) (h : s.bwOpen = true) (hc : s.bwCnt ≠ 0xFFFFFFFF#32)
    (hk : s.bwCnt.toNat % 8 = 7) (ha : s.cfg.dstSize.toNat ≤ payloadAddr s) :
    writerBit b s = .raised (capacity .sinkRange) s := by simp [writerBit, h, hc, hk, dstByte_full _ ha]

theorem writerBit_byte {s : State} (b : Bool) (h : s.bwOpen = true) (hc : s.bwCnt ≠ 0xFFFFFFFF#32)
    (hk : s.bwCnt.toNat % 8 = 7) (ha : payloadAddr s < s.cfg.dstSize.toNat) :
    writerBit b s = .done () { s with
      dst := s.dst.write (payloadAddr s) (packBit s.bwAcc 7 b), bwAcc := 0,
      dstPos := BitVec.ofNat 32 (payloadAddr s + 1), bwCnt := s.bwCnt + 1 } := by
  simp [writerBit, h, hc, hk, dstByte_ok _ ha]

theorem writerFlush_closed {s : State} (h : s.bwOpen = false) : writerFlush s = .done () s := by simp [writerFlush, h]

theorem writerFlush_full {s : State} (h : s.bwOpen = true) (hk : s.bwCnt.toNat % 8 ≠ 0)
    (ha : s.cfg.dstSize.toNat ≤ payloadAddr s) : writerFlush s = .raised (capacity .sinkRange) s := by
  simp [writerFlush, h, flushPartial, hk, dstByte_full _ ha]

/-- The sink after a flush that does not raise (R123). -/
def flushedDst (s : State) : Memory :=
  (if s.bwCnt.toNat % 8 = 0 then s.dst else s.dst.write (payloadAddr s) s.bwAcc).writeBytes s.bwHdr.toNat
    (leBytes 4 s.bwCnt.toNat)

/-- Byte j of a 32-bit integer as stored (R7, R50). -/
theorem leBytes_word (w : Word) {j : Nat} (hj : j < 4) : (leBytes 4 w.toNat)[j]? = some (w.extractLsb' (8 * j) 8) := by
  have h : (leBytes 4 w.toNat)[j]? = some (BitVec.ofNat 8 (w.toNat / 2 ^ (8 * j))) := by
    interval_cases j <;> simp [leBytes, Nat.div_div_eq_div_mul]
  rw [h, Option.some_inj]
  apply BitVec.eq_of_toNat_eq
  rw [BitVec.toNat_ofNat, BitVec.extractLsb'_toNat, Nat.shiftRight_eq_div_pow]

theorem wf_flushedDst {s : State} (hd : s.dst.wf) : (flushedDst s).wf := by
  unfold flushedDst
  exact Memory.wf_writeBytes (by split; exacts [hd, Memory.wf_write hd _ _]) _ _

/-- Byte by byte, the sink after a flush (R123). -/
theorem read_flushedDst {s : State} (hd : s.dst.wf) (x : Nat) : (flushedDst s).read x = flushedByte s x := by
  unfold flushedDst flushedByte payloadAddr
  rw [Memory.read_writeBytes _ (by split; exacts [hd, Memory.wf_write hd _ _])]
  by_cases hx : s.bwHdr.toNat ≤ x ∧ x < s.bwHdr.toNat + 4
  · rw [if_pos hx.1, if_pos hx, leBytes_word _ (by omega), Option.getD_some]
  · rw [if_neg hx]
    have h : (if s.bwHdr.toNat ≤ x then (leBytes 4 s.bwCnt.toNat)[x - s.bwHdr.toNat]? else none) = none := by
      split
      · exact List.getElem?_eq_none (by simp; omega)
      · rfl
    split at h
    · rw [if_pos (by assumption), h]
      by_cases hk : s.bwCnt.toNat % 8 = 0
      · simp [hk]
      · simp [hk, Memory.read_write _ hd]
    · rw [if_neg (by assumption)]
      by_cases hk : s.bwCnt.toNat % 8 = 0
      · simp [hk]
      · simp [hk, Memory.read_write _ hd]

theorem writerFlush_ok {s : State} (h : s.bwOpen = true) (hh : s.bwHdr.toNat + 4 ≤ s.cfg.dstSize.toNat)
    (ha : s.bwCnt.toNat % 8 ≠ 0 → payloadAddr s < s.cfg.dstSize.toNat) :
    writerFlush s = .done () { s with
      dst := flushedDst s, dstPos := BitVec.ofNat 32 (s.bwHdr.toNat + 4 + ceil8 s.bwCnt.toNat) } := by
  by_cases hk : s.bwCnt.toNat % 8 = 0
  · simp only [writerFlush, h, Bool.not_true, Bool.false_eq_true, if_false, flushPartial, hk, if_true, Eff.andThen_done]
    rw [memWrite_ok (by simpa using hh)]
    simp [flushedDst, hk]
  · simp only [writerFlush, h, Bool.not_true, Bool.false_eq_true, if_false, flushPartial, hk, dstByte_ok _ (ha hk),
      Eff.andThen_done]
    rw [memWrite_ok (by simpa using hh)]
    simp [flushedDst, hk]

theorem writerDestroy_closed {s : State} (h : s.bwOpen = false) : writerDestroy s = .done () s := by
  simp [writerDestroy, h]

theorem writerDestroy_ok {s : State} (h : s.bwOpen = true) (hh : s.bwHdr.toNat + 4 ≤ s.cfg.dstSize.toNat)
    (ha : s.bwCnt.toNat % 8 ≠ 0 → payloadAddr s < s.cfg.dstSize.toNat) :
    writerDestroy s = .done () { s with
      dst := flushedDst s, dstPos := BitVec.ofNat 32 (s.bwHdr.toNat + 4 + ceil8 s.bwCnt.toNat), bwOpen := false } := by
  simp [writerDestroy, h, writerFlush_ok h hh ha]

theorem writerDestroy_full {s : State} (h : s.bwOpen = true) (hk : s.bwCnt.toNat % 8 ≠ 0)
    (ha : s.cfg.dstSize.toNat ≤ payloadAddr s) :
    writerDestroy s = .raised (capacity .sinkRange) { s with bwOpen := false } := by
  simp [writerDestroy, h, writerFlush_full h hk ha]

/-! ## The writer as a stream -/

/-- The state u with a writer opened at its DST_POS that has taken these bits (R121, R122, R127). -/
def writerAt (u : State) (bits : List Bool) : State :=
  { u with
    bwOpen := true
    bwHdr := u.dstPos
    bwCnt := BitVec.ofNat 32 bits.length
    bwAcc := payloadByte bits (bits.length / 8)
    dst := u.dst.writeBytes u.dstPos.toNat (openBlock bits)
    dstPos := BitVec.ofNat 32 (u.dstPos.toNat + 4 + bits.length / 8) }

/-- BW_CNT counts the bits taken. -/
theorem writerAt_bwCnt (u : State) {bits : List Bool} (hn : bits.length < 2 ^ 32) :
    (writerAt u bits).bwCnt.toNat = bits.length := by
  simp only [writerAt, BitVec.toNat_ofNat]
  exact Nat.mod_eq_of_lt hn

theorem writerAt_payloadAddr (u : State) {bits : List Bool} (hn : bits.length < 2 ^ 32) :
    payloadAddr (writerAt u bits) = u.dstPos.toNat + 4 + bits.length / 8 := by
  rw [payloadAddr, writerAt_bwCnt u hn]
  rfl

theorem writerOpen_eq_writerAt {u : State} (h : u.bwOpen = false) (hr : u.dstPos.toNat + 4 ≤ u.cfg.dstSize.toNat) :
    writerOpen u = .done () (writerAt u []) := by
  rw [writerOpen_ok h hr]
  have h1 : u.dstPos + 4#32 = BitVec.ofNat 32 (u.dstPos.toNat + 4) := by
    apply BitVec.eq_of_toNat_eq; simp
  have h2 : payloadByte [] 0 = 0 := payloadByte_beyond [] (by simp)
  simp [writerAt, openBlock, h1, h2]

theorem completeBytes_append (bits : List Bool) (b : Bool) :
    (List.range (bits.length / 8)).map (payloadByte (bits ++ [b])) = (List.range (bits.length / 8)).map (payloadByte bits) :=
  List.map_congr_left fun j hj => payloadByte_append bits [b] (by have := List.mem_range.1 hj; omega)

/-- One more bit (R122). -/
theorem writerBit_writerAt {u : State} {bits : List Bool} (b : Bool) (hn : bits.length + 1 < 2 ^ 32)
    (hr : u.dstPos.toNat + 4 + (bits.length + 1) / 8 ≤ u.cfg.dstSize.toNat) :
    writerBit b (writerAt u bits) = .done () (writerAt u (bits ++ [b])) := by
  have hcnt := writerAt_bwCnt u (bits := bits) (by omega)
  have hne : (writerAt u bits).bwCnt ≠ 0xFFFFFFFF#32 := fun h => by
    rw [h] at hcnt
    simp at hcnt; omega
  have hsucc : BitVec.ofNat 32 bits.length + 1 = BitVec.ofNat 32 (bits.length + 1) := by
    apply BitVec.eq_of_toNat_eq; simp
  by_cases hk : bits.length % 8 = 7
  · have haddr := writerAt_payloadAddr u (bits := bits) (by omega)
    rw [writerBit_byte b rfl hne (by rw [hcnt]; exact hk) (by rw [haddr]; show _ < u.cfg.dstSize.toNat; omega)]
    congr 1
    have hdiv : (bits.length + 1) / 8 = bits.length / 8 + 1 := by omega
    have hpack : packBit (payloadByte bits (bits.length / 8)) 7 b = payloadByte (bits ++ [b]) (bits.length / 8) := by
      rw [← hk]; exact packBit_payloadByte bits b
    have hzero : payloadByte (bits ++ [b]) (bits.length / 8 + 1) = 0 := payloadByte_beyond _ (by simp; omega)
    rw [haddr]
    simp only [writerAt, openBlock, List.length_append, List.length_singleton, hdiv, hzero, hsucc, hpack,
      List.range_succ, List.map_append, List.map_singleton, completeBytes_append]
    simp [Memory.writeBytes_append, Memory.writeBytes, Nat.add_assoc]
  · rw [writerBit_partial b rfl hne (by rw [hcnt]; exact hk), hcnt]
    have hdiv : (bits.length + 1) / 8 = bits.length / 8 := by omega
    simp only [writerAt, openBlock, List.length_append, List.length_singleton, hdiv, hsucc, packBit_payloadByte,
      completeBytes_append]

/-- A bit that cannot be written leaves the writer as it was (R122). -/
theorem writerBit_writerAt_fails {u : State} {bits : List Bool} {e : Exc} (b : Bool) (h : writeFails u bits.length e) :
    writerBit b (writerAt u bits) = .raised e (writerAt u bits) := by
  have hcnt := writerAt_bwCnt u (bits := bits) (by rcases h with ⟨h, -⟩ | ⟨h, -⟩ <;> omega)
  rcases h with ⟨h, rfl⟩ | ⟨h1, h2, h3, rfl⟩
  · exact writerBit_overflow b rfl (BitVec.eq_of_toNat_eq (by rw [hcnt, h]; rfl))
  · refine writerBit_full b rfl (fun h => ?_) (by rw [hcnt]; exact h2) ?_
    · rw [h] at hcnt
      simp at hcnt; omega
    · rw [writerAt_payloadAddr u (by omega)]
      exact h3

/-- The sink a released writer leaves: the block of the bits (R127, R87). -/
theorem flushedDst_writerAt {u : State} (hu : u.dst.wf) {bits : List Bool} (hn : bits.length < 2 ^ 32) :
    flushedDst (writerAt u bits) = u.dst.writeBytes u.dstPos.toNat (bitBlock bits) := by
  have hpart : (if bits.length % 8 = 0 then (writerAt u bits).dst
        else (writerAt u bits).dst.write (u.dstPos.toNat + 4 + bits.length / 8) (payloadByte bits (bits.length / 8)))
      = u.dst.writeBytes u.dstPos.toNat (leBytes 4 0 ++ payload bits) := by
    split
    · next h => simp only [writerAt, openBlock, payload, show ceil8 bits.length = bits.length / 8 by unfold ceil8; omega]
    · next h =>
      have hc : ceil8 bits.length = bits.length / 8 + 1 := by unfold ceil8; omega
      simp only [writerAt, openBlock, payload, hc, List.range_succ, List.map_append, List.map_singleton]
      simp [Memory.writeBytes_append, Memory.writeBytes, Nat.add_assoc]
  have hfl : flushedDst (writerAt u bits)
      = (u.dst.writeBytes u.dstPos.toNat (leBytes 4 0 ++ payload bits)).writeBytes u.dstPos.toNat
          (leBytes 4 bits.length) := by
    rw [← hpart]
    simp only [flushedDst, payloadAddr]
    simp only [writerAt_bwCnt u hn]
    rfl
  rw [hfl]
  refine Memory.ext (Memory.wf_writeBytes (Memory.wf_writeBytes hu _ _) _ _) (Memory.wf_writeBytes hu _ _) fun x => ?_
  rw [Memory.read_writeBytes _ (Memory.wf_writeBytes hu _ _), Memory.read_writeBytes _ hu, Memory.read_writeBytes _ hu]
  split
  · by_cases h4 : x - u.dstPos.toNat < 4
    · have h5 : x - u.dstPos.toNat < (leBytes 4 bits.length).length := by simpa using h4
      rw [bitBlock, List.getElem?_append_left h5, List.getElem?_eq_getElem h5]
      rfl
    · rw [List.getElem?_eq_none (l := leBytes 4 bits.length) (by simp; omega), Option.getD_none]
      rw [bitBlock, List.getElem?_append_right (by simp; omega), List.getElem?_append_right (by simp; omega)]
      simp
  · rfl

/-- The release of a writer (R125, R127, R204). -/
theorem writerDestroy_writerAt {u : State} (hu : u.dst.wf) {bits : List Bool} (hn : bits.length < 2 ^ 32)
    (hr : u.dstPos.toNat + 4 + ceil8 bits.length ≤ u.cfg.dstSize.toNat) :
    writerDestroy (writerAt u bits) = .done () { u with
      bwOpen := false
      bwHdr := u.dstPos
      bwCnt := BitVec.ofNat 32 bits.length
      bwAcc := payloadByte bits (bits.length / 8)
      dst := u.dst.writeBytes u.dstPos.toNat (bitBlock bits)
      dstPos := BitVec.ofNat 32 (u.dstPos.toNat + 4 + ceil8 bits.length) } := by
  have hcnt := writerAt_bwCnt u hn
  rw [writerDestroy_ok rfl (show u.dstPos.toNat + 4 ≤ u.cfg.dstSize.toNat by omega) (fun hk => by
    rw [hcnt] at hk; rw [writerAt_payloadAddr u hn]; show _ < u.cfg.dstSize.toNat
    unfold ceil8 at hr; omega)]
  rw [flushedDst_writerAt hu hn, hcnt]
  rfl

/-- The release where the byte in progress has no place in DST: it raises, and the header stays (R123, R125). -/
theorem writerDestroy_writerAt_full {u : State} {bits : List Bool} (hn : bits.length < 2 ^ 32) (hk : bits.length % 8 ≠ 0)
    (ha : u.cfg.dstSize.toNat ≤ u.dstPos.toNat + 4 + bits.length / 8) :
    writerDestroy (writerAt u bits) = .raised (capacity .sinkRange) { writerAt u bits with bwOpen := false } :=
  writerDestroy_full rfl (by rw [writerAt_bwCnt u hn]; exact hk) (by rw [writerAt_payloadAddr u hn]; exact ha)

end Sys2Proof.Machine
end

