-- ==== Sys2Proof/Laws/Encode.lean ====
section
/-! SUPPORT. What HT.ENCODE does (spec/44_tree_transcode.md R201 to R204): the walk up pushes the sides, the emission
writes them in reverse, the symbol loop writes the code words of the input, and the command leaves the bit-sequence
block; where a symbol cannot be encoded or a bit cannot be written, what the release can complete of the bits before it. -/

namespace Sys2Proof.Machine

/-! ## The side-bit stack -/

/-- The pushes of a list of sides, first element first. -/
def pushAll (sides : List Bool) (s : State) : State := sides.foldl (fun s b => pushSide b s) s

@[simp] theorem pushAll_nil (s : State) : pushAll [] s = s := rfl

@[simp] theorem pushAll_cons (b : Bool) (sides : List Bool) (s : State) :
    pushAll (b :: sides) s = pushAll sides (pushSide b s) := rfl

/-- Pushes change STK and SP only. -/
theorem pushAll_eq (sides : List Bool) (s : State) :
    pushAll sides s = { s with stk := (pushAll sides s).stk, sp := s.sp + sides.length } := by
  induction sides generalizing s with
  | nil => rfl
  | cons b sides ih =>
    rw [pushAll_cons, ih]
    simp [pushSide, Nat.add_assoc, Nat.add_comm 1]

/-- A push on the state of an open writer. -/
theorem pushAll_writerAt (sides : List Bool) (u : State) (bits : List Bool) :
    pushAll sides (writerAt u bits) = writerAt (pushAll sides u) bits := by
  induction sides generalizing u with
  | nil => rfl
  | cons b sides ih => exact ih (pushSide b u)

theorem stkBit_pushSide (b : Bool) (s : State) {j : Nat} (hj : j < stkDepth) :
    (pushSide b s).stkBit j = if j = s.sp then b else s.stkBit j := by
  unfold State.stkBit pushSide
  simp only [Vector.getElem?_setIfInBounds]
  by_cases h : s.sp = j
  · subst h; simp [show s.sp < 256 from hj]
  · simp [h, Ne.symm h]

/-- After the pushes, entry SP + i is side i, and the entries below are untouched. -/
theorem stkBit_pushAll (sides : List Bool) (s : State) (h : s.sp + sides.length ≤ stkDepth) (j : Nat)
    (hj : j < s.sp + sides.length) :
    (pushAll sides s).stkBit j = if j < s.sp then s.stkBit j else sides[j - s.sp]?.getD false := by
  induction sides generalizing s with
  | nil => simp at hj; simp [hj]
  | cons b sides ih =>
    simp only [List.length_cons] at h hj
    rw [pushAll_cons, ih (pushSide b s) (by simp; omega) (by simp; omega), pushSide_sp,
      stkBit_pushSide _ _ (by omega)]
    rcases Nat.lt_trichotomy j s.sp with h1 | h1 | h1
    · simp [h1, show j < s.sp + 1 by omega, show j ≠ s.sp by omega]
    · subst h1; simp
    · simp only [show ¬ j < s.sp + 1 by omega, show ¬ j < s.sp by omega, if_false]
      rw [show j - s.sp = (j - (s.sp + 1)) + 1 by omega, List.getElem?_cons_succ]

/-! ## The walk up and the emission -/

theorem sidesUp_length {nodes : List Node} {room : Nat} {nd : Node} {sides : List Bool}
    (h : sidesUp nodes room nd = some sides) : sides.length ≤ room := by
  induction room generalizing nd sides with
  | zero =>
    unfold sidesUp at h
    split at h <;> simp_all
  | succ room ih =>
    unfold sidesUp at h
    split at h
    · simp_all
    · split at h
      · simp at h
      · obtain ⟨up, hup, rfl⟩ := Option.map_eq_some_iff.1 h
        simpa using ih hup

/-- The walk pushes the sides of R89, leaf to root (R203). -/
theorem walkUp_ok {room : Nat} {nd : Node} {s : State} {sides : List Bool}
    (h : sidesUp s.node room nd = some sides) : walkUp room nd s = .done () (pushAll sides s) := by
  induction room generalizing nd s sides with
  | zero =>
    unfold sidesUp at h
    unfold walkUp
    split at h <;> simp_all
  | succ room ih =>
    unfold sidesUp at h
    unfold walkUp
    split at h
    · simp_all
    · next hne =>
      rw [if_neg hne]
      split at h
      · simp at h
      · next p hp =>
        obtain ⟨up, hup, rfl⟩ := Option.map_eq_some_iff.1 h
        simp only [pushSide_node, hp]
        exact ih (s := pushSide nd.side s) hup

/-- The emission writes the sides root to leaf (R201, R89). -/
theorem emitBits_writerAt {sides : List Bool} {u : State} {bits : List Bool} (hsp : u.sp = sides.length)
    (hstk : ∀ j, j < sides.length → u.stkBit j = sides[j]?.getD false)
    (hn : bits.length + sides.length < 2 ^ 32)
    (hr : u.dstPos.toNat + 4 + (bits.length + sides.length) / 8 ≤ u.cfg.dstSize.toNat) :
    emitBits sides.length (writerAt u bits) = .done () (writerAt { u with sp := 0 } (bits ++ sides.reverse)) := by
  induction sides using List.reverseRecOn generalizing u bits with
  | nil =>
    have : u = { u with sp := 0 } := by
      rw [← show u.sp = 0 from hsp]
    simp only [List.length_nil, List.reverse_nil, List.append_nil]
    rw [← this]; rfl
  | append_singleton sides b ih =>
    simp only [List.length_append, List.length_singleton] at *
    have hb : u.stkBit sides.length = b := by rw [hstk _ (by omega)]; simp
    have hbit : ({ writerAt u bits with sp := sides.length } : State).stkBit sides.length = b := hb
    have hstep := writerBit_writerAt (u := { u with sp := sides.length }) (bits := bits) b (by omega)
      (show u.dstPos.toNat + 4 + (bits.length + 1) / 8 ≤ u.cfg.dstSize.toNat by omega)
    have hrest := ih (u := { u with sp := sides.length }) (bits := bits ++ [b]) rfl
      (fun j hj => by
        show u.stkBit j = _
        rw [hstk j (by omega), List.getElem?_append_left hj])
      (by simp only [List.length_append, List.length_singleton]; omega)
      (by
        simp only [List.length_append, List.length_singleton]
        rw [show bits.length + 1 + sides.length = bits.length + (sides.length + 1) by omega]; exact hr)
    unfold emitBits
    simp only [hbit]
    rw [show ({ writerAt u bits with sp := sides.length } : State) = writerAt { u with sp := sides.length } bits from rfl,
      hstep]
    simp only
    rw [hrest]
    simp

/-- The emission where a bit cannot be written: the bits before it are (R201). -/
theorem emitBits_cut {sides : List Bool} {u : State} {bits : List Bool} {k : Nat} {e : Exc} (hk : k < sides.length)
    (hstk : ∀ j, j < sides.length → u.stkBit j = sides[j]?.getD false)
    (hr : u.dstPos.toNat + 4 + (bits.length + k) / 8 ≤ u.cfg.dstSize.toNat) (he : writeFails u (bits.length + k) e) :
    emitBits sides.length (writerAt u bits)
      = .raised e (writerAt { u with sp := 0 } (bits ++ sides.reverse.take k)) := by
  induction sides using List.reverseRecOn generalizing u bits k with
  | nil => simp at hk
  | append_singleton sides b ih =>
    simp only [List.length_append, List.length_singleton] at *
    have hbit : ({ writerAt u bits with sp := sides.length } : State).stkBit sides.length = b := by
      show u.stkBit sides.length = b
      rw [hstk _ (by omega)]; simp
    unfold emitBits
    simp only [hbit]
    rw [show ({ writerAt u bits with sp := sides.length } : State) = writerAt { u with sp := sides.length } bits from rfl]
    cases k with
    | zero =>
      rw [writerBit_writerAt_fails b (u := { u with sp := sides.length }) he]
      simp [writerAt]
    | succ k =>
      have hn : bits.length + (k + 1) < 2 ^ 32 := by rcases he with ⟨h, -⟩ | ⟨h, -⟩ <;> omega
      rw [writerBit_writerAt (u := { u with sp := sides.length }) b (by omega)
        (show u.dstPos.toNat + 4 + (bits.length + 1) / 8 ≤ u.cfg.dstSize.toNat by omega)]
      have hlen : (bits ++ [b]).length + k = bits.length + (k + 1) := by simp; omega
      simp only
      rw [ih (u := { u with sp := sides.length }) (bits := bits ++ [b]) (k := k) (by omega)
        (fun j hj => by
          show u.stkBit j = _
          rw [hstk j (by omega), List.getElem?_append_left hj])
        (by rw [hlen]; exact hr) (by rw [hlen]; exact he)]
      simp

/-- The walk up from the leaf of a symbol with a code word, on the state of an open writer (R203). -/
theorem walkUp_codeWord {u : State} {word : List Bool} {v : Byte} (hw : codeWord u.node v = some word) (bits : List Bool) :
    ∃ (nd : Node) (stk : Vector Bool 256), locateLeaf (writerAt u bits) v = some nd ∧
      walkUp stkDepth nd { writerAt u bits with sp := 0 } = .done () (writerAt { u with stk := stk, sp := word.length } bits) ∧
      ∀ j, j < word.length → ({ u with stk := stk, sp := word.length } : State).stkBit j = word.reverse[j]?.getD false := by
  unfold codeWord at hw
  obtain ⟨nd, hnd, hw⟩ := Option.bind_eq_some_iff.1 hw
  obtain ⟨sides, hs, rfl⟩ := Option.map_eq_some_iff.1 hw
  have hlen := sidesUp_length hs
  have heq := pushAll_eq sides { u with sp := 0 }
  refine ⟨nd, (pushAll sides { u with sp := 0 }).stk, hnd, ?_, fun j hj => ?_⟩
  · rw [walkUp_ok (s := { writerAt u bits with sp := 0 }) hs,
      show pushAll sides ({ writerAt u bits with sp := 0 } : State)
        = writerAt (pushAll sides { u with sp := 0 }) bits from pushAll_writerAt sides { u with sp := 0 } bits, heq]
    simp
  · rw [List.length_reverse] at hj
    have := stkBit_pushAll sides { u with sp := 0 } (by simpa using hlen) j (by simpa using hj)
    simpa [State.stkBit] using this

/-- One symbol with a code word: the word is written (R201). -/
theorem encodeSymbol_writerAt {u : State} {bits word : List Bool} {v : Byte} (hw : codeWord u.node v = some word)
    (hn : bits.length + word.length < 2 ^ 32)
    (hr : u.dstPos.toNat + 4 + (bits.length + word.length) / 8 ≤ u.cfg.dstSize.toNat) :
    ∃ stk, encodeSymbol v (writerAt u bits) = .done () (writerAt { u with stk := stk, sp := 0 } (bits ++ word)) := by
  obtain ⟨nd, stk, hloc, hwalk, hstk⟩ := walkUp_codeWord hw bits
  have h := emitBits_writerAt (sides := word.reverse) (u := { u with stk := stk, sp := word.length }) (bits := bits)
    (by simp) (by simpa using hstk) (by simpa using hn) (by simpa using hr)
  rw [List.length_reverse, List.reverse_reverse] at h
  refine ⟨stk, ?_⟩
  simp only [encodeSymbol, hloc, hwalk, Eff.andThen_done]
  exact h

/-- One symbol with a code word of which a bit cannot be written: the bits before it are (R201). -/
theorem encodeSymbol_cut {u : State} {bits word : List Bool} {v : Byte} {k : Nat} {e : Exc}
    (hw : codeWord u.node v = some word) (hk : k < word.length)
    (hr : u.dstPos.toNat + 4 + (bits.length + k) / 8 ≤ u.cfg.dstSize.toNat) (he : writeFails u (bits.length + k) e) :
    ∃ stk, encodeSymbol v (writerAt u bits)
      = .raised e (writerAt { u with stk := stk, sp := 0 } (bits ++ word.take k)) := by
  obtain ⟨nd, stk, hloc, hwalk, hstk⟩ := walkUp_codeWord hw bits
  have h := emitBits_cut (sides := word.reverse) (u := { u with stk := stk, sp := word.length }) (bits := bits)
    (by simpa using hk) (by simpa using hstk) hr he
  rw [List.length_reverse, List.reverse_reverse] at h
  refine ⟨stk, ?_⟩
  simp only [encodeSymbol, hloc, hwalk, Eff.andThen_done]
  exact h

/-! ## The symbol loop -/

/-- The state of an open writer, with the source read to its end. -/
theorem encodeSymbols_writerAt {u : State} {bits ws : List Bool} (hs : u.srcEnd.toNat ≤ u.cfg.srcSize.toNat)
    (hsp : u.sp = 0) (hw : codeBits u.node u.input = some ws) (hn : bits.length + ws.length < 2 ^ 32)
    (hr : u.dstPos.toNat + 4 + (bits.length + ws.length) / 8 ≤ u.cfg.dstSize.toNat) :
    ∃ stk, encodeSymbols (srcAvail u + 1) (writerAt u bits) = .done () (writerAt
      { u with srcPos := BitVec.ofNat 32 (max u.srcPos.toNat u.srcEnd.toNat), srcEof := true, stk := stk, sp := 0 }
      (bits ++ ws)) := by
  induction hav : srcAvail u generalizing u bits ws with
  | zero =>
    rw [input_nil hav] at hw
    cases hw
    refine ⟨u.stk, ?_⟩
    have h1 : srcNext (writerAt u bits) = .done none (writerAt { u with srcEof := true } bits) :=
      srcNext_eof (s := writerAt u bits) hav
    have h2 : max u.srcPos.toNat u.srcEnd.toNat = u.srcPos.toNat := by rw [srcAvail_eq] at hav; omega
    simp only [encodeSymbols, h1, Eff.andThen_done, h2, BitVec.ofNat_toNat, BitVec.setWidth_eq, List.append_nil]
    rw [← hsp]
  | succ n ih =>
    have hne : srcAvail u ≠ 0 := by omega
    rw [input_cons hne] at hw
    obtain ⟨w, hw1, hw⟩ := Option.bind_eq_some_iff.1 hw
    obtain ⟨ws', hw2, rfl⟩ := Option.map_eq_some_iff.1 hw
    simp only [List.length_append] at hn hr
    have h1 : srcNext (writerAt u bits)
        = .done (some (u.src.read u.srcPos.toNat)) (writerAt { u with srcPos := u.srcPos + 1 } bits) :=
      srcNext_byte (s := writerAt u bits) hne hs
    obtain ⟨stk1, h2⟩ := encodeSymbol_writerAt (u := { u with srcPos := u.srcPos + 1 }) (bits := bits) hw1 (by omega)
      (show u.dstPos.toNat + 4 + (bits.length + w.length) / 8 ≤ u.cfg.dstSize.toNat by omega)
    have hav' : srcAvail { u with srcPos := u.srcPos + 1, stk := stk1, sp := 0 } = n := by
      rw [srcAvail_eq] at hav ⊢
      show u.srcEnd.toNat - (u.srcPos + 1).toNat = n
      rw [srcPos_succ hne]; omega
    obtain ⟨stk2, h3⟩ := ih (u := { u with srcPos := u.srcPos + 1, stk := stk1, sp := 0 }) (bits := bits ++ w) (ws := ws')
      hs rfl hw2 (by simp; omega)
      (show u.dstPos.toNat + 4 + ((bits ++ w).length + ws'.length) / 8 ≤ u.cfg.dstSize.toNat by
        simp only [List.length_append]; rw [Nat.add_assoc bits.length]; exact hr) hav'
    refine ⟨stk2, ?_⟩
    rw [encodeSymbols, h1, Eff.andThen_done]
    simp only
    rw [h2, Eff.andThen_done, h3]
    have hmax : max (u.srcPos + 1).toNat u.srcEnd.toNat = max u.srcPos.toNat u.srcEnd.toNat := by
      rw [srcPos_succ hne]; rw [srcAvail_eq] at hne; omega
    simp only [hmax, List.append_assoc]

/-! ## The command -/

/-- The state HT.ENCODE leaves after writing these bits and releasing its writer (R201, R127). -/
def encodedState (s : State) (bits : List Bool) (stk : Vector Bool 256) : State :=
  { s with
    bwOpen := false
    bwHdr := s.dstPos
    bwCnt := BitVec.ofNat 32 bits.length
    bwAcc := payloadByte bits (bits.length / 8)
    dst := s.dst.writeBytes s.dstPos.toNat (bitBlock bits)
    dstPos := BitVec.ofNat 32 (s.dstPos.toNat + 4 + ceil8 bits.length)
    stk := stk
    sp := 0 }

theorem srcPos_max (s : State) : BitVec.ofNat 32 (max s.srcPos.toNat s.srcEnd.toNat)
    = if s.srcPos.toNat ≤ s.srcEnd.toNat then s.srcEnd else s.srcPos := by
  split
  · next h => rw [Nat.max_eq_right h]; simp
  · next h => rw [Nat.max_eq_left (by omega)]; simp

/-- HT.ENCODE on an input all of whose symbols have a code word, with room for the block (R201). -/
theorem encodeSource_ok {s : State} {bits : List Bool} (hb : s.bwOpen = false)
    (hs : s.srcEnd.toNat ≤ s.cfg.srcSize.toNat) (hsp : s.sp = 0) (hd : s.dst.wf)
    (hw : codeBits s.node s.input = some bits) (hn : bits.length < 2 ^ 32)
    (hr : s.dstPos.toNat + 4 + ceil8 bits.length ≤ s.cfg.dstSize.toNat) :
    ∃ stk, encodeSource s = .done () { encodedState s bits stk with
      srcPos := BitVec.ofNat 32 (max s.srcPos.toNat s.srcEnd.toNat), srcEof := true } := by
  obtain ⟨stk, h⟩ := encodeSymbols_writerAt (u := s) (bits := []) hs hsp hw (by simpa using hn)
    (by simp only [List.length_nil, Nat.zero_add]; unfold ceil8 at hr; omega)
  refine ⟨stk, ?_⟩
  rw [encodeSource, if_neg (by simp [hb]), writerOpen_eq_writerAt hb (by omega), Eff.andThen_done,
    show srcAvail (writerAt s []) = srcAvail s from rfl, h, releaseWriter, List.nil_append,
    writerDestroy_writerAt (by exact hd) hn (by exact hr)]
  rfl

/-! ## Symbols without a code word -/

/-- The chain of parents, from its first step. -/
theorem ancestor_succ (nodes : List Node) (nd : Node) (k : Nat) : ancestor nodes nd (k + 1)
    = if nd.par = sentinel then none else (nodes[nd.par.toNat]?).bind fun p => ancestor nodes p k := by
  induction k with
  | zero =>
    simp only [ancestor, Option.bind_some]
    split
    · rfl
    · cases nodes[nd.par.toNat]? <;> rfl
  | succ k ih =>
    rw [ancestor, ih]
    split
    · rfl
    · rw [Option.bind_assoc]
      rfl

/-- The walk up fails where the chain of parents leaves the array, or goes on after `room` steps (R203). -/
theorem walkUp_fails {room k : Nat} {nd x : Node} {s : State} (hk : k ≤ room) (hx : ancestor s.node nd k = some x)
    (hp : x.par ≠ sentinel) (hc : k < room → s.node.length ≤ x.par.toNat) :
    ∃ stk, walkUp room nd s = .raised (if k = room then capacity .stackOverflow else formatErr .treeIndexRange)
      { s with stk := stk, sp := 0 } := by
  induction room generalizing nd s k with
  | zero =>
    obtain rfl : k = 0 := by omega
    cases hx
    exact ⟨s.stk, by simp [walkUp, hp]⟩
  | succ room ih =>
    cases k with
    | zero =>
      cases hx
      have hnone : s.node[x.par.toNat]? = none := List.getElem?_eq_none (hc (by omega))
      exact ⟨(pushSide x.side s).stk, by simp [walkUp, hp, hnone, pushSide]⟩
    | succ k =>
      rw [ancestor_succ] at hx
      split at hx
      · simp at hx
      · next hne =>
        obtain ⟨p, hpar, hx⟩ := Option.bind_eq_some_iff.1 hx
        obtain ⟨stk, h⟩ := ih (s := pushSide nd.side s) (nd := p) (k := k) (by omega) hx fun hlt => hc (by omega)
        refine ⟨stk, ?_⟩
        rw [walkUp, if_neg hne]
        simp only [pushSide_node, hpar, h]
        simp [pushSide]

/-- A symbol that fails leaves the writer as it was (R201, R202, R203). -/
theorem encodeSymbol_fails {u : State} (hsp : u.sp = 0) {bits : List Bool} {v : Byte} {e : Exc}
    (hv : symbolFails u.node v e) :
    ∃ stk, encodeSymbol v (writerAt u bits) = .raised e (writerAt { u with stk := stk, sp := 0 } bits) := by
  unfold symbolFails at hv
  unfold encodeSymbol
  cases hl : leafOf u.node v with
  | none =>
    rw [hl] at hv
    have hloc : locateLeaf (writerAt u bits) v = none := hl
    rw [hloc]
    subst hv
    exact ⟨u.stk, by rw [← hsp]⟩
  | some leaf =>
    rw [hl] at hv
    have hloc : locateLeaf (writerAt u bits) v = some leaf := hl
    rw [hloc]
    rcases hv with ⟨rfl, k, hk, x, hx, hp, hr⟩ | ⟨rfl, x, hx, hp⟩
    · obtain ⟨stk, h⟩ := walkUp_fails (s := { writerAt u bits with sp := 0 }) (room := stkDepth) (Nat.le_of_lt hk) hx hp
        fun _ => hr
      exact ⟨stk, by simp only [h, if_neg (Nat.ne_of_lt hk), Eff.andThen_raised]; rfl⟩
    · obtain ⟨stk, h⟩ := walkUp_fails (s := { writerAt u bits with sp := 0 }) (room := stkDepth) (Nat.le_refl _) hx hp
        fun h => absurd h (Nat.lt_irrefl _)
      exact ⟨stk, by simp only [h, if_true, Eff.andThen_raised]; rfl⟩

/-- A symbol has a code word or fails. -/
theorem codeWord_or_fails (nodes : List Node) (v : Byte) : (∃ w, codeWord nodes v = some w) ∨ ∃ e, symbolFails nodes v e := by
  unfold codeWord symbolFails
  cases leafOf nodes v with
  | none => exact .inr ⟨_, rfl⟩
  | some leaf =>
    have key : ∀ (room : Nat) (nd : Node), (∃ up, sidesUp nodes room nd = some up) ∨ (∃ k < room, ∃ x,
        ancestor nodes nd k = some x ∧ x.par ≠ sentinel ∧ nodes.length ≤ x.par.toNat) ∨
        ∃ x, ancestor nodes nd room = some x ∧ x.par ≠ sentinel := by
      intro room
      induction room with
      | zero =>
        intro nd
        by_cases hp : nd.par = sentinel
        · exact .inl ⟨[], by simp [sidesUp, hp]⟩
        · exact .inr (.inr ⟨nd, rfl, hp⟩)
      | succ room ih =>
        intro nd
        by_cases hp : nd.par = sentinel
        · exact .inl ⟨[], by simp [sidesUp, hp]⟩
        · cases hpar : nodes[nd.par.toNat]? with
          | none => exact .inr (.inl ⟨0, by omega, nd, rfl, hp, List.getElem?_eq_none_iff.1 hpar⟩)
          | some p =>
            rcases ih p with ⟨up, h⟩ | ⟨k, hk, x, hx, h1, h2⟩ | ⟨x, hx, h1⟩
            · exact .inl ⟨nd.side :: up, by simp [sidesUp, hp, hpar, h]⟩
            · exact .inr (.inl ⟨k + 1, by omega, x, by rw [ancestor_succ]; simp [hp, hpar, hx], h1, h2⟩)
            · exact .inr (.inr ⟨x, by rw [ancestor_succ]; simp [hp, hpar, hx], h1⟩)
    rcases key stkDepth leaf with ⟨up, h⟩ | ⟨k, hk, x, hx, h1, h2⟩ | ⟨x, hx, h1⟩
    · exact .inl ⟨up.reverse, by simp [h]⟩
    · exact .inr ⟨_, .inl ⟨rfl, k, hk, x, hx, h1, h2⟩⟩
    · exact .inr ⟨_, .inr ⟨rfl, x, hx, h1⟩⟩

/-- The symbols before the one that stops the loop are encoded and that one is consumed; `out` is what the writer has taken
by then (R201). -/
theorem encodeSymbols_stops {u : State} {bits ws out : List Bool} {pre post : List Byte} {v : Byte}
    {e : Exc} (hs : u.srcEnd.toNat ≤ u.cfg.srcSize.toNat) (hsp : u.sp = 0) (hin : u.input = pre ++ v :: post)
    (hw : codeBits u.node pre = some ws)
    (hv : ∀ p k, ∃ stk, encodeSymbol v (writerAt { u with srcPos := p, stk := k, sp := 0 } (bits ++ ws))
      = .raised e (writerAt { u with srcPos := p, stk := stk, sp := 0 } out))
    (hn : bits.length + ws.length < 2 ^ 32)
    (hr : u.dstPos.toNat + 4 + (bits.length + ws.length) / 8 ≤ u.cfg.dstSize.toNat) :
    ∃ stk, encodeSymbols (srcAvail u + 1) (writerAt u bits) = .raised e (writerAt
      { u with srcPos := BitVec.ofNat 32 (u.srcPos.toNat + pre.length + 1), stk := stk, sp := 0 } out) := by
  have hne : srcAvail u ≠ 0 := by
    intro h0
    rw [input_nil h0] at hin
    simp at hin
  have hsucc : BitVec.ofNat 32 (u.srcPos.toNat + 1) = u.srcPos + 1 := by
    apply BitVec.eq_of_toNat_eq; simp
  have h1 : srcNext (writerAt u bits)
      = .done (some (u.src.read u.srcPos.toNat)) (writerAt { u with srcPos := u.srcPos + 1 } bits) :=
    srcNext_byte (s := writerAt u bits) hne hs
  induction pre generalizing u bits ws with
  | nil =>
    cases hw
    rw [input_cons hne] at hin
    obtain ⟨hv1, -⟩ := List.cons.inj hin
    obtain ⟨stk, h2⟩ := hv (u.srcPos + 1) u.stk
    rw [List.append_nil, ← hsp] at h2
    refine ⟨stk, ?_⟩
    rw [encodeSymbols, h1, Eff.andThen_done]
    simp only [hv1, List.length_nil, Nat.add_zero, hsucc]
    rw [h2, Eff.andThen_raised, hsp]
  | cons x pre ih =>
    rw [input_cons hne] at hin
    obtain ⟨hx, hin'⟩ := List.cons.inj hin
    obtain ⟨w, hw1, hw⟩ := Option.bind_eq_some_iff.1 hw
    obtain ⟨ws', hw2, rfl⟩ := Option.map_eq_some_iff.1 hw
    simp only [List.length_append] at hn hr
    obtain ⟨stk1, h2⟩ := encodeSymbol_writerAt (u := { u with srcPos := u.srcPos + 1 }) (bits := bits) hw1 (by omega)
      (show u.dstPos.toNat + 4 + (bits.length + w.length) / 8 ≤ u.cfg.dstSize.toNat by omega)
    have hin2 : ({ u with srcPos := u.srcPos + 1, stk := stk1, sp := 0 } : State).input = pre ++ v :: post := hin'
    have hav' : srcAvail { u with srcPos := u.srcPos + 1, stk := stk1, sp := 0 } + 1 = srcAvail u := by
      rw [srcAvail_eq] at hne ⊢
      rw [srcAvail_eq u]
      show u.srcEnd.toNat - (u.srcPos + 1).toNat + 1 = _
      rw [srcPos_succ (by rw [srcAvail_eq]; exact hne)]; omega
    have hne2 : srcAvail { u with srcPos := u.srcPos + 1, stk := stk1, sp := 0 } ≠ 0 := by
      intro h0
      rw [input_nil h0] at hin2
      simp at hin2
    obtain ⟨stk2, h3⟩ := ih (u := { u with srcPos := u.srcPos + 1, stk := stk1, sp := 0 }) (bits := bits ++ w)
      (ws := ws') hs rfl hin2 hw2 (by rw [List.append_assoc]; exact hv) (by simp; omega)
      (show u.dstPos.toNat + 4 + ((bits ++ w).length + ws'.length) / 8 ≤ u.cfg.dstSize.toNat by
        simp only [List.length_append]; rw [Nat.add_assoc bits.length]; exact hr) hne2
      (by apply BitVec.eq_of_toNat_eq; simp) (srcNext_byte (s := writerAt _ (bits ++ w)) hne2 hs)
    refine ⟨stk2, ?_⟩
    rw [encodeSymbols, h1, Eff.andThen_done]
    simp only
    rw [hx, h2, Eff.andThen_done, ← hav', h3]
    simp only [srcPos_succ hne, List.length_cons]
    rw [show u.srcPos.toNat + 1 + pre.length + 1 = u.srcPos.toNat + (pre.length + 1) + 1 by omega]

/-! ## The stopping release -/

/-- The state HT.ENCODE leaves where it stops, or its release does, after writing these bits (R201, R204). -/
def stoppedState (s : State) (bits : List Bool) (stk : Vector Bool 256) : State :=
  { s with
    bwOpen := false
    bwHdr := s.dstPos
    bwCnt := BitVec.ofNat 32 bits.length
    bwAcc := payloadByte bits (bits.length / 8)
    dst := s.dst.writeBytes s.dstPos.toNat (leftBlock s bits)
    dstPos := BitVec.ofNat 32 (s.dstPos.toNat + (leftBlock s bits).length)
    stk := stk
    sp := 0 }

theorem openBlock_length (bits : List Bool) : (openBlock bits).length = 4 + bits.length / 8 := by simp [openBlock]

theorem leftBlock_full {s : State} {bits : List Bool} (hk : bits.length % 8 ≠ 0)
    (ha : s.cfg.dstSize.toNat ≤ s.dstPos.toNat + 4 + bits.length / 8) : leftBlock s bits = openBlock bits :=
  if_pos ⟨hk, ha⟩

/-- A writer closed without its partial byte has left the placeholder block (R123, R125). -/
theorem writerAt_closed {u : State} {bits : List Bool} (hsp : u.sp = 0) (hk : bits.length % 8 ≠ 0)
    (ha : u.cfg.dstSize.toNat ≤ u.dstPos.toNat + 4 + bits.length / 8) :
    ({ writerAt u bits with bwOpen := false } : State) = stoppedState u bits u.stk := by
  rw [stoppedState, leftBlock_full hk ha, openBlock_length, ← Nat.add_assoc, ← hsp]
  rfl

/-- The release raises where the partial byte has no place (R123, R204). -/
theorem releaseWriter_full {u : State} {bits : List Bool} (hsp : u.sp = 0) (hn : bits.length < 2 ^ 32)
    (hk : bits.length % 8 ≠ 0) (ha : u.cfg.dstSize.toNat ≤ u.dstPos.toNat + 4 + bits.length / 8) :
    releaseWriter (.done () (writerAt u bits)) = .raised (capacity .sinkRange) (stoppedState u bits u.stk) := by
  rw [releaseWriter, writerDestroy_writerAt_full hn hk ha, writerAt_closed hsp hk ha]

/-- After a body that raised the release leaves what it can, and the body's exception stays (R204). -/
theorem releaseWriter_raised {u : State} {bits : List Bool} (e : Exc) (hsp : u.sp = 0) (hd : u.dst.wf)
    (hn : bits.length < 2 ^ 32) (hr : u.dstPos.toNat + 4 + bits.length / 8 ≤ u.cfg.dstSize.toNat) :
    releaseWriter (.raised e (writerAt u bits)) = .raised e (stoppedState u bits u.stk) := by
  by_cases h : bits.length % 8 ≠ 0 ∧ u.cfg.dstSize.toNat ≤ u.dstPos.toNat + 4 + bits.length / 8
  · rw [releaseWriter, writerDestroy_writerAt_full hn h.1 h.2, ← writerAt_closed hsp h.1 h.2]
  · rw [releaseWriter, writerDestroy_writerAt hd hn (by unfold ceil8; omega), stoppedState,
      show leftBlock u bits = bitBlock bits from if_neg h, bitBlock_length, ← Nat.add_assoc, ← hsp]

/-- HT.ENCODE where its loop stops at a symbol (R201, R204). -/
theorem encodeSource_stops {s : State} {ws out : List Bool} {pre post : List Byte} {v : Byte} {e : Exc}
    (hb : s.bwOpen = false) (hs : s.srcEnd.toNat ≤ s.cfg.srcSize.toNat) (hsp : s.sp = 0) (hd : s.dst.wf)
    (hin : s.input = pre ++ v :: post) (hw : codeBits s.node pre = some ws)
    (hv : ∀ p k, ∃ stk, encodeSymbol v (writerAt { s with srcPos := p, stk := k, sp := 0 } ws)
      = .raised e (writerAt { s with srcPos := p, stk := stk, sp := 0 } out))
    (hle : ws.length ≤ out.length) (hn : out.length < 2 ^ 32)
    (hr : s.dstPos.toNat + 4 + out.length / 8 ≤ s.cfg.dstSize.toNat) :
    ∃ stk, encodeSource s = .raised e { stoppedState s out stk with
      srcPos := BitVec.ofNat 32 (s.srcPos.toNat + pre.length + 1) } := by
  obtain ⟨stk, h⟩ := encodeSymbols_stops (u := s) (bits := []) hs hsp hin hw hv (by simp; omega)
    (by simp only [List.length_nil, Nat.zero_add]; omega)
  refine ⟨stk, ?_⟩
  rw [encodeSource, if_neg (by simp [hb]), writerOpen_eq_writerAt hb (by omega), Eff.andThen_done,
    show srcAvail (writerAt s []) = srcAvail s from rfl, h, releaseWriter_raised e rfl (by exact hd) hn (by exact hr)]
  rfl

/-- HT.ENCODE where a symbol has no code word (R201 to R203). -/
theorem encodeSource_fails {s : State} {bits : List Bool} {pre post : List Byte} {v : Byte} {e : Exc} (hb : s.bwOpen = false)
    (hs : s.srcEnd.toNat ≤ s.cfg.srcSize.toNat) (hsp : s.sp = 0) (hd : s.dst.wf) (hin : s.input = pre ++ v :: post)
    (hw : codeBits s.node pre = some bits) (hv : symbolFails s.node v e) (hn : bits.length < 2 ^ 32)
    (hr : s.dstPos.toNat + 4 + bits.length / 8 ≤ s.cfg.dstSize.toNat) :
    ∃ stk, encodeSource s = .raised e { stoppedState s bits stk with
      srcPos := BitVec.ofNat 32 (s.srcPos.toNat + pre.length + 1) } :=
  encodeSource_stops hb hs hsp hd hin hw
    (fun p k => encodeSymbol_fails (u := { s with srcPos := p, stk := k, sp := 0 }) rfl hv) (Nat.le_refl _) hn hr

/-- HT.ENCODE where a bit of a code word cannot be written (R201, R122). -/
theorem encodeSource_cut {s : State} {ws word : List Bool} {pre post : List Byte} {v : Byte} {k : Nat} {e : Exc}
    (hb : s.bwOpen = false) (hs : s.srcEnd.toNat ≤ s.cfg.srcSize.toNat) (hsp : s.sp = 0) (hd : s.dst.wf)
    (hin : s.input = pre ++ v :: post) (hw : codeBits s.node pre = some ws) (hc : codeWord s.node v = some word)
    (hk : k < word.length) (he : writeFails s (ws.length + k) e)
    (hr : s.dstPos.toNat + 4 + (ws.length + k) / 8 ≤ s.cfg.dstSize.toNat) :
    ∃ stk, encodeSource s = .raised e { stoppedState s (ws ++ word.take k) stk with
      srcPos := BitVec.ofNat 32 (s.srcPos.toNat + pre.length + 1) } := by
  have hlen : (ws ++ word.take k).length = ws.length + k := by simp; omega
  refine encodeSource_stops hb hs hsp hd hin hw
    (fun p stk => encodeSymbol_cut (u := { s with srcPos := p, stk := stk, sp := 0 }) hc hk hr he) (by omega) ?_
    (by rw [hlen]; exact hr)
  rcases he with ⟨h, -⟩ | ⟨h, -⟩ <;> omega

/-- HT.ENCODE where only the last, partial byte has no place: the release raises (R201, R204). -/
theorem encodeSource_full {s : State} {bits : List Bool} (hb : s.bwOpen = false)
    (hs : s.srcEnd.toNat ≤ s.cfg.srcSize.toNat) (hsp : s.sp = 0) (hw : codeBits s.node s.input = some bits)
    (hn : bits.length < 2 ^ 32) (hk : bits.length % 8 ≠ 0)
    (ha : s.dstPos.toNat + 4 + bits.length / 8 = s.cfg.dstSize.toNat) :
    ∃ stk, encodeSource s = .raised (capacity .sinkRange) { stoppedState s bits stk with
      srcPos := BitVec.ofNat 32 (max s.srcPos.toNat s.srcEnd.toNat), srcEof := true } := by
  obtain ⟨stk, h⟩ := encodeSymbols_writerAt (u := s) (bits := []) hs hsp hw (by simpa using hn)
    (by simp only [List.length_nil, Nat.zero_add]; omega)
  refine ⟨stk, ?_⟩
  rw [encodeSource, if_neg (by simp [hb]), writerOpen_eq_writerAt hb (by omega), Eff.andThen_done,
    show srcAvail (writerAt s []) = srcAvail s from rfl, h, List.nil_append,
    releaseWriter_full rfl hn hk (by exact Nat.le_of_eq ha.symm)]
  rfl

end Sys2Proof.Machine
end

