-- ==== Sys2Proof/Laws/Tree.lean ====
section
/-! SUPPORT. The tree HT.BUILD leaves (spec/43_tree_build.md R181 to R185), as one structure; the code words it gives
(spec/30_encoding.md R89, R90); and that decoding a sequence of code words gives the symbols back (R209). -/

namespace Sys2Proof.Machine

/-- The weight FREQ gives a symbol, as a number. -/
abbrev State.weightOf (s : State) (v : Byte) : Nat := (s.freqOf v).toNat

/-! ## The seeds -/

/-- The leaves and the queue after the symbols l have been inserted (R181, R182). -/
theorem seeds (s : State) (l : List Byte) (hl : l.length ≤ 256) :
    ∃ q, l.foldl addLeaf { s with node := [], pq := [] } = { s with node := l.map leafNode, pq := q }
      ∧ Merging l s.weightOf (l.map s.weightOf) (l.map leafNode) q
      ∧ (q.map fun e => e.weight.toNat).Perm (l.map s.weightOf) := by
  induction l using List.reverseRecOn with
  | nil =>
    refine ⟨[], rfl, ?_, by simp⟩
    constructor <;> simp [PqSorted]
  | append_singleton l v ih =>
    simp only [List.length_append, List.length_singleton] at hl
    obtain ⟨q, h1, h, hperm⟩ := ih (by omega)
    have hk : (BitVec.ofNat 16 l.length).toNat = l.length := by
      rw [BitVec.toNat_ofNat]; exact Nat.mod_eq_of_lt (by omega)
    have hw : ((s.freqOf v).setWidth 40).toNat = s.weightOf v := by
      rw [BitVec.toNat_setWidth]; exact Nat.mod_eq_of_lt (by have := (s.freqOf v).isLt; omega)
    have hlt : ∀ e ∈ q, e.idx.toNat < l.length := fun e he => by simpa using h.entry_lt e he
    have hq := h.len
    simp only [List.length_map] at hq
    have hnode : ∀ i, i < l.length → nodeAt ((l ++ [v]).map leafNode) i = nodeAt (l.map leafNode) i := fun i hi => by
      rw [List.map_append]; exact nodeAt_append_left (by simpa using hi)
    have hlast : nodeAt ((l ++ [v]).map leafNode) l.length = leafNode v := by simp [nodeAt]
    have hws : ∀ i, i < l.length → weightAt ((l ++ [v]).map s.weightOf) i = weightAt (l.map s.weightOf) i := fun i hi => by
      rw [List.map_append]; exact weightAt_append_left (by simpa using hi)
    have hwlast : weightAt ((l ++ [v]).map s.weightOf) l.length = s.weightOf v := by simp [weightAt]
    have hsplit : ∀ {i}, i < (l ++ [v]).length → i < l.length ∨ i = l.length := fun {i} hi => by simp at hi; omega
    refine ⟨pqInsert { weight := (s.freqOf v).setWidth 40, idx := BitVec.ofNat 16 l.length } q, ?_, ?_, ?_⟩
    · rw [List.foldl_append, h1]
      simp [addLeaf, State.freqOf]
    · have hmem : ∀ e, e ∈ pqInsert { weight := (s.freqOf v).setWidth 40, idx := BitVec.ofNat 16 l.length } q ↔
          e = { weight := (s.freqOf v).setWidth 40, idx := BitVec.ofNat 16 l.length } ∨ e ∈ q := fun e => by
        rw [(pqInsert_perm _ q).mem_iff, List.mem_cons]
      constructor
      · simp [pqInsert_length]; omega
      · simp
      · simp
      · refine pqInsert_sorted h.sorted fun x hx he => ?_
        have := hlt x hx
        rw [he] at this
        simp only [hk] at this
        omega
      · intro e he
        rcases (hmem e).1 he with rfl | he
        · simp [hk]
        · have := hlt e he; simp; omega
      · intro e he
        rcases (hmem e).1 he with rfl | he
        · simp only [hk, hw, hwlast]
        · rw [hws _ (hlt e he)]; exact h.entry_weight e he
      · intro i hi
        rw [List.length_map] at hi
        rcases hsplit hi with hi | rfl
        · rw [hnode i hi, h.open_iff i (by simpa using hi)]
          constructor
          · rintro ⟨e, he, hei⟩; exact ⟨e, (hmem e).2 (.inr he), hei⟩
          · rintro ⟨e, he, hei⟩
            rcases (hmem e).1 he with rfl | he
            · simp only [hk] at hei; omega
            · exact ⟨e, he, hei⟩
        · rw [hlast]
          exact ⟨fun _ => ⟨_, (hmem _).2 (.inl rfl), hk⟩, fun _ => rfl⟩
      · intro i hi _
        rw [List.length_map] at hi
        rcases hsplit hi with hi | rfl
        · rw [hnode i hi]; simp [nodeAt, hi, leafNode]
        · rw [hlast]; rfl
      · rw [((pqInsert_perm _ q).map _).sum_eq]
        simp only [List.map_cons, List.sum_cons, List.map_append, List.sum_append, List.map_nil, List.sum_nil, hw]
        rw [h.total]; omega
      · intro i hi
        rcases hsplit hi with hi | rfl
        · rw [hnode i hi, hws i hi, List.getElem?_append_left hi]; exact h.leaf i hi
        · rw [hlast, hwlast]; exact ⟨rfl, rfl, by simp [leafNode], rfl⟩
      · intro i hi hi'
        simp at hi hi'; omega
      · intro i hi hp
        rw [List.length_map] at hi
        rcases hsplit hi with hi | rfl
        · rw [hnode i hi] at hp; exact absurd (by simp [nodeAt, hi, leafNode]) hp
        · rw [hlast] at hp; exact absurd rfl hp
    · rw [List.map_append]
      refine ((pqInsert_perm _ q).map _).trans ?_
      rw [List.map_cons]
      show (((s.freqOf v).setWidth 40).toNat :: _).Perm _
      rw [hw]
      exact (List.Perm.cons _ hperm).trans (List.perm_append_singleton _ _).symm

/-! ## The merge loop -/

/-- What Huffman's merge of a rising list of weights adds up to: the sum of the merged weights, in at most so many passes
(R181). -/
def mergeCost : Nat → List Nat → Nat
  | 0, _ => 0
  | passes + 1, a :: b :: q => a + b + mergeCost passes (q.orderedInsert (· ≤ ·) (a + b))
  | _ + 1, _ => 0

theorem PqSorted.weights {q : List PqEntry} (h : PqSorted q) :
    (q.map fun e => e.weight.toNat).Pairwise (· ≤ ·) := by
  rw [List.pairwise_map]
  refine List.Pairwise.imp (fun {x y} hxy => ?_) h
  rw [PqEntry.before_iff] at hxy
  unfold lexLt at hxy
  omega

/-- On weights, insertion into PQ is insertion into a rising list. -/
theorem pqInsert_weights {e : PqEntry} {q : List PqEntry} (hq : PqSorted q) (hf : ∀ x ∈ q, x.idx ≠ e.idx) :
    (pqInsert e q).map (fun e => e.weight.toNat)
      = (q.map fun e => e.weight.toNat).orderedInsert (· ≤ ·) e.weight.toNat := by
  refine List.Perm.eq_of_pairwise (le := (· ≤ ·)) (fun a b _ _ h1 h2 => Nat.le_antisymm h1 h2)
    (pqInsert_sorted hq hf).weights (List.Pairwise.orderedInsert _ _ hq.weights) ?_
  exact ((pqInsert_perm e q).map _).trans (List.perm_orderedInsert _ _ _).symm

/-- With enough passes the loop ends with at most one entry (R181). -/
theorem mergeAll_merging {syms : List Byte} {f : Byte → Nat} (h256 : syms.length ≤ 256)
    (hsum : (syms.map f).sum < 2 ^ 40) (passes : Nat) (s : State) (ws : List Nat)
    (h : Merging syms f ws s.node s.pq) (hp : s.pq.length ≤ passes + 1) :
    ∃ more nodes q, mergeAll passes s = { s with node := nodes, pq := q } ∧ Merging syms f (ws ++ more) nodes q
      ∧ q.length ≤ 1 ∧ more.sum = mergeCost passes (s.pq.map fun e => e.weight.toNat) := by
  have hsmall : ∀ passes, ∀ q : List Nat, q.length ≤ 1 → mergeCost passes q = 0 := fun passes q hq => by
    match passes, q, hq with
    | 0, _, _ => rfl
    | _ + 1, [], _ => rfl
    | _ + 1, [_], _ => rfl
  induction passes generalizing s ws with
  | zero => exact ⟨[], s.node, s.pq, rfl, by simpa using h, by omega, rfl⟩
  | succ passes ih =>
    rw [mergeAll]
    match hpq : s.pq with
    | [] =>
      have : mergePass s = s := by simp [mergePass, hpq]
      rw [this]
      obtain ⟨more, nodes, q', h1, h2, h3, h4⟩ := ih s ws h (by simp [hpq])
      rw [hsmall _ _ (by simp [hpq])] at h4
      exact ⟨more, nodes, q', h1, h2, h3, by rw [h4]; rfl⟩
    | [x] =>
      have : mergePass s = s := by simp [mergePass, hpq]
      rw [this]
      obtain ⟨more, nodes, q', h1, h2, h3, h4⟩ := ih s ws h (by simp [hpq])
      rw [hsmall _ _ (by simp [hpq])] at h4
      exact ⟨more, nodes, q', h1, h2, h3, by rw [h4]; rfl⟩
    | x :: y :: q =>
      have hm := (hpq ▸ h).merge h256 hsum
      have : mergePass s = { s with
          node := setParent y.idx (BitVec.ofNat 16 s.node.length) true
            (setParent x.idx (BitVec.ofNat 16 s.node.length) false (s.node ++ [innerNode x.idx y.idx]))
          pq := pqInsert { weight := x.weight + y.weight, idx := BitVec.ofNat 16 s.node.length } q } := by
        simp [mergePass, hpq]
      rw [this]
      rw [hpq] at hp
      obtain ⟨more, nodes, q', h1, h2, h3, h4⟩ := ih { s with
          node := setParent y.idx (BitVec.ofNat 16 s.node.length) true
            (setParent x.idx (BitVec.ofNat 16 s.node.length) false (s.node ++ [innerNode x.idx y.idx]))
          pq := pqInsert { weight := x.weight + y.weight, idx := BitVec.ofNat 16 s.node.length } q } _ hm (by
        simp only [pqInsert_length, List.length_cons] at hp ⊢; omega)
      refine ⟨_ :: more, nodes, q', h1, by simpa using h2, h3, ?_⟩
      have h0 := hpq ▸ h
      have hs := h0.sorted
      unfold PqSorted at hs
      rw [List.pairwise_cons, List.pairwise_cons] at hs
      have hlen := h0.len
      simp only [List.length_cons] at hlen
      have hwx := h0.entry_weight x (by simp)
      have hwy := h0.entry_weight y (by simp)
      have htot := h0.total
      simp only [List.map_cons, List.sum_cons] at htot
      have hadd : (x.weight + y.weight).toNat = x.weight.toNat + y.weight.toNat := by
        rw [BitVec.toNat_add, Nat.mod_eq_of_lt (by omega)]
      rw [List.sum_cons, h4, List.map_cons, List.map_cons, mergeCost, ← hwx, ← hwy]
      congr 2
      rw [pqInsert_weights hs.2.2 fun z hz he => ?_, hadd]
      have := h0.entry_lt z (by simp [hz])
      rw [he, BitVec.toNat_ofNat] at this
      omega

theorem sum_weights_lt (s : State) {l : List Byte} (hl : l.length ≤ 256) : (l.map s.weightOf).sum < 2 ^ 40 := by
  have : ∀ l : List Byte, (l.map s.weightOf).sum ≤ l.length * (2 ^ 32 - 1) := fun l => by
    induction l with
    | nil => simp
    | cons v l ih =>
      have : s.weightOf v < 2 ^ 32 := (s.freqOf v).isLt
      simp only [List.map_cons, List.sum_cons, List.length_cons]
      omega
  have := this l
  omega

/-! ## The finished tree -/

theorem Merging.built {syms : List Byte} {f : Byte → Nat} {ws : List Nat} {nodes : List Node} {q : List PqEntry}
    (h : Merging syms f ws nodes q) (hq : q.length ≤ 1) (h256 : syms.length ≤ 256) : Built syms f ws nodes := by
  have hlen := h.len
  have hle := h.leaves_le
  have hlast : ∀ i, i + 1 = nodes.length → (nodeAt nodes i).par = sentinel := fun i hi => by
    by_contra hne
    have := h.up i (by omega) hne
    omega
  have hq1 : 1 ≤ nodes.length → ∃ e, q = [e] := fun h1 => by
    obtain ⟨e, he, -⟩ := (h.open_iff (nodes.length - 1) (by omega)).1 (hlast _ (by omega))
    match q, hq, he with
    | [e], _, _ => exact ⟨e, rfl⟩
  have hqlen : 1 ≤ nodes.length → q.length = 1 := fun h1 => by obtain ⟨e, rfl⟩ := hq1 h1; rfl
  refine ⟨by omega, h.ws_len, fun i hi => ⟨fun hp => ?_, hlast i⟩, h.open_side, h.leaf, h.inner, h.up⟩
  obtain ⟨e, he⟩ := hq1 (by omega)
  obtain ⟨e1, h1, h1'⟩ := (h.open_iff i hi).1 hp
  obtain ⟨e2, h2, h2'⟩ := (h.open_iff (nodes.length - 1) (by omega)).1 (hlast _ (by omega))
  simp only [he, List.mem_singleton] at h1 h2
  subst h1 h2
  omega

/-- HT.BUILD, with the weights of its nodes: those of the leaves, then the merged ones, which add up to what the merge of
the leaves' weights in rising order does (R181). -/
theorem buildTree_weights (s : State) : ∃ nodes more q, buildTree s = { s with node := nodes, pq := [] }
    ∧ Built s.symbols s.weightOf (s.symbols.map s.weightOf ++ more) nodes
    ∧ q.Pairwise (· ≤ ·) ∧ q.Perm (s.symbols.map s.weightOf) ∧ more.sum = mergeCost q.length q := by
  obtain ⟨q, h1, h, hperm⟩ := seeds s s.symbols (symbols_length_le s)
  obtain ⟨more, nodes, q', h2, h3, h4, h5⟩ := mergeAll_merging (symbols_length_le s)
    (sum_weights_lt s (symbols_length_le s)) q.length { s with node := s.symbols.map leafNode, pq := q } _ h
    (by simp)
  refine ⟨nodes, more, q.map fun e => e.weight.toNat, ?_, h3.built h4 (symbols_length_le s), h.sorted.weights, hperm,
    by simpa using h5⟩
  unfold buildTree seedTree
  simp only [h1, h2]

/-- HT.BUILD replaces NODE by a tree built for the present symbols with the weights of FREQ, empties PQ, and changes
nothing else (R181, R185). -/
theorem buildTree_built (s : State) :
    buildTree s = { s with node := (buildTree s).node, pq := [] }
      ∧ ∃ ws, Built s.symbols s.weightOf ws (buildTree s).node := by
  obtain ⟨nodes, more, q, h, hb, -⟩ := buildTree_weights s
  rw [h]
  exact ⟨rfl, _, hb⟩

theorem buildTree_nn (s : State) : (buildTree s).node.length = 2 * s.symbols.length - 1 := by
  obtain ⟨-, ws, h⟩ := buildTree_built s
  exact h.len

/-! ## The code words -/

theorem getElem?_eq_nodeAt {nodes : List Node} {i : Nat} (h : i < nodes.length) : nodes[i]? = some (nodeAt nodes i) := by
  simp [nodeAt, h]

section
variable {syms : List Byte} {f : Byte → Nat} {ws : List Nat} {nodes : List Node}

theorem Built.isLeaf (h : Built syms f ws nodes) {i : Nat} (hi : i < syms.length) : (nodeAt nodes i).isLeaf = true := by
  obtain ⟨h0, h1, -⟩ := h.leaf i hi
  simp [Node.isLeaf, h0, h1]

theorem Built.not_isLeaf (h : Built syms f ws nodes) (h256 : syms.length ≤ 256) {i : Nat} (hi : i < nodes.length)
    (hN : syms.length ≤ i) : (nodeAt nodes i).isLeaf = false := by
  obtain ⟨a, b, m⟩ := h.inner i hi hN
  have hlen := h.len
  have ha := m.a_lt
  have : (nodeAt nodes i).c0 ≠ sentinel := fun hc => by
    have := m.c0
    rw [hc] at this
    simp at this
    omega
  simp [Node.isLeaf, this]

/-- Going up from any node reaches the root (R185). -/
theorem Built.sidesUp_inner (h : Built syms f ws nodes) {i room : Nat} (hi : i < nodes.length)
    (hr : nodes.length ≤ room + i + 1) : ∃ up, sidesUp nodes room (nodeAt nodes i) = some up := by
  induction room generalizing i with
  | zero =>
    have := (h.root i hi).2 (by omega)
    exact ⟨[], by simp [sidesUp, this]⟩
  | succ room ih =>
    unfold sidesUp
    split
    · exact ⟨[], rfl⟩
    · next hp =>
      obtain ⟨h1, h2, -, -⟩ := h.up i hi hp
      rw [getElem?_eq_nodeAt h2]
      obtain ⟨up, hup⟩ := ih h2 (by omega)
      exact ⟨_, by simp [hup]; rfl⟩

theorem sidesUp_mono {nodes : List Node} {room more : Nat} {nd : Node} {sides : List Bool}
    (h : sidesUp nodes room nd = some sides) (hr : room ≤ more) : sidesUp nodes more nd = some sides := by
  induction room generalizing more nd sides with
  | zero =>
    unfold sidesUp at h
    split at h
    · next hp => cases more <;> simp [sidesUp, hp, ← h]
    · simp at h
  | succ room ih =>
    obtain ⟨more, rfl⟩ : ∃ m, more = m + 1 := ⟨more - 1, by omega⟩
    unfold sidesUp at h ⊢
    split at h
    · next hp => rw [if_pos hp]; exact h
    · next hp =>
      rw [if_neg hp]
      split at h
      · simp at h
      · next p hpar =>
        obtain ⟨up, hup, rfl⟩ := Option.map_eq_some_iff.1 h
        simp [ih hup (Nat.le_of_succ_le_succ hr)]

/-- Going up from a leaf takes at most N - 1 steps (R185, R203). -/
theorem Built.sidesUp_leaf (h : Built syms f ws nodes) (h256 : syms.length ≤ 256) {i : Nat} (hi : i < syms.length) :
    ∃ up, sidesUp nodes stkDepth (nodeAt nodes i) = some up ∧ up.length ≤ syms.length - 1 := by
  have hlen := h.len
  unfold sidesUp
  split
  · exact ⟨[], rfl, by simp⟩
  · next hp =>
    obtain ⟨h1, h2, h3, -⟩ := h.up i (by omega) hp
    rw [getElem?_eq_nodeAt h2]
    obtain ⟨up, hup⟩ := h.sidesUp_inner (room := nodes.length - 1 - (nodeAt nodes i).par.toNat) h2 (by omega)
    have hl := sidesUp_length hup
    have hup := sidesUp_mono hup (show _ ≤ 255 by omega)
    exact ⟨_, by simp [hup]; rfl, by simp only [List.length_cons]; omega⟩

/-- The sides up from a node, read from the top, lead from the root down to it (R89, R205). -/
theorem Built.descend_sidesUp (h : Built syms f ws nodes) (h256 : syms.length ≤ 256) {room i : Nat} {up rest : List Bool}
    (hi : i < nodes.length) (hup : sidesUp nodes room (nodeAt nodes i) = some up) (hne : up ≠ []) :
    descend nodes (nodeAt nodes (nodes.length - 1)) (up.reverse ++ rest)
      = if (nodeAt nodes i).isLeaf then some (nodeAt nodes i, rest) else descend nodes (nodeAt nodes i) rest := by
  have hlen := h.len
  induction room generalizing i up rest with
  | zero =>
    unfold sidesUp at hup
    split at hup
    · simp at hup; exact absurd hup hne
    · simp at hup
  | succ room ih =>
    unfold sidesUp at hup
    split at hup
    · simp at hup; exact absurd hup hne
    · next hp =>
      obtain ⟨h1, h2, h3, h4⟩ := h.up i hi hp
      rw [getElem?_eq_nodeAt h2] at hup
      obtain ⟨up', hup', rfl⟩ := Option.map_eq_some_iff.1 hup
      set p := (nodeAt nodes i).par.toNat with hpdef
      have hstep : descend nodes (nodeAt nodes (nodes.length - 1)) (up'.reverse ++ ((nodeAt nodes i).side :: rest))
          = descend nodes (nodeAt nodes p) ((nodeAt nodes i).side :: rest) := by
        by_cases hu : up' = []
        · have hroot : (nodeAt nodes p).par = sentinel := by
            subst hu
            cases room with
            | zero =>
              unfold sidesUp at hup'
              split at hup'
              · assumption
              · simp at hup'
            | succ room =>
              unfold sidesUp at hup'
              split at hup'
              · assumption
              · split at hup' <;> simp at hup'
          have := (h.root p h2).1 hroot
          rw [hu, show nodes.length - 1 = p by omega]
          rfl
        · rw [ih h2 hup' hu, h.not_isLeaf h256 h2 h3]
          simp
      rw [List.reverse_cons, List.append_assoc, List.singleton_append, hstep]
      have hs : (nodeAt nodes p).child (nodeAt nodes i).side ≠ sentinel := fun hc => by
        rw [hc] at h4
        simp at h4
        omega
      rw [descend, if_neg hs, h4, getElem?_eq_nodeAt hi]

/-- The leaf the scan finds for a symbol of the tree (R202). -/
theorem Built.leafOf (h : Built syms f ws nodes) {v : Byte} (hv : v ∈ syms) :
    ∃ i, i < syms.length ∧ leafOf nodes v = some (nodeAt nodes i) ∧ (nodeAt nodes i).sym = v := by
  have hlen := h.len
  obtain ⟨j, hj, hjv⟩ := List.mem_iff_getElem.1 hv
  have hhalf : (nodes.length + 1) / 2 = syms.length := by omega
  unfold Machine.leafOf
  rw [hhalf]
  have hsym := (h.leaf j hj).2.2.1
  rw [List.getElem?_eq_getElem hj, hjv] at hsym
  have hmem : nodeAt nodes j ∈ nodes.take syms.length :=
    List.mem_iff_getElem?.2 ⟨j, by rw [List.getElem?_take, if_pos hj, getElem?_eq_nodeAt (by omega)]⟩
  have hsome : ((nodes.take syms.length).find? fun nd => nd.sym == v).isSome := by
    rw [List.find?_isSome]
    exact ⟨_, hmem, by simpa using (Option.some.inj hsym).symm⟩
  obtain ⟨nd, hnd⟩ := Option.isSome_iff_exists.1 hsome
  obtain ⟨i, hi⟩ := List.mem_iff_getElem?.1 (List.mem_of_find?_eq_some hnd)
  rw [List.getElem?_take] at hi
  split at hi
  · next hlt =>
    rw [getElem?_eq_nodeAt (by omega)] at hi
    refine ⟨i, hlt, ?_, ?_⟩
    · rw [hnd, ← hi]
    · have := List.find?_some hnd
      rw [Option.some.inj hi]
      simpa using this
  · simp at hi

/-- Every symbol of the tree has a code word, and in a tree of at least two symbols decoding it from the root gives the
symbol's leaf (R90). -/
theorem Built.codeWord (h : Built syms f ws nodes) (h256 : syms.length ≤ 256) {v : Byte} (hv : v ∈ syms) :
    ∃ w, codeWord nodes v = some w ∧ (2 ≤ syms.length → w ≠ [] ∧ ∀ rest, ∃ leaf,
      descend nodes (nodeAt nodes (nodes.length - 1)) (w ++ rest) = some (leaf, rest) ∧ leaf.sym = v) := by
  have hlen := h.len
  obtain ⟨i, hi, hleaf, hsym⟩ := h.leafOf hv
  obtain ⟨up, hup, -⟩ := h.sidesUp_leaf h256 hi
  refine ⟨up.reverse, by simp [Machine.codeWord, hleaf, hup], fun h2 => ?_⟩
  have hne : up ≠ [] := by
    rintro rfl
    have hp : (nodeAt nodes i).par ≠ sentinel := fun hp => by
      have := (h.root i (by omega)).1 hp
      omega
    obtain ⟨-, hp2, -, -⟩ := h.up i (by omega) hp
    unfold sidesUp at hup
    rw [if_neg hp, getElem?_eq_nodeAt hp2] at hup
    simp at hup
  refine ⟨by simpa using hne, fun rest => ⟨nodeAt nodes i, ?_, hsym⟩⟩
  rw [h.descend_sidesUp h256 (by omega) hup hne, h.isLeaf hi]
  simp

/-- A code word has at most N - 1 bits (R203). -/
theorem Built.codeWord_length_le (h : Built syms f ws nodes) (h256 : syms.length ≤ 256) {v : Byte} (hv : v ∈ syms)
    {w : List Bool} (hw : Machine.codeWord nodes v = some w) : w.length ≤ syms.length - 1 := by
  obtain ⟨i, hi, hleaf, -⟩ := h.leafOf hv
  obtain ⟨up, hup, hl⟩ := h.sidesUp_leaf h256 hi
  simp only [Machine.codeWord, hleaf, hup, Option.bind_some, Option.map_some, Option.some.injEq] at hw
  rw [← hw, List.length_reverse]
  exact hl

/-- Every input over the tree's symbols has a bit sequence, and in a tree of at least two symbols that sequence decodes
to the input (R209). -/
theorem Built.codeBits (h : Built syms f ws nodes) (h256 : syms.length ≤ 256) {input : List Byte}
    (hin : ∀ v ∈ input, v ∈ syms) :
    ∃ bits, codeBits nodes input = some bits ∧ (2 ≤ syms.length → decodeBits nodes bits = some input) := by
  have hlen := h.len
  have key : ∀ input : List Byte, (∀ v ∈ input, v ∈ syms) → ∃ bits, Machine.codeBits nodes input = some bits
      ∧ (2 ≤ syms.length → ∀ rounds, bits.length ≤ rounds → symbolsOf nodes rounds bits = some input) := by
    intro input
    induction input with
    | nil => exact fun _ => ⟨[], rfl, fun _ rounds _ => by cases rounds <;> rfl⟩
    | cons v vs ih =>
      intro hin
      obtain ⟨bs, hbs, hdec⟩ := ih fun x hx => hin x (by simp [hx])
      obtain ⟨w, hw, hwd⟩ := h.codeWord h256 (hin v (by simp))
      refine ⟨w ++ bs, by simp [Machine.codeBits, hw, hbs], fun h2 rounds hr => ?_⟩
      obtain ⟨hne, hd⟩ := hwd h2
      obtain ⟨leaf, hd, hsym⟩ := hd bs
      obtain ⟨b, w', rfl⟩ := List.exists_cons_of_ne_nil hne
      simp only [List.cons_append, List.length_cons, List.length_append] at hr hd ⊢
      obtain ⟨rounds, rfl⟩ : ∃ r, rounds = r + 1 := ⟨rounds - 1, by omega⟩
      have hlast : nodes.getLast? = some (nodeAt nodes (nodes.length - 1)) := by
        rw [List.getLast?_eq_getElem?, getElem?_eq_nodeAt (by omega)]
      rw [symbolsOf, hlast]
      simp only [hd, hdec h2 rounds (by omega), Option.map_some, hsym]
  obtain ⟨bits, h1, h2⟩ := key input hin
  exact ⟨bits, h1, fun hN => h2 hN _ (Nat.le_refl _)⟩

end

end Sys2Proof.Machine
end

