-- ==== Sys2Proof/Laws/Facade.lean ====
section
/-! SUPPORT. What ENCODE and DECODE do (spec/46_facade.md R241 to R246) where no step raises. -/

namespace Sys2Proof.Machine

/-- The mapping and the tree ENCODE makes of its input (R241). -/
@[irreducible] def treeOfInput (s : State) : State := buildTree (padMapping (tally s.input s.clearSyms))

theorem treeOfInput_def (s : State) : treeOfInput s = buildTree (padMapping (tally s.input s.clearSyms)) := by
  unfold treeOfInput; rfl

/-- ENCODE's first steps change the mapping, the tree and PQ only. -/
theorem treeOfInput_eq (s : State) : treeOfInput s = { s with
    freq := (treeOfInput s).freq, present := (treeOfInput s).present, node := (treeOfInput s).node, pq := [] } := by
  rw [treeOfInput_def]
  have h := (buildTree_built (padMapping (tally s.input s.clearSyms))).1
  have hp : padMapping (tally s.input s.clearSyms) = { s with
      freq := (padMapping (tally s.input s.clearSyms)).freq
      present := (padMapping (tally s.input s.clearSyms)).present } := by
    generalize hq : tally s.input s.clearSyms = q
    have hq' : q = { s with freq := q.freq, present := q.present } := by subst hq; rw [tally_eq]; rfl
    generalize hw : padMapping q = w
    have hw' : w = { q with freq := w.freq, present := w.present } := by subst hw; exact padMapping_eq q
    clear hq hw h
    cases q; cases w; simp_all
  generalize padMapping (tally s.input s.clearSyms) = p at *
  generalize buildTree p = b at *
  cases p; cases b; simp_all

theorem treeOfInput_freq (s : State) : (treeOfInput s).freq = (padMapping (tally s.input s.clearSyms)).freq := by
  unfold treeOfInput; rw [(buildTree_built _).1]

theorem treeOfInput_present (s : State) :
    (treeOfInput s).present = (padMapping (tally s.input s.clearSyms)).present := by
  unfold treeOfInput; rw [(buildTree_built _).1]

theorem absent_zero_counted (s : State) (v : Byte) (h : (tally s.input s.clearSyms).hasSym v = false) :
    (tally s.input s.clearSyms).freqOf v = 0 := by
  rw [freqOf_counted]
  rw [hasSym_counted] at h
  have : s.input.count v = 0 := List.count_eq_zero.2 (by simpa using h)
  rw [this]
  rfl

/-- The weights ENCODE leaves are the counts of the input's bytes (R163, R164, R241). -/
theorem freqOf_treeOfInput (s : State) (v : Byte) : (treeOfInput s).freqOf v = BitVec.ofNat 32 (s.input.count v) := by
  rw [freqOf_congr (treeOfInput_freq s), freqOf_padMapping (absent_zero_counted s), freqOf_counted]

/-- The input's bytes are symbols of ENCODE's tree, which has at least two (R164, R241). -/
theorem mem_symbols_treeOfInput {s : State} {v : Byte} (h : v ∈ s.input) : v ∈ (treeOfInput s).symbols := by
  rw [symbols_congr (treeOfInput_present s), mem_symbols, hasSym_padMapping, hasSym_counted]
  simp [h]

theorem two_le_symbols_treeOfInput (s : State) : 2 ≤ (treeOfInput s).symbols.length := by
  rw [symbols_congr (treeOfInput_present s)]; exact two_le_symbols_padMapping _

theorem treeOfInput_built (s : State) : ∃ ws, Built (treeOfInput s).symbols (treeOfInput s).weightOf ws
    (treeOfInput s).node := by
  obtain ⟨-, ws, h⟩ := buildTree_built (padMapping (tally s.input s.clearSyms))
  refine ⟨ws, ?_⟩
  rw [symbols_congr (treeOfInput_present s)]
  have : (treeOfInput s).weightOf = (padMapping (tally s.input s.clearSyms)).weightOf :=
    funext fun v => congrArg _ (freqOf_congr (treeOfInput_freq s) v)
  rw [this, treeOfInput_def]
  exact h

/-- The input always has a bit sequence in ENCODE's tree, and that sequence decodes to the input (R202, R209, R246). -/
theorem treeOfInput_codeBits (s : State) : ∃ bits, codeBits (treeOfInput s).node s.input = some bits
    ∧ decodeBits (treeOfInput s).node bits = some s.input := by
  obtain ⟨ws, h⟩ := treeOfInput_built s
  obtain ⟨bits, h1, h2⟩ := h.codeBits (symbols_length_le _) fun v hv => mem_symbols_treeOfInput hv
  exact ⟨bits, h1, h2 (two_le_symbols_treeOfInput s)⟩

theorem treeOfInput_nn (s : State) : (treeOfInput s).node.length ≤ 511 ∧ 3 ≤ (treeOfInput s).node.length := by
  obtain ⟨ws, h⟩ := treeOfInput_built s
  have h1 := h.len
  have h2 := symbols_length_le (treeOfInput s)
  have h3 := two_le_symbols_treeOfInput s
  omega

/-- ENCODE with room in the sink (R241). -/
theorem facadeEncode_ok {s : State} {bits : List Bool} (hb : s.bwOpen = false)
    (hs : s.srcEnd.toNat ≤ s.cfg.srcSize.toNat) (hsp : s.sp = 0) (hd : s.dst.wf)
    (hw : codeBits (treeOfInput s).node s.input = some bits) (hn : bits.length < 2 ^ 32)
    (hr : s.dstPos.toNat + blockSize (treeOfInput s).nn + 4 + ceil8 bits.length ≤ s.cfg.dstSize.toNat) :
    ∃ stk, facadeEncode s = .done () { treeOfInput s with
      dst := s.dst.writeBytes s.dstPos.toNat (treeBlock (treeOfInput s).node ++ bitBlock bits)
      bwOpen := false
      bwHdr := BitVec.ofNat 32 (s.dstPos.toNat + blockSize (treeOfInput s).nn)
      bwCnt := BitVec.ofNat 32 bits.length
      bwAcc := payloadByte bits (bits.length / 8)
      dstPos := BitVec.ofNat 32 (s.dstPos.toNat + blockSize (treeOfInput s).nn + 4 + ceil8 bits.length)
      srcPos := BitVec.ofNat 32 (max s.srcPos.toNat s.srcEnd.toNat)
      srcEof := true
      result := (treeOfInput s).auxSize
      stk := stk, sp := 0 } := by
  have hE := treeOfInput_eq s
  set u := treeOfInput s with hu
  have hbo : u.bwOpen = false := by rw [hE]; exact hb
  have hpos : u.dstPos = s.dstPos := by rw [hE]
  have hdst : u.dst = s.dst := by rw [hE]
  have hcfg : u.cfg = s.cfg := by rw [hE]
  have hsave := saveTree_ok (s := u) hbo (by rw [hpos, hcfg]; omega)
  have hlt := s.cfg.dstSize.isLt
  have hpn : (BitVec.ofNat 32 (u.dstPos.toNat + blockSize u.nn)).toNat = s.dstPos.toNat + blockSize u.nn := by
    rw [hpos, BitVec.toNat_ofNat]; exact Nat.mod_eq_of_lt (by omega)
  have hse : u.srcEnd = s.srcEnd := by rw [hE]
  have hsps : u.srcPos = s.srcPos := by rw [hE]
  have hsp' : u.sp = 0 := by rw [hE]; exact hsp
  have hin : u.input = s.input := by rw [hE]; rfl
  obtain ⟨stk, henc⟩ := encodeSource_ok (s := { u with
      dst := u.dst.writeBytes u.dstPos.toNat (treeBlock u.node)
      dstPos := BitVec.ofNat 32 (u.dstPos.toNat + blockSize u.nn) }) (bits := bits) hbo
    (by show u.srcEnd.toNat ≤ u.cfg.srcSize.toNat; rw [hse, hcfg]; exact hs) hsp'
    (by show (u.dst.writeBytes _ _).wf; rw [hdst]; exact Memory.wf_writeBytes hd _ _)
    (by show codeBits u.node u.input = _; rw [hin]; exact hw) hn
    (by
      show (BitVec.ofNat 32 (u.dstPos.toNat + blockSize u.nn)).toNat + 4 + ceil8 bits.length ≤ u.cfg.dstSize.toNat
      rw [hpn, hcfg]; omega)
  refine ⟨stk, ?_⟩
  rw [facadeEncode, if_neg (by simp [hb]), countSource_ok hs, Eff.andThen_done]
  rw [← treeOfInput_def, ← hu, hsave, Eff.andThen_done, henc, Eff.andThen_done, returnAuxSize, encodedState]
  simp only [hpn]
  rw [Memory.writeBytes_append, treeBlock_length, ← blockSize_eq]
  rw [hdst, hpos, hsps, hse]
  rfl

/-- DECODE of a tree block and a bit-sequence block that decodes, with room in the sink (R243). -/
theorem facadeDecode_ok {s : State} {n K : Nat} {syms : List Byte} (hb : s.bwOpen = false)
    (hs : s.srcEnd.toNat ≤ s.cfg.srcSize.toNat) (hn : memRead s.src s.srcPos.toNat 2 = n)
    (hK : memRead s.src (s.srcPos.toNat + blockSize n) 4 = K)
    (ha : s.srcPos.toNat + blockSize n + 4 + ceil8 K ≤ s.srcEnd.toNat)
    (h : decodeBits (readRecords s.src (s.srcPos.toNat + 2) n)
      (bitsOf (s.src.readBytes (s.srcPos.toNat + blockSize n + 4) (ceil8 K)) K) = some syms)
    (hr : syms ≠ [] → s.dstPos.toNat + syms.length ≤ s.cfg.dstSize.toNat) :
    facadeDecode s = .done () { decodedState { s with
        node := readRecords s.src (s.srcPos.toNat + 2) n
        srcPos := BitVec.ofNat 32 (s.srcPos.toNat + blockSize n) } K syms with
      result := BitVec.ofNat 32 (8 * n + 6) } := by
  have hlt := s.srcEnd.isLt
  have hpn : (BitVec.ofNat 32 (s.srcPos.toNat + blockSize n)).toNat = s.srcPos.toNat + blockSize n := by
    rw [BitVec.toNat_ofNat]; exact Nat.mod_eq_of_lt (by omega)
  have hdec := decodeSource_ok (s := { s with
      node := readRecords s.src (s.srcPos.toNat + 2) n
      srcPos := BitVec.ofNat 32 (s.srcPos.toNat + blockSize n) }) (K := K) (syms := syms) hb hs
    (by show memRead s.src (BitVec.ofNat 32 _).toNat 4 = K; rw [hpn]; exact hK)
    (by show (BitVec.ofNat 32 _).toNat + 4 + ceil8 K ≤ _; rw [hpn]; exact ha)
    (by
      show decodeBits _ (bitsOf (s.src.readBytes ((BitVec.ofNat 32 _).toNat + 4) (ceil8 K)) K) = some syms
      rw [hpn]; exact h) hr
  rw [facadeDecode, if_neg (by simp [hb]), loadTree_ok hs hn (by rw [srcAvail_eq]; omega), Eff.andThen_done, hdec,
    Eff.andThen_done, returnAuxSize]
  have : ∀ t : State, t.node = readRecords s.src (s.srcPos.toNat + 2) n → t.auxSize = BitVec.ofNat 32 (8 * n + 6) :=
    fun t ht => by rw [State.auxSize, State.nn, ht, readRecords_length]
  rw [this]
  rfl

end Sys2Proof.Machine
end

