-- ==== Sys2Proof/Laws/Sound.lean ====
section
/-! SUPPORT. What follows where HT.ENCODE, ENCODE or HT.DECODE raises nothing (spec/44_tree_transcode.md R201, R205,
spec/46_facade.md R241): every symbol had a code word and the sink took the block; the bit sequence decoded. And what a
truncated block does (R246). -/

namespace Sys2Proof.Machine

/-! ## HT.ENCODE and ENCODE -/

/-- A bit that was taken fits the counter and the sink (R122). -/
theorem writerBit_done {u : State} {bits : List Bool} {b : Bool} {t : State} (hn : bits.length < 2 ^ 32)
    (h : writerBit b (writerAt u bits) = .done () t)
    (hr : u.dstPos.toNat + 4 + bits.length / 8 ≤ u.cfg.dstSize.toNat) :
    bits.length + 1 < 2 ^ 32 ∧ u.dstPos.toNat + 4 + (bits.length + 1) / 8 ≤ u.cfg.dstSize.toNat := by
  have hcnt : (writerAt u bits).bwCnt.toNat = bits.length := by
    show (BitVec.ofNat 32 bits.length).toNat = bits.length
    rw [BitVec.toNat_ofNat]; exact Nat.mod_eq_of_lt hn
  by_cases hc : (writerAt u bits).bwCnt = 0xFFFFFFFF#32
  · rw [writerBit_overflow b rfl hc] at h
    simp at h
  · have hne : bits.length ≠ 4294967295 := fun h' => hc (BitVec.eq_of_toNat_eq (by rw [hcnt, h']; rfl))
    refine ⟨by omega, ?_⟩
    by_cases hk : bits.length % 8 = 7
    · by_cases ha : (writerAt u bits).cfg.dstSize.toNat ≤ payloadAddr (writerAt u bits)
      · rw [writerBit_full b rfl hc (by rw [hcnt]; exact hk) ha] at h
        simp at h
      · have haddr : payloadAddr (writerAt u bits) = u.dstPos.toNat + 4 + bits.length / 8 := by
          unfold payloadAddr; rw [hcnt]; rfl
        rw [haddr] at ha
        have ha' : ¬ u.cfg.dstSize.toNat ≤ u.dstPos.toNat + 4 + bits.length / 8 := ha
        omega
    · omega

theorem emitBits_done {n : Nat} {u : State} {bits : List Bool} {t : State} (hn : bits.length < 2 ^ 32)
    (hr : u.dstPos.toNat + 4 + bits.length / 8 ≤ u.cfg.dstSize.toNat) (h : emitBits n (writerAt u bits) = .done () t) :
    bits.length + n < 2 ^ 32 ∧ u.dstPos.toNat + 4 + (bits.length + n) / 8 ≤ u.cfg.dstSize.toNat := by
  induction n generalizing u bits with
  | zero => exact ⟨hn, hr⟩
  | succ n ih =>
    rw [emitBits] at h
    rw [show ({ writerAt u bits with sp := n } : State) = writerAt { u with sp := n } bits from rfl] at h
    set b := (writerAt { u with sp := n } bits).stkBit n
    cases hw : writerBit b (writerAt { u with sp := n } bits) with
    | done _ t' =>
      have hb := writerBit_done hn hw hr
      rw [writerBit_writerAt b hb.1 hb.2] at h
      have := ih (u := { u with sp := n }) (by simpa using hb.1) (by
        simp only [List.length_append, List.length_singleton]; exact hb.2) h
      simp only [List.length_append, List.length_singleton] at this
      rw [show bits.length + (n + 1) = bits.length + 1 + n by omega]
      exact this
    | raised e t' => rw [hw] at h; simp at h
    | stop f => rw [hw] at h; simp at h

theorem encodeSymbol_done {u : State} {bits : List Bool} {v : Byte} {t : State} (hsp : u.sp = 0)
    (hn : bits.length < 2 ^ 32) (hr : u.dstPos.toNat + 4 + bits.length / 8 ≤ u.cfg.dstSize.toNat)
    (h : encodeSymbol v (writerAt u bits) = .done () t) :
    ∃ w, codeWord u.node v = some w ∧ bits.length + w.length < 2 ^ 32
      ∧ u.dstPos.toNat + 4 + (bits.length + w.length) / 8 ≤ u.cfg.dstSize.toNat := by
  rcases codeWord_or_fails u.node v with ⟨w, hw⟩ | ⟨e, he⟩
  · refine ⟨w, hw, ?_⟩
    obtain ⟨nd, hnd, hw⟩ := Option.bind_eq_some_iff.1 hw
    obtain ⟨sides, hs, rfl⟩ := Option.map_eq_some_iff.1 hw
    have hloc : locateLeaf (writerAt u bits) v = some nd := hnd
    have hwalk := walkUp_ok (s := { writerAt u bits with sp := 0 }) (room := stkDepth) (nd := nd) hs
    have hpush : pushAll sides ({ writerAt u bits with sp := 0 } : State)
        = writerAt (pushAll sides { u with sp := 0 }) bits := pushAll_writerAt sides { u with sp := 0 } bits
    have heq := pushAll_eq sides { u with sp := 0 }
    have hsp' : (writerAt (pushAll sides { u with sp := 0 }) bits).sp = sides.length := by
      show (pushAll sides { u with sp := 0 }).sp = _
      rw [heq]; simp
    simp only [encodeSymbol, hloc, hwalk, hpush, Eff.andThen_done, hsp'] at h
    have := emitBits_done (u := pushAll sides { u with sp := 0 }) hn (by rw [heq]; exact hr) h
    rw [List.length_reverse]
    rw [heq] at this
    exact this
  · obtain ⟨stk, hf⟩ := encodeSymbol_fails (bits := bits) hsp he
    rw [hf] at h
    simp at h

theorem encodeSymbols_done {u : State} {bits : List Bool} {t : State} (hs : u.srcEnd.toNat ≤ u.cfg.srcSize.toNat)
    (hsp : u.sp = 0) (hn : bits.length < 2 ^ 32) (hr : u.dstPos.toNat + 4 + bits.length / 8 ≤ u.cfg.dstSize.toNat)
    (h : encodeSymbols (srcAvail u + 1) (writerAt u bits) = .done () t) :
    ∃ ws, codeBits u.node u.input = some ws ∧ bits.length + ws.length < 2 ^ 32
      ∧ u.dstPos.toNat + 4 + (bits.length + ws.length) / 8 ≤ u.cfg.dstSize.toNat := by
  induction hav : srcAvail u generalizing u bits with
  | zero => exact ⟨[], by rw [input_nil hav]; rfl, hn, hr⟩
  | succ n ih =>
    have hne : srcAvail u ≠ 0 := by omega
    have h1 : srcNext (writerAt u bits)
        = .done (some (u.src.read u.srcPos.toNat)) (writerAt { u with srcPos := u.srcPos + 1 } bits) :=
      srcNext_byte (s := writerAt u bits) hne hs
    rw [hav, encodeSymbols, h1, Eff.andThen_done] at h
    simp only at h
    cases hsym : encodeSymbol (u.src.read u.srcPos.toNat) (writerAt { u with srcPos := u.srcPos + 1 } bits) with
    | done _ t' =>
      obtain ⟨w, hw, hb1, hb2⟩ := encodeSymbol_done (u := { u with srcPos := u.srcPos + 1 }) hsp hn hr hsym
      obtain ⟨stk, hok⟩ := encodeSymbol_writerAt (u := { u with srcPos := u.srcPos + 1 }) (bits := bits) hw hb1 hb2
      rw [hok, Eff.andThen_done] at h
      have hav' : srcAvail { u with srcPos := u.srcPos + 1, stk := stk, sp := 0 } = n := by
        rw [srcAvail_eq] at hav ⊢
        show u.srcEnd.toNat - (u.srcPos + 1).toNat = n
        rw [srcPos_succ hne]; omega
      obtain ⟨ws, h3, h4, h5⟩ := ih (u := { u with srcPos := u.srcPos + 1, stk := stk, sp := 0 }) (bits := bits ++ w) hs rfl
        (by simpa using hb1) (by rw [List.length_append]; exact hb2) (by rw [hav']; exact h) hav'
      rw [List.length_append] at h4 h5
      refine ⟨w ++ ws, ?_, by rw [List.length_append]; omega, by rw [List.length_append, ← Nat.add_assoc]; exact h5⟩
      rw [input_cons hne, codeBits]
      have hw' : codeWord u.node (u.src.read u.srcPos.toNat) = some w := hw
      have h3' : codeBits u.node ({ u with srcPos := u.srcPos + 1 } : State).input = some ws := h3
      rw [hw', Option.bind_some]
      exact congrArg (Option.map fun ws => w ++ ws) h3'
    | raised e t' => rw [hsym] at h; simp at h
    | stop f => rw [hsym] at h; simp at h

/-- Where HT.ENCODE raises nothing, its input has a bit sequence and the sink took the block (R201). -/
theorem encodeSource_done {s t : State} (hs : s.srcEnd.toNat ≤ s.cfg.srcSize.toNat) (hsp : s.sp = 0)
    (h : encodeSource s = .done () t) : s.bwOpen = false ∧ ∃ bits, codeBits s.node s.input = some bits
      ∧ bits.length < 2 ^ 32 ∧ s.dstPos.toNat + 4 + ceil8 bits.length ≤ s.cfg.dstSize.toNat := by
  cases hb : s.bwOpen with
  | true => simp [encodeSource, hb] at h
  | false =>
    refine ⟨rfl, ?_⟩
    by_cases hr : s.cfg.dstSize.toNat < s.dstPos.toNat + 4
    · rw [encodeSource, if_neg (by simp [hb]), writerOpen_full hb hr] at h
      simp at h
    · rw [encodeSource, if_neg (by simp [hb]), writerOpen_eq_writerAt hb (by omega), Eff.andThen_done,
        show srcAvail (writerAt s []) = srcAvail s from rfl] at h
      cases hbody : encodeSymbols (srcAvail s + 1) (writerAt s []) with
      | done _ t' =>
        obtain ⟨bits, hw, hn, hr'⟩ := encodeSymbols_done (u := s) (bits := []) hs hsp (by simp) (by simp; omega) hbody
        simp only [List.length_nil, Nat.zero_add] at hn hr'
        obtain ⟨stk, hok⟩ := encodeSymbols_writerAt (u := s) (bits := []) hs hsp hw (by simpa using hn)
          (by simpa using hr')
        refine ⟨bits, hw, hn, ?_⟩
        rw [hok, releaseWriter, List.nil_append] at h
        by_contra hc
        set u : State := { s with
          srcPos := BitVec.ofNat 32 (max s.srcPos.toNat s.srcEnd.toNat), srcEof := true, stk := stk, sp := 0 } with hu
        have hcnt : (writerAt u bits).bwCnt.toNat = bits.length := by
          show (BitVec.ofNat 32 bits.length).toNat = bits.length
          rw [BitVec.toNat_ofNat]; exact Nat.mod_eq_of_lt hn
        have hk : bits.length % 8 ≠ 0 := fun hk => hc (by unfold ceil8; omega)
        have haddr : payloadAddr (writerAt u bits) = s.dstPos.toNat + 4 + bits.length / 8 := by
          unfold payloadAddr; rw [hcnt]; rfl
        rw [writerDestroy_full rfl (by rw [hcnt]; exact hk) (by
          rw [haddr]; show s.cfg.dstSize.toNat ≤ _; unfold ceil8 at hc; omega)] at h
        simp at h
      | raised e t' =>
        rw [hbody, releaseWriter] at h
        cases hd : writerDestroy t' <;> simp [hd] at h
      | stop f => rw [hbody] at h; simp [releaseWriter] at h

/-- Where ENCODE raises nothing, the sink took the tree block and the bit-sequence block (R241). -/
theorem facadeEncode_done {s t : State} (hs : s.srcEnd.toNat ≤ s.cfg.srcSize.toNat) (hsp : s.sp = 0)
    (h : facadeEncode s = .done () t) : s.bwOpen = false ∧ ∃ bits, codeBits (treeOfInput s).node s.input = some bits
      ∧ bits.length < 2 ^ 32
      ∧ s.dstPos.toNat + blockSize (treeOfInput s).nn + 4 + ceil8 bits.length ≤ s.cfg.dstSize.toNat := by
  cases hb : s.bwOpen with
  | true => simp [facadeEncode, hb] at h
  | false =>
    refine ⟨rfl, ?_⟩
    have hE := treeOfInput_eq s
    have hbo : (treeOfInput s).bwOpen = false := by rw [hE]; exact hb
    have hpos : (treeOfInput s).dstPos = s.dstPos := by rw [hE]
    have hcfg : (treeOfInput s).cfg = s.cfg := by rw [hE]
    have hse : (treeOfInput s).srcEnd = s.srcEnd := by rw [hE]
    have hsp' : (treeOfInput s).sp = 0 := by rw [hE]; exact hsp
    have hin : (treeOfInput s).input = s.input := by rw [hE]; rfl
    rw [facadeEncode, if_neg (by simp [hb]), countSource_ok hs, Eff.andThen_done, ← treeOfInput_def] at h
    by_cases hr : (treeOfInput s).cfg.dstSize.toNat < (treeOfInput s).dstPos.toNat + blockSize (treeOfInput s).nn
    · rw [saveTree_full hbo hr] at h
      simp at h
    · rw [saveTree_ok hbo (by omega), Eff.andThen_done] at h
      rw [hpos, hcfg] at hr
      have hlt := s.cfg.dstSize.isLt
      have hpn : (BitVec.ofNat 32 (s.dstPos.toNat + blockSize (treeOfInput s).nn)).toNat
          = s.dstPos.toNat + blockSize (treeOfInput s).nn := by
        rw [BitVec.toNat_ofNat]; exact Nat.mod_eq_of_lt (by omega)
      cases henc : encodeSource { treeOfInput s with
          dst := (treeOfInput s).dst.writeBytes (treeOfInput s).dstPos.toNat (treeBlock (treeOfInput s).node)
          dstPos := BitVec.ofNat 32 ((treeOfInput s).dstPos.toNat + blockSize (treeOfInput s).nn) } with
      | done _ t' =>
        obtain ⟨-, bits, h1, h2, h3⟩ := encodeSource_done (s := { treeOfInput s with
            dst := (treeOfInput s).dst.writeBytes (treeOfInput s).dstPos.toNat (treeBlock (treeOfInput s).node)
            dstPos := BitVec.ofNat 32 ((treeOfInput s).dstPos.toNat + blockSize (treeOfInput s).nn) })
          (by show (treeOfInput s).srcEnd.toNat ≤ (treeOfInput s).cfg.srcSize.toNat; rw [hse, hcfg]; exact hs) hsp' henc
        have h1' : codeBits (treeOfInput s).node (treeOfInput s).input = some bits := h1
        have h3' : (BitVec.ofNat 32 ((treeOfInput s).dstPos.toNat + blockSize (treeOfInput s).nn)).toNat + 4
            + ceil8 bits.length ≤ (treeOfInput s).cfg.dstSize.toNat := h3
        rw [hin] at h1'
        rw [hpos, hcfg, hpn] at h3'
        exact ⟨bits, h1', h2, h3'⟩
      | raised e t' => rw [henc] at h; simp at h
      | stop f => rw [henc] at h; simp at h

/-! ## HT.DECODE -/

theorem readerAt_cnt {u : State} {K j : Nat} (hK : K < 2 ^ 32) (hj : j ≤ K) :
    (readerAt u K j).brCnt.toNat = j ∧ (readerAt u K j).brSize.toNat = K := by
  constructor
  · show (BitVec.ofNat 32 j).toNat = j
    rw [BitVec.toNat_ofNat]; exact Nat.mod_eq_of_lt (by omega)
  · show (BitVec.ofNat 32 K).toNat = K
    rw [BitVec.toNat_ofNat]; exact Nat.mod_eq_of_lt hK

/-- The outcomes of one more bit: it is there, the sequence is at its end, or its byte is missing (R142). -/
theorem readerBit_cases {u : State} {K j : Nat} (hK : K < 2 ^ 32) (hj : j ≤ K)
    (ha : u.srcPos.toNat + 4 + ceil8 j ≤ u.srcEnd.toNat) (hs : u.srcEnd.toNat ≤ u.cfg.srcSize.toNat) :
    (j < K ∧ u.srcPos.toNat + 4 + ceil8 (j + 1) ≤ u.srcEnd.toNat
      ∧ readerBit (readerAt u K j) = .done (streamBit u j) (readerAt u K (j + 1))) ∨
    (j = K ∧ readerBit (readerAt u K j) = .raised ⟨.endOfSequence, .bitsExhausted⟩ (readerAt u K j)) ∨
    (j < K ∧ u.srcEnd.toNat < u.srcPos.toNat + 4 + ceil8 (j + 1)
      ∧ readerBit (readerAt u K j) = .raised (formatErr .payloadShort) { readerAt u K j with srcEof := true }) := by
  obtain ⟨h1, h2⟩ := readerAt_cnt (u := u) hK hj
  by_cases hjK : j = K
  · refine .inr (.inl ⟨hjK, readerBit_end rfl (BitVec.eq_of_toNat_eq (by rw [h1, h2, hjK]))⟩)
  · have hne : (readerAt u K j).brCnt ≠ (readerAt u K j).brSize := fun h => by
      have := congrArg BitVec.toNat h
      rw [h1, h2] at this
      exact hjK this
    by_cases hb : u.srcPos.toNat + 4 + ceil8 (j + 1) ≤ u.srcEnd.toNat
    · exact .inl ⟨by omega, hb, readerBit_readerAt hK (by omega) hb hs⟩
    · have hk : j % 8 = 0 := by unfold ceil8 at ha hb; omega
      have hav : srcAvail (readerAt u K j) = 0 := by
        rw [readerAt_srcAvail ha]; unfold ceil8 at ha hb ⊢; omega
      exact .inr (.inr ⟨by omega, by omega, readerBit_short rfl hne (by rw [h1]; exact hk) hav⟩)

theorem walkDown_done {u : State} {K j steps : Nat} {nd leaf : Node} {t : State} (hK : K < 2 ^ 32) (hj : j ≤ K)
    (ha : u.srcPos.toNat + 4 + ceil8 j ≤ u.srcEnd.toNat) (hs : u.srcEnd.toNat ≤ u.cfg.srcSize.toNat)
    (h : walkDown steps nd (readerAt u K j) = .done leaf t) :
    ∃ j', j < j' ∧ j' ≤ K ∧ u.srcPos.toNat + 4 + ceil8 j' ≤ u.srcEnd.toNat ∧ t = readerAt u K j'
      ∧ descend u.node nd (streamFrom u K j) = some (leaf, streamFrom u K j') := by
  induction steps generalizing j nd with
  | zero => simp [walkDown] at h
  | succ steps ih =>
    rw [walkDown] at h
    rcases readerBit_cases (u := u) hK hj ha hs with ⟨hlt, hb, hok⟩ | ⟨-, hr⟩ | ⟨-, -, hr⟩
    · rw [hok, Eff.andThen_done] at h
      rw [streamFrom_succ hlt, descend]
      split at h
      · simp at h
      · next hne =>
        rw [if_neg hne]
        have hnode : (readerAt u K (j + 1)).node = u.node := rfl
        rw [hnode] at h
        split at h
        · simp at h
        · next n hn =>
          try simp only [hn]
          split at h
          · next hl =>
            cases h
            exact ⟨j + 1, by omega, by omega, hb, rfl, by simp [hl]⟩
          · next hl =>
            obtain ⟨j', h1, h2, h3, h4, h5⟩ := ih (by omega) hb h
            exact ⟨j', by omega, h2, h3, h4, by simp [hl, h5]⟩
    · rw [hr] at h; simp at h
    · rw [hr] at h; simp at h

theorem readerAt_brEos {u : State} {K j : Nat} (hK : K < 2 ^ 32) (hj : j ≤ K) :
    (readerAt u K j).brEos = decide (j = K) := by
  obtain ⟨h1, h2⟩ := readerAt_cnt (u := u) hK hj
  rw [State.brEos]
  by_cases h : j = K
  · simp [h, readerAt]
  · have : (readerAt u K j).brCnt ≠ (readerAt u K j).brSize := fun he => h (by rw [← h1, he, h2])
    simp [h, this]

theorem decodeSymbols_done {u : State} {K j passes : Nat} {t : State} (hK : K < 2 ^ 32) (hj : j ≤ K)
    (ha : u.srcPos.toNat + 4 + ceil8 j ≤ u.srcEnd.toNat) (hs : u.srcEnd.toNat ≤ u.cfg.srcSize.toNat)
    (hp : K - j ≤ passes) (h : decodeSymbols passes (readerAt u K j) = .done () t) :
    u.srcPos.toNat + 4 + ceil8 K ≤ u.srcEnd.toNat ∧ ∃ syms, symbolsOf u.node passes (streamFrom u K j) = some syms
      ∧ (syms ≠ [] → u.dstPos.toNat + syms.length ≤ u.cfg.dstSize.toNat) := by
  have hnil : ∀ u : State, streamFrom u K K = [] := fun u => List.length_eq_zero_iff.1 (by simp)
  induction passes generalizing u j with
  | zero =>
    obtain rfl : j = K := by omega
    exact ⟨ha, [], by rw [hnil]; rfl, by simp⟩
  | succ passes ih =>
    rw [decodeSymbols, readerAt_brEos hK hj] at h
    by_cases hjK : j = K
    · subst hjK
      exact ⟨ha, [], by rw [hnil]; rfl, by simp⟩
    · simp only [hjK, decide_false, Bool.false_eq_true, if_false] at h
      have hlt : j < K := by omega
      rw [decodeSymbol] at h
      have hnode : ∀ j, (readerAt u K j).node = u.node := fun _ => rfl
      rw [hnode] at h
      split at h
      · simp at h
      · next root hroot =>
        have hleft : bitsLeft (readerAt u K j) = K - j := by
          obtain ⟨h1, h2⟩ := readerAt_cnt (u := u) hK hj
          rw [bitsLeft, h1, h2]
        rw [hleft] at h
        cases hw : walkDown (K - j + 1) root (readerAt u K j) with
        | raised e t' => rw [hw] at h; simp at h
        | stop f => rw [hw] at h; simp at h
        | done leaf t' =>
          obtain ⟨j', h1, h2, h3, rfl, h5⟩ := walkDown_done hK hj ha hs hw
          rw [hw, Eff.andThen_done] at h
          have hpos : (readerAt u K j').dstPos = u.dstPos := rfl
          have hcfg : (readerAt u K j').cfg = u.cfg := rfl
          by_cases hfull : u.cfg.dstSize.toNat ≤ u.dstPos.toNat
          · rw [hpos, dstByte_full leaf.sym (s := readerAt u K j') hfull] at h
            simp at h
          · rw [hpos, dstByte_ok leaf.sym (s := readerAt u K j') (by rw [hcfg]; omega), Eff.andThen_done,
              Eff.andThen_done] at h
            have hsz := u.cfg.dstSize.isLt
            have hinc : (u.dstPos + 1).toNat = u.dstPos.toNat + 1 := by
              rw [BitVec.toNat_add]; simp; omega
            obtain ⟨h6, syms, h7, h8⟩ := ih (u := { u with
                dst := u.dst.write u.dstPos.toNat leaf.sym, dstPos := u.dstPos + 1 }) (j := j') h2 h3 hs (by omega) h
            refine ⟨h6, leaf.sym :: syms, ?_, fun _ => ?_⟩
            · rw [streamFrom_succ hlt, symbolsOf, hroot, ← streamFrom_succ hlt]
              have h7' : symbolsOf u.node passes (streamFrom u K j') = some syms := h7
              simp only [h5, h7', Option.map_some]
            · by_cases hsy : syms = []
              · subst hsy; simp; omega
              · have := h8 hsy
                have this' : (u.dstPos + 1).toNat + syms.length ≤ u.cfg.dstSize.toNat := this
                rw [hinc] at this'
                simp only [List.length_cons]; omega

/-- The rounds given do not matter beyond the bits there are. -/
theorem symbolsOf_rounds {nodes : List Node} {bits : List Bool} {r r' : Nat} {syms : List Byte}
    (h : symbolsOf nodes r bits = some syms) (hr : bits.length ≤ r') : symbolsOf nodes r' bits = some syms := by
  induction r generalizing r' bits syms with
  | zero =>
    cases bits with
    | nil => cases r' <;> exact h
    | cons b bs => simp [symbolsOf] at h
  | succ r ih =>
    cases bits with
    | nil => cases r' <;> exact h
    | cons b bs =>
      obtain ⟨r', rfl⟩ : ∃ k, r' = k + 1 := ⟨r' - 1, by simp at hr; omega⟩
      rw [symbolsOf] at h ⊢
      split at h
      · simp at h
      · next root hroot =>
        split at h
        · simp at h
        · next leaf rest hd =>
          obtain ⟨ss, hss, rfl⟩ := Option.map_eq_some_iff.1 h
          have := (descend_length hd).1
          simp only [hd, ih hss (show rest.length ≤ r' by simp at this hr; omega), Option.map_some]

/-- Where HT.DECODE raises nothing, the block was whole, its bits decode, and the sink took the symbols (R205). -/
theorem decodeSource_done {s t : State} (hs : s.srcEnd.toNat ≤ s.cfg.srcSize.toNat) (h : decodeSource s = .done () t) :
    s.bwOpen = false
      ∧ s.srcPos.toNat + 4 + ceil8 (memRead s.src s.srcPos.toNat 4) ≤ s.srcEnd.toNat
      ∧ ∃ syms, decodeBits s.node (bitsOf (s.src.readBytes (s.srcPos.toNat + 4)
          (ceil8 (memRead s.src s.srcPos.toNat 4))) (memRead s.src s.srcPos.toNat 4)) = some syms
        ∧ (syms ≠ [] → s.dstPos.toNat + syms.length ≤ s.cfg.dstSize.toNat) := by
  cases hb : s.bwOpen with
  | true => simp [decodeSource, hb] at h
  | false =>
    refine ⟨rfl, ?_⟩
    rw [decodeSource, if_neg (by simp [hb])] at h
    by_cases ha : srcAvail s < 4
    · rw [readerOpen_short ha] at h
      simp [closeReader] at h
    · have hK := memRead_lt s.src s.srcPos.toNat 4
      set K := memRead s.src s.srcPos.toNat 4 with hKdef
      rw [readerOpen_eq_readerAt (by omega) hs, Eff.andThen_done, ← hKdef] at h
      have hleft : bitsLeft (readerAt s K 0) = K := by
        obtain ⟨h1, h2⟩ := readerAt_cnt (u := s) (K := K) (j := 0) (by omega) (by omega)
        rw [bitsLeft, h1, h2]; simp
      rw [hleft] at h
      cases hd : decodeSymbols K (readerAt s K 0) with
      | raised e t' => rw [hd] at h; simp [closeReader] at h
      | stop f => rw [hd] at h; simp [closeReader] at h
      | done _ t' =>
        rw [srcAvail_eq] at ha
        obtain ⟨h1, syms, h2, h3⟩ := decodeSymbols_done (u := s) (K := K) (j := 0) (by omega) (by omega)
          (by unfold ceil8; omega) hs (by omega) hd
        refine ⟨h1, syms, ?_, h3⟩
        rw [bitsOf_stream, decodeBits]
        exact symbolsOf_rounds h2 (by simp)

/-! ## A truncated block -/

/-- With the payload cut off after A bytes, the walk along good bits reaches its leaf or fails for want of a byte. -/
theorem walkDown_truncated {u : State} {K A j steps : Nat} {bits rest : List Bool} {nd leaf : Node} (hK : K < 2 ^ 32)
    (hbits : bits.length = K) (hA : u.srcPos.toNat + 4 + A = u.srcEnd.toNat)
    (hs : u.srcEnd.toNat ≤ u.cfg.srcSize.toNat) (hsame : ∀ j < 8 * A, j < K → bits[j]? = some (streamBit u j))
    (hj : ceil8 j ≤ A) (hst : K - j < steps) (h : descend u.node nd (bits.drop j) = some (leaf, rest)) :
    (∃ j', j < j' ∧ j' ≤ K ∧ ceil8 j' ≤ A ∧ rest = bits.drop j'
      ∧ walkDown steps nd (readerAt u K j) = .done leaf (readerAt u K j')) ∨
    ∃ t, walkDown steps nd (readerAt u K j) = .raised (formatErr .payloadShort) t := by
  induction steps generalizing j nd with
  | zero => omega
  | succ steps ih =>
    have hjK : j < K := by
      by_contra hc
      rw [List.drop_eq_nil_of_le (by omega)] at h
      simp [descend] at h
    rw [walkDown]
    rcases readerBit_cases (u := u) hK (Nat.le_of_lt hjK) (by omega) hs with ⟨-, hb, hok⟩ | ⟨he, -⟩ | ⟨-, -, hr⟩
    · have hcA : ceil8 (j + 1) ≤ A := by omega
      have hbit : bits.drop j = streamBit u j :: bits.drop (j + 1) := by
        have hlt : j < bits.length := by omega
        rw [List.drop_eq_getElem_cons hlt]
        have := hsame j (by unfold ceil8 at hcA; omega) hjK
        rw [List.getElem?_eq_getElem hlt] at this
        rw [Option.some.inj this]
      rw [hbit, descend] at h
      rw [hok, Eff.andThen_done]
      have hnode : (readerAt u K (j + 1)).node = u.node := rfl
      rw [hnode]
      split at h
      · simp at h
      · next hne =>
        rw [if_neg hne]
        split at h
        · simp at h
        · next n hn =>
          try simp only [hn]
          split at h
          · next hl => cases h; exact .inl ⟨j + 1, by omega, by omega, hcA, rfl, by simp [hl]⟩
          · next hl =>
            simp only [hl, Bool.false_eq_true, if_false]
            rcases ih hcA (by omega) h with ⟨j', h1, h2, h3, h4, h5⟩ | ⟨t, h1⟩
            · exact .inl ⟨j', by omega, h2, h3, h4, h5⟩
            · exact .inr ⟨t, h1⟩
    · omega
    · rw [hr]; exact .inr ⟨_, rfl⟩

/-- With the payload cut short, a decodable sequence ends in PAYLOAD_SHORT (R246). -/
theorem decodeSymbols_truncated {u : State} {K A j passes rounds : Nat} {bits : List Bool} {syms : List Byte}
    (hK : K < 2 ^ 32) (hbits : bits.length = K) (hA : u.srcPos.toNat + 4 + A = u.srcEnd.toNat)
    (hs : u.srcEnd.toNat ≤ u.cfg.srcSize.toNat) (hsame : ∀ j < 8 * A, j < K → bits[j]? = some (streamBit u j))
    (hj : ceil8 j ≤ A) (hjK : j ≤ K) (hshort : A < ceil8 K) (hp : K - j ≤ passes)
    (h : symbolsOf u.node rounds (bits.drop j) = some syms)
    (hr : u.dstPos.toNat + syms.length ≤ u.cfg.dstSize.toNat) :
    ∃ t, decodeSymbols passes (readerAt u K j) = .raised (formatErr .payloadShort) t := by
  induction passes generalizing u j rounds syms with
  | zero =>
    obtain rfl : j = K := by omega
    omega
  | succ passes ih =>
    have hlt : j < K := by
      rcases Nat.lt_or_ge j K with h | h
      · exact h
      · obtain rfl : j = K := by omega
        omega
    rw [decodeSymbols, readerAt_brEos hK hjK]
    simp only [show j ≠ K by omega, decide_false, Bool.false_eq_true, if_false]
    obtain ⟨b, bs, hbs⟩ : ∃ b bs, bits.drop j = b :: bs := by
      rw [List.drop_eq_getElem_cons (by omega)]; exact ⟨_, _, rfl⟩
    obtain ⟨rounds, rfl⟩ : ∃ r, rounds = r + 1 := by
      cases rounds with
      | zero => rw [hbs] at h; simp [symbolsOf] at h
      | succ r => exact ⟨r, rfl⟩
    rw [hbs, symbolsOf, ← hbs] at h
    rw [decodeSymbol]
    have hnode : ∀ j, (readerAt u K j).node = u.node := fun _ => rfl
    rw [hnode]
    split at h
    · simp at h
    · next root hroot =>
      try simp only [hroot]
      split at h
      · simp at h
      · next leaf rest hd =>
        obtain ⟨syms', hsy, rfl⟩ := Option.map_eq_some_iff.1 h
        simp only [List.length_cons] at hr
        have hleft : bitsLeft (readerAt u K j) = K - j := by
          obtain ⟨h1, h2⟩ := readerAt_cnt (u := u) hK hjK
          rw [bitsLeft, h1, h2]
        rw [hleft]
        rcases walkDown_truncated (steps := K - j + 1) hK hbits hA hs hsame hj (by omega) hd with
          ⟨j', h1, h2, h3, rfl, h5⟩ | ⟨t, h1⟩
        · have hsz := u.cfg.dstSize.isLt
          have hinc : (u.dstPos + 1).toNat = u.dstPos.toNat + 1 := by
            rw [BitVec.toNat_add]; simp; omega
          rw [h5, Eff.andThen_done, show (readerAt u K j').dstPos = u.dstPos from rfl, dstByte_ok leaf.sym (s := readerAt u K j')
            (show u.dstPos.toNat < u.cfg.dstSize.toNat by omega), Eff.andThen_done, Eff.andThen_done]
          exact ih (u := { u with dst := u.dst.write u.dstPos.toNat leaf.sym, dstPos := u.dstPos + 1 }) hA hs hsame h3 h2
            (by omega) hsy (by show (u.dstPos + 1).toNat + _ ≤ u.cfg.dstSize.toNat; rw [hinc]; omega)
        · rw [h1]; exact ⟨t, rfl⟩

end Sys2Proof.Machine
end

