-- ==== Sys2Proof/Laws/DecodeStop.lean ====
section
/-! SUPPORT. Where HT.DECODE stops (spec/44_tree_transcode.md R205, R206): at the end of its bits, at a fault of the bits or
the tree, with its cause, or at the end of the sink. -/

namespace Sys2Proof.Machine

/-- The first V bits of a sequence of K are those whose payload bytes lie before SRC_END. -/
structure AtHand (u : State) (K V : Nat) : Prop where
  size : K < 2 ^ 32
  le : V ≤ K
  bits : u.srcPos.toNat + 4 + ceil8 V ≤ u.srcEnd.toNat
  cut : V < K → u.srcEnd.toNat < u.srcPos.toNat + 4 + ceil8 (V + 1)
  srcEnd : u.srcEnd.toNat ≤ u.cfg.srcSize.toNat

/-- The state at a fault: as the reader stood, with SRC_EOF set if it wanted a byte (R142, R206). -/
def faultedAt (u : State) (K j : Nat) (c : ErrCause) : State :=
  { readerAt u K j with srcEof := u.srcEof || c == .payloadShort }

theorem faultedAt_other {u : State} {K j : Nat} {c : ErrCause} (h : c ≠ .payloadShort) :
    faultedAt u K j c = readerAt u K j := by simp [faultedAt, readerAt, h]

theorem faultedAt_short (u : State) (K j : Nat) :
    faultedAt u K j .payloadShort = { readerAt u K j with srcEof := true } := by simp [faultedAt]

theorem streamFrom_end (u : State) (V : Nat) : streamFrom u V V = [] := List.length_eq_zero_iff.1 (by simp)

/-- The bits read when a fault is met: all at hand where they do not suffice, else as many as the bits at hand say. -/
structure BitsAtFault (K V j : Nat) (c : ErrCause) : Prop where
  le : j ≤ V
  short : c = .payloadShort → j = V ∧ V < K
  exhausted : c = .bitsExhausted → j = K

/-- The walk down goes as the bits at hand say (R205 to R207). -/
theorem walkDown_run {u : State} {K V j steps : Nat} {nd : Node} (h : AtHand u K V) (hj : j ≤ V) (hst : V - j < steps) :
    (∀ leaf rest, descend u.node nd (streamFrom u V j) = some (leaf, rest) →
      ∃ j', j < j' ∧ j' ≤ V ∧ rest = streamFrom u V j' ∧ walkDown steps nd (readerAt u K j) = .done leaf (readerAt u K j')) ∧
    (descend u.node nd (streamFrom u V j) = none → ∀ c n,
      descendFault u.node (if V < K then .payloadShort else .bitsExhausted) nd (streamFrom u V j) = (c, n) →
      BitsAtFault K V (j + n) c ∧
      ∃ e, rewrap e = formatErr c ∧ walkDown steps nd (readerAt u K j) = .raised e (faultedAt u K (j + n) c)) := by
  induction steps generalizing j nd with
  | zero => omega
  | succ steps ih =>
    have hb : ceil8 j ≤ ceil8 V := by unfold ceil8; omega
    have hV := h.bits
    have hle := h.le
    rw [walkDown]
    rcases readerBit_cases (u := u) h.size (show j ≤ K by omega) (by omega) h.srcEnd with ⟨hlt, hb1, hok⟩ | ⟨he, hr⟩ | ⟨hlt, hb1, hr⟩
    · have hjV : j < V := by
        rcases Nat.lt_or_ge j V with hjV | hjV
        · exact hjV
        · obtain rfl : j = V := by omega
          have := h.cut hlt
          omega
      rw [hok, Eff.andThen_done, streamFrom_succ hjV, descend, descendFault]
      have hnode : (readerAt u K (j + 1)).node = u.node := rfl
      rw [hnode]
      by_cases hc : nd.child (streamBit u j) = sentinel
      · simp only [hc, if_true]
        refine ⟨fun _ _ h => by simp at h, fun _ c n hf => ?_⟩
        cases hf
        exact ⟨⟨by omega, by simp, by simp⟩, formatErr .sentinelChild, by decide, by rw [faultedAt_other (by decide)]⟩
      · simp only [hc, if_false]
        cases hn : u.node[(nd.child (streamBit u j)).toNat]? with
        | none =>
          refine ⟨fun _ _ h => by simp at h, fun _ c n hf => ?_⟩
          cases hf
          exact ⟨⟨by omega, by simp, by simp⟩, formatErr .treeIndexRange, by decide, by rw [faultedAt_other (by decide)]⟩
        | some n =>
          simp only
          by_cases hl : n.isLeaf = true
          · simp only [hl, if_true]
            exact ⟨fun leaf rest h => by cases h; exact ⟨j + 1, by omega, by omega, rfl, rfl⟩, fun h => by simp at h⟩
          · simp only [hl, Bool.false_eq_true, if_false]
            obtain ⟨h1, h2⟩ := ih (nd := n) (j := j + 1) (by omega) (by omega)
            refine ⟨fun leaf rest hd => ?_, fun hd c m hf => ?_⟩
            · obtain ⟨j', h3, h4⟩ := h1 leaf rest hd
              exact ⟨j', by omega, h4⟩
            · cases hf
              rw [← Nat.add_assoc, Nat.add_right_comm]
              exact h2 hd _ _ rfl
    · obtain rfl : V = K := by omega
      subst he
      rw [hr, Eff.andThen_raised, streamFrom_end]
      refine ⟨fun _ _ h => by simp [descend] at h, fun _ c n hf => ?_⟩
      rw [if_neg (Nat.lt_irrefl _)] at hf
      cases hf
      exact ⟨⟨by omega, by simp, fun _ => rfl⟩, ⟨.endOfSequence, .bitsExhausted⟩, by decide,
        by rw [faultedAt_other (by decide)]; rfl⟩
    · have hjV : j = V := by
        by_contra hne
        have : ceil8 (j + 1) ≤ ceil8 V := by unfold ceil8; omega
        omega
      subst hjV
      rw [hr, Eff.andThen_raised, streamFrom_end]
      refine ⟨fun _ _ h => by simp [descend] at h, fun _ c n hf => ?_⟩
      rw [if_pos hlt] at hf
      cases hf
      exact ⟨⟨by omega, fun _ => ⟨rfl, hlt⟩, by simp⟩, formatErr .payloadShort, by decide, by rw [faultedAt_short]; rfl⟩

/-- The symbol loop goes as the bits at hand say: it faults after the symbols it emitted, or the sink is full (R205). -/
theorem decodeSymbols_run {u : State} {K V j passes rounds : Nat} {syms : List Byte} {f : Option (ErrCause × Nat)}
    (h : AtHand u K V) (hj : j ≤ V) (hp : K - j ≤ passes)
    (hrun : decodeRun u.node (decide (V < K)) rounds (streamFrom u V j) = (syms, f)) :
    (∀ c b, f = some (c, b) → u.dstPos.toNat + syms.length ≤ u.cfg.dstSize.toNat ∨ syms = [] →
      BitsAtFault K V (j + b) c ∧ ∃ e, rewrap e = formatErr c
      ∧ decodeSymbols passes (readerAt u K j) = .raised e (faultedAt { u with
          dst := u.dst.writeBytes u.dstPos.toNat syms, dstPos := BitVec.ofNat 32 (u.dstPos.toNat + syms.length) } K (j + b) c)) ∧
    ∀ n, n < syms.length → u.dstPos.toNat + n = max u.dstPos.toNat u.cfg.dstSize.toNat →
      j + bitsUsed u.node (n + 1) (streamFrom u V j) ≤ V
      ∧ decodeSymbols passes (readerAt u K j) = .raised (capacity .sinkRange) (readerAt { u with
          dst := u.dst.writeBytes u.dstPos.toNat (syms.take n), dstPos := BitVec.ofNat 32 (u.dstPos.toNat + n) } K
          (j + bitsUsed u.node (n + 1) (streamFrom u V j))) := by
  induction rounds generalizing u j passes syms f with
  | zero =>
    cases hrun
    exact ⟨fun _ _ h => by simp at h, fun _ h => by simp at h⟩
  | succ rounds ih =>
    have hle := h.le
    rw [decodeRun] at hrun
    by_cases hend : streamFrom u V j = [] ∧ decide (V < K) = false
    · rw [if_pos hend] at hrun
      cases hrun
      exact ⟨fun _ _ h => by simp at h, fun _ h => by simp at h⟩
    · rw [if_neg hend] at hrun
      have hjK : j < K := by
        by_contra hc
        obtain rfl : V = K := by omega
        obtain rfl : j = V := by omega
        exact hend ⟨streamFrom_end u j, by simp⟩
      obtain ⟨passes, rfl⟩ : ∃ p, passes = p + 1 := ⟨passes - 1, by omega⟩
      rw [decodeSymbols, readerAt_brEos h.size (by omega)]
      simp only [show j ≠ K by omega, decide_false, Bool.false_eq_true, if_false]
      rw [decodeSymbol]
      have hnode : ∀ j, (readerAt u K j).node = u.node := fun _ => rfl
      rw [hnode]
      have hself : ∀ (j' : Nat) (c : ErrCause), faultedAt { u with
          dst := u.dst.writeBytes u.dstPos.toNat [], dstPos := BitVec.ofNat 32 (u.dstPos.toNat + 0) } K j' c
            = faultedAt u K j' c := fun j' c => by simp [Memory.writeBytes]
      cases hroot : u.node.getLast? with
      | none =>
        rw [hroot] at hrun
        cases hrun
        refine ⟨fun c b hc _ => ?_, fun _ h => by simp at h⟩
        cases hc
        refine ⟨⟨by omega, by simp, by simp⟩, formatErr .treeEmpty, by decide, ?_⟩
        simp only [Eff.andThen_raised, List.length_nil, hself]
        rw [faultedAt_other (by decide), Nat.add_zero]
      | some root =>
        rw [hroot] at hrun
        simp only at hrun ⊢
        have hleft : bitsLeft (readerAt u K j) = K - j := by
          obtain ⟨h1, h2⟩ := readerAt_cnt (u := u) h.size (show j ≤ K by omega)
          rw [bitsLeft, h1, h2]
        rw [hleft]
        obtain ⟨hok, hbad⟩ := walkDown_run (nd := root) (steps := K - j + 1) h hj (by omega)
        cases hd : descend u.node root (streamFrom u V j) with
        | none =>
          rw [hd] at hrun
          cases hrun
          refine ⟨fun c b hf _ => ?_, fun _ h => by simp at h⟩
          rw [Option.some_inj] at hf
          obtain ⟨h1, e, h3, h4⟩ := hbad hd c b (by simpa using hf)
          exact ⟨h1, e, h3, by rw [h4, Eff.andThen_raised, Eff.andThen_raised, List.length_nil, hself]⟩
        | some p =>
          obtain ⟨leaf, rest⟩ := p
          rw [hd] at hrun
          simp only [Prod.mk.injEq] at hrun
          obtain ⟨rfl, hf⟩ := hrun
          obtain ⟨j', h1, h2, rfl, h4⟩ := hok leaf rest hd
          have hlen : (streamFrom u V j).length - (streamFrom u V j').length = j' - j := by
            rw [streamFrom_length, streamFrom_length]; omega
          have hused : ∀ n, j + bitsUsed u.node (n + 1) (streamFrom u V j) = j' + bitsUsed u.node n (streamFrom u V j') := by
            intro n
            rw [bitsUsed, hroot, Option.bind_some, hd]
            simp only [hlen]
            omega
          rw [h4, Eff.andThen_done, show (readerAt u K j').dstPos = u.dstPos from rfl]
          by_cases hfull : u.cfg.dstSize.toNat ≤ u.dstPos.toNat
          · rw [dstByte_full leaf.sym (s := readerAt u K j') hfull]
            refine ⟨fun c b hc hroom => ?_, fun n hn hmax => ?_⟩
            · rcases hroom with h | h
              · simp only [List.length_cons] at h; omega
              · simp at h
            · obtain rfl : n = 0 := by omega
              rw [hused]
              exact ⟨h2, by simp [Memory.writeBytes, bitsUsed]⟩
          · have hsz := u.cfg.dstSize.isLt
            have hinc : u.dstPos + 1 = BitVec.ofNat 32 (u.dstPos.toNat + 1) := by
              apply BitVec.eq_of_toNat_eq; simp
            have hposn : (BitVec.ofNat 32 (u.dstPos.toNat + 1)).toNat = u.dstPos.toNat + 1 := by
              rw [BitVec.toNat_ofNat]; exact Nat.mod_eq_of_lt (by omega)
            rw [dstByte_ok leaf.sym (s := readerAt u K j') (show u.dstPos.toNat < u.cfg.dstSize.toNat by omega),
              Eff.andThen_done, Eff.andThen_done, show (readerAt u K j').dstPos = u.dstPos from rfl, hinc]
            obtain ⟨g1, g2⟩ := ih (u := { u with
                dst := u.dst.write u.dstPos.toNat leaf.sym, dstPos := BitVec.ofNat 32 (u.dstPos.toNat + 1) })
              (j := j') (passes := passes) (syms := (decodeRun u.node (decide (V < K)) rounds (streamFrom u V j')).1)
              (f := (decodeRun u.node (decide (V < K)) rounds (streamFrom u V j')).2)
              ⟨h.size, h.le, h.bits, h.cut, h.srcEnd⟩ h2 (by omega) rfl
            refine ⟨fun c b hc hroom => ?_, fun n hn hmax => ?_⟩
            · have hroom : u.dstPos.toNat + 1 + (decodeRun u.node (decide (V < K)) rounds (streamFrom u V j')).1.length
                  ≤ u.cfg.dstSize.toNat := by
                rcases hroom with h | h
                · simp only [List.length_cons] at h; omega
                · simp at h
              rw [← hf] at hc
              obtain ⟨g, hg, hgc⟩ := Option.map_eq_some_iff.1 hc
              obtain ⟨rfl, rfl⟩ := Prod.mk.inj hgc
              obtain ⟨k1, e, k2, k3⟩ := g1 g.1 g.2 hg (.inl (by
                show (BitVec.ofNat 32 (u.dstPos.toNat + 1)).toNat + _ ≤ u.cfg.dstSize.toNat; rw [hposn]; exact hroom))
              rw [hlen, show j + (j' - j + g.2) = j' + g.2 by omega]
              refine ⟨k1, e, k2, ?_⟩
              refine Eq.trans k3 ?_
              simp only [hposn, List.length_cons]
              rw [show ∀ n, u.dstPos.toNat + 1 + n = u.dstPos.toNat + (n + 1) by omega]
              rfl
            · obtain ⟨n, rfl⟩ : ∃ m, n = m + 1 := ⟨n - 1, by omega⟩
              obtain ⟨k1, k2⟩ := g2 n (by simpa using hn) (by
                show (BitVec.ofNat 32 (u.dstPos.toNat + 1)).toNat + n
                  = max (BitVec.ofNat 32 (u.dstPos.toNat + 1)).toNat u.cfg.dstSize.toNat
                rw [hposn]; omega)
              rw [hused]
              refine ⟨k1, ?_⟩
              refine Eq.trans k2 ?_
              simp only [hposn, List.take_succ_cons]
              rw [show u.dstPos.toNat + 1 + n = u.dstPos.toNat + (n + 1) by omega]
              rfl

/-- HT.DECODE, where it does not end normally (R205, R206, R283). -/
theorem decodeSource_stops {s : State} {K V : Nat} {syms : List Byte} {f : Option (ErrCause × Nat)} (hb : s.bwOpen = false)
    (hK : memRead s.src s.srcPos.toNat 4 = K) (h : AtHand s K V)
    (hrun : decodeRun s.node (decide (V < K)) (V + 1) (streamFrom s V 0) = (syms, f)) :
    (∀ c j, f = some (c, j) → s.dstPos.toNat + syms.length ≤ s.cfg.dstSize.toNat ∨ syms = [] → BitsAtFault K V j c
      ∧ decodeSource s = .raised (formatErr c) { faultedAt { s with
          dst := s.dst.writeBytes s.dstPos.toNat syms, dstPos := BitVec.ofNat 32 (s.dstPos.toNat + syms.length) } K j c with
        brOpen := false }) ∧
    ∀ n, n < syms.length → s.dstPos.toNat + n = max s.dstPos.toNat s.cfg.dstSize.toNat →
      bitsUsed s.node (n + 1) (streamFrom s V 0) ≤ V
      ∧ decodeSource s = .raised (capacity .sinkRange) { readerAt { s with
          dst := s.dst.writeBytes s.dstPos.toNat (syms.take n), dstPos := BitVec.ofNat 32 (s.dstPos.toNat + n) } K
          (bitsUsed s.node (n + 1) (streamFrom s V 0)) with
        brOpen := false } := by
  have hbits := h.bits
  have hleft : bitsLeft (readerAt s K 0) = K := by
    obtain ⟨h1, h2⟩ := readerAt_cnt (u := s) (K := K) (j := 0) h.size (by omega)
    rw [bitsLeft, h1, h2]; simp
  have hsrc : decodeSource s = closeReader (decodeSymbols K (readerAt s K 0)) := by
    rw [decodeSource, if_neg (by simp [hb]), readerOpen_eq_readerAt (by rw [srcAvail_eq]; omega) h.srcEnd, hK,
      Eff.andThen_done, hleft]
  obtain ⟨g1, g2⟩ := decodeSymbols_run (passes := K) h (Nat.zero_le V) (by omega) hrun
  simp only [Nat.zero_add] at g1 g2
  rw [hsrc]
  refine ⟨fun c j hc hroom => ?_, fun n hn hmax => ?_⟩
  · obtain ⟨k1, e, k2, k3⟩ := g1 c j hc hroom
    exact ⟨k1, by rw [k3, closeReader, k2]⟩
  · obtain ⟨k1, k2⟩ := g2 n hn hmax
    exact ⟨k1, by rw [k2, closeReader]; rfl⟩

end Sys2Proof.Machine
end

