-- ==== Sys2Proof/Laws/Invariant.lean ====
section
/-! SUPPORT. What each shared operation keeps: the invariant of Safety.lean (spec/10_state.md R34), and the exceptions it
can raise (spec/60_exceptions.md R272, R274). Inside HT.ENCODE, SP is not 0; there `Mid` is what holds. -/

namespace Sys2Proof.Machine

/-- The invariant but for SP. -/
def State.Mid (s : State) : Prop := ({ s with sp := 0 } : State).Inv

theorem State.Inv.mid {s : State} (h : s.Inv) : s.Mid := { h with sp_zero := rfl }

theorem State.Mid.inv {s : State} (h : s.Mid) (hsp : s.sp = 0) : s.Inv := { h with sp_zero := hsp }

/-! ## The exception record -/

theorem ErrKind.code_ne (k : ErrKind) : k.code ≠ 0 := by cases k <;> decide

theorem ErrCause.code_ne (c : ErrCause) : c.code ≠ 0 := by cases c <;> decide

/-- A raise of a listed exception keeps the invariant (R280, R272). -/
theorem State.Inv.raiseExc {s : State} (h : s.Inv) {e : Exc} (he : e ∈ recordedExcs) : (raiseExc e s).Inv := by
  unfold Machine.raiseExc
  split
  · exact { h with
      err_pair := ⟨fun hk => absurd hk (ErrKind.code_ne _), fun hc => absurd hc (ErrCause.code_ne _)⟩
      err_listed := .inr ⟨e, he, rfl, rfl⟩ }
  · exact h

theorem State.Inv.clearExc {s : State} (h : s.Inv) : (clearExc s).Inv :=
  { h with err_pair := ⟨fun _ => rfl, fun _ => rfl⟩, err_listed := .inl rfl }

/-- A command over an operation that keeps the invariant goes on in a state with the invariant. -/
theorem Eff.Keeps.finish_inv {α : Type} {es : List Exc} {r : Eff α} (hr : r.Keeps State.Inv es)
    (h : es ⊆ recordedExcs) : ∃ t, r.finish = .next t ∧ t.Inv := by
  obtain ⟨t, h1, h2 | ⟨e, he, s, hs, rfl⟩⟩ := hr.finish
  · exact ⟨t, h1, h2⟩
  · exact ⟨_, h1, hs.raiseExc (h he)⟩

/-! ## The reset state, at any sizes -/

theorem initial_inv (c : Config) : ({ State.reset with cfg := c } : State).Inv := by
  refine ⟨Nat.zero_le _, by show (0 : Word).toNat ≤ (0 : Word).toNat; decide,
    by show (0 : Byte).toNat < 2 ^ ((0 : Word).toNat % 8); decide, fun v _ => ?_, fun h => Bool.noConfusion h, rfl, rfl,
    ⟨fun _ => rfl, fun _ => rfl⟩, .inl rfl, Nat.zero_le _, Nat.zero_le _,
    Memory.wf_nil, Memory.wf_nil, fun _ h => absurd h List.not_mem_nil, fun _ h => absurd h List.not_mem_nil⟩
  simp [State.freqOf, State.reset]

theorem State.Inv.resetState {s : State} (h : s.Inv) : (resetState s).Inv :=
  { initial_inv s.cfg with
    src_wf := h.src_wf, dst_wf := h.dst_wf, src_within := h.src_within, dst_within := h.dst_within }

/-! ## The source and the reader -/

theorem srcNext_keeps {s : State} (h : s.Mid) :
    (srcNext s).Keeps (fun t => t.Mid ∧ ∃ p e, t = { s with srcPos := p, srcEof := e }) [] := by
  by_cases ha : srcAvail s = 0
  · rw [srcNext_eof ha]
    exact ⟨{ h with }, s.srcPos, true, rfl⟩
  · rw [srcNext_byte ha h.srcEnd_le]
    exact ⟨{ h with }, s.srcPos + 1, s.srcEof, rfl⟩

theorem readerOpen_keeps {s : State} (h : s.Inv) : (readerOpen s).Keeps State.Inv [formatErr .bithdrShort] := by
  by_cases ha : srcAvail s < 4
  · rw [readerOpen_short ha]
    exact ⟨by simp, { h with }⟩
  · rw [readerOpen_ok (by omega) h.srcEnd_le]
    exact { h with brCnt_le := Nat.zero_le _ }

theorem readerBit_keeps {s : State} (h : s.Inv) : (readerBit s).Keeps State.Inv
    [illegalOp .brState, ⟨.endOfSequence, .bitsExhausted⟩, formatErr .payloadShort] := by
  cases ho : s.brOpen with
  | false => rw [readerBit_closed ho]; exact ⟨by simp, h⟩
  | true =>
    by_cases he : s.brCnt = s.brSize
    · rw [readerBit_end ho he]; exact ⟨by simp, h⟩
    · have hne : s.brCnt.toNat ≠ s.brSize.toNat := fun h' => he (BitVec.eq_of_toNat_eq h')
      have hcnt : (s.brCnt + 1).toNat ≤ s.brSize.toNat := by
        have := h.brCnt_le
        have := s.brSize.isLt
        rw [BitVec.toNat_add]; simp; omega
      by_cases hk : s.brCnt.toNat % 8 = 0
      · by_cases ha : srcAvail s = 0
        · rw [readerBit_short ho he hk ha]; exact ⟨by simp, { h with }⟩
        · rw [readerBit_fetch ho he hk ha h.srcEnd_le]; exact { h with brCnt_le := hcnt }
      · rw [readerBit_hold ho he hk]; exact { h with brCnt_le := hcnt }

/-! ## The writer -/

theorem dst_update {s : State} (h : s.Mid) {m : Memory} (hw : m.wf) (hi : m.within s.cfg.dstSize) :
    ({ s with dst := m } : State).Mid := { h with dst_wf := hw, dst_within := hi }

theorem writerOpen_keeps {s : State} (h : s.Mid) : (writerOpen s).Keeps (fun t => t.Mid ∧ t.sp = s.sp ∧ t.node = s.node
    ∧ t.input = s.input) [illegalOp .bwState, capacity .sinkRange] := by
  cases hb : s.bwOpen with
  | true => rw [writerOpen_busy hb]; exact ⟨by simp, h, rfl, rfl, rfl⟩
  | false =>
    by_cases hr : s.cfg.dstSize.toNat < s.dstPos.toNat + 4
    · rw [writerOpen_full hb hr]; exact ⟨by simp, h, rfl, rfl, rfl⟩
    · rw [writerOpen_ok hb (by omega)]
      have hlt := s.cfg.dstSize.isLt
      refine ⟨{ h with
        acc_clear := by show (0 : Byte).toNat < 2 ^ ((0 : Word).toNat % 8); decide
        writer_room := fun _ => ⟨by show s.dstPos.toNat + 4 ≤ s.cfg.dstSize.toNat; omega, ?_⟩
        dst_wf := Memory.wf_writeBytes h.dst_wf _ _
        dst_within := Memory.within_writeBytes h.dst_within (by
          rw [leBytes_length]; show s.dstPos.toNat + 4 ≤ s.cfg.dstSize.toNat; omega) },
        rfl, rfl, rfl⟩
      show s.dstPos.toNat + 4 + (0 : Word).toNat / 8 ≤ (s.dstPos + 4#32).toNat
      rw [BitVec.toNat_add]
      simp
      omega

theorem writerBit_keeps {s : State} (b : Bool) (h : s.Mid) : (writerBit b s).Keeps (fun t => t.Mid ∧ t.sp = s.sp
    ∧ t.node = s.node ∧ t.input = s.input) [illegalOp .bwState, capacity .bitcntOverflow, capacity .sinkRange] := by
  cases hb : s.bwOpen with
  | false => rw [writerBit_closed b hb]; exact ⟨by simp, h, rfl, rfl, rfl⟩
  | true =>
    by_cases hc : s.bwCnt = 0xFFFFFFFF#32
    · rw [writerBit_overflow b hb hc]; exact ⟨by simp, h, rfl, rfl, rfl⟩
    · have hne : s.bwCnt.toNat ≠ 4294967295 := fun h' => hc (BitVec.eq_of_toNat_eq h')
      have hcnt : (s.bwCnt + 1).toNat = s.bwCnt.toNat + 1 := by
        have := s.bwCnt.isLt
        rw [BitVec.toNat_add]; simp; omega
      obtain ⟨hr1, hr2⟩ := h.writer_room hb
      have hr2' : s.bwHdr.toNat + 4 + s.bwCnt.toNat / 8 ≤ s.dstPos.toNat := hr2
      have hacc : s.bwAcc.toNat < 2 ^ (s.bwCnt.toNat % 8) := h.acc_clear
      by_cases hk : s.bwCnt.toNat % 8 = 7
      · by_cases ha : s.cfg.dstSize.toNat ≤ payloadAddr s
        · rw [writerBit_full b hb hc hk ha]; exact ⟨by simp, h, rfl, rfl, rfl⟩
        · have hlt := s.cfg.dstSize.isLt
          rw [writerBit_byte b hb hc hk (by omega)]
          refine ⟨{ h with
            acc_clear := ?_
            writer_room := fun _ => ⟨hr1, ?_⟩
            dst_wf := Memory.wf_write h.dst_wf _ _
            dst_within := Memory.within_write h.dst_within (by show payloadAddr s < s.cfg.dstSize.toNat; omega) _ },
            rfl, rfl, rfl⟩
          · show (0 : Byte).toNat < 2 ^ ((s.bwCnt + 1).toNat % 8)
            exact Nat.two_pow_pos _
          · show s.bwHdr.toNat + 4 + (s.bwCnt + 1).toNat / 8 ≤ (BitVec.ofNat 32 (payloadAddr s + 1)).toNat
            rw [hcnt, BitVec.toNat_ofNat]
            unfold payloadAddr at *
            omega
      · rw [writerBit_partial b hb hc hk]
        refine ⟨{ h with
          acc_clear := ?_
          writer_room := fun _ => ⟨hr1, ?_⟩ }, rfl, rfl, rfl⟩
        · show (packBit s.bwAcc (s.bwCnt.toNat % 8) b).toNat < 2 ^ ((s.bwCnt + 1).toNat % 8)
          rw [hcnt, show (s.bwCnt.toNat + 1) % 8 = s.bwCnt.toNat % 8 + 1 by omega]
          exact packBit_lt b hacc
        · show s.bwHdr.toNat + 4 + (s.bwCnt + 1).toNat / 8 ≤ s.dstPos.toNat
          rw [hcnt]
          omega

theorem flushedDst_ok {s : State} (h : s.Mid) (hb : s.bwOpen = true)
    (ha : s.bwCnt.toNat % 8 ≠ 0 → payloadAddr s < s.cfg.dstSize.toNat) :
    (flushedDst s).wf ∧ (flushedDst s).within s.cfg.dstSize := by
  have hr : s.bwHdr.toNat + 4 ≤ s.cfg.dstSize.toNat := (h.writer_room hb).1
  have hwf : s.dst.wf := h.dst_wf
  have hin : s.dst.within s.cfg.dstSize := h.dst_within
  unfold flushedDst
  refine ⟨Memory.wf_writeBytes ?_ _ _, Memory.within_writeBytes ?_ (by rw [leBytes_length]; exact hr)⟩
  · split
    · exact hwf
    · exact Memory.wf_write hwf _ _
  · split
    · exact hin
    · next hk => exact Memory.within_write hin (ha hk) _

theorem flushed_pos {s : State} (h : s.Mid) (hb : s.bwOpen = true)
    (ha : s.bwCnt.toNat % 8 ≠ 0 → payloadAddr s < s.cfg.dstSize.toNat) :
    payloadAddr s ≤ (BitVec.ofNat 32 (s.bwHdr.toNat + 4 + ceil8 s.bwCnt.toNat)).toNat := by
  have hr : payloadAddr s ≤ s.dstPos.toNat := (h.writer_room hb).2
  have h1 := s.cfg.dstSize.isLt
  have h2 := s.dstPos.isLt
  rw [BitVec.toNat_ofNat]
  unfold payloadAddr ceil8 at *
  by_cases hk : s.bwCnt.toNat % 8 = 0
  · omega
  · have := ha hk; omega

theorem writerFlush_keeps {s : State} (h : s.Mid) : (writerFlush s).Keeps (fun t => t.Mid ∧ t.sp = s.sp)
    [capacity .sinkRange] := by
  cases hb : s.bwOpen with
  | false => rw [writerFlush_closed hb]; exact ⟨h, rfl⟩
  | true =>
    by_cases hf : s.bwCnt.toNat % 8 ≠ 0 ∧ s.cfg.dstSize.toNat ≤ payloadAddr s
    · rw [writerFlush_full hb hf.1 hf.2]; exact ⟨by simp, h, rfl⟩
    · have ha : s.bwCnt.toNat % 8 ≠ 0 → payloadAddr s < s.cfg.dstSize.toNat := fun hk => by
        by_contra hc; exact hf ⟨hk, by omega⟩
      have hd := flushedDst_ok h hb ha
      have hp := flushed_pos h hb ha
      rw [writerFlush_ok hb (h.writer_room hb).1 ha]
      exact ⟨{ h with
        writer_room := fun _ => ⟨(h.writer_room hb).1, hp⟩
        dst_wf := hd.1
        dst_within := hd.2 }, rfl⟩

theorem writerDestroy_keeps {s : State} (h : s.Mid) : (writerDestroy s).Keeps (fun t => t.Mid ∧ t.sp = s.sp)
    [capacity .sinkRange] := by
  cases hb : s.bwOpen with
  | false => rw [writerDestroy_closed hb]; exact ⟨h, rfl⟩
  | true =>
    by_cases hf : s.bwCnt.toNat % 8 ≠ 0 ∧ s.cfg.dstSize.toNat ≤ payloadAddr s
    · rw [writerDestroy_full hb hf.1 hf.2]
      exact ⟨by simp, { h with writer_room := fun hb => absurd hb (by simp) }, rfl⟩
    · have ha : s.bwCnt.toNat % 8 ≠ 0 → payloadAddr s < s.cfg.dstSize.toNat := fun hk => by
        by_contra hc; exact hf ⟨hk, by omega⟩
      have hd := flushedDst_ok h hb ha
      rw [writerDestroy_ok hb (h.writer_room hb).1 ha]
      exact ⟨{ h with
        writer_room := fun hb => absurd hb (by simp)
        dst_wf := hd.1
        dst_within := hd.2 }, rfl⟩

/-! ## The frequency counter, the tree, the serializer -/

theorem State.Inv.setSym {s : State} (h : s.Inv) (v : Byte) (w : Word) : (s.setSym v w).Inv :=
  { h with
    absent_zero := fun x hx => by
      rw [hasSym_setSym] at hx
      rw [freqOf_setSym]
      simp only [Bool.or_eq_false_iff, beq_eq_false_iff_ne] at hx
      rw [if_neg hx.1]
      exact h.absent_zero x hx.2
    writer_room := h.writer_room }

theorem State.Inv.clearSyms {s : State} (h : s.Inv) : s.clearSyms.Inv :=
  { h with absent_zero := fun x _ => freqOf_clearSyms s x, writer_room := h.writer_room }

theorem State.Inv.tally {s : State} (h : s.Inv) (bytes : List Byte) : (tally bytes s).Inv := by
  induction bytes generalizing s with
  | nil => exact h
  | cons v bytes ih => exact ih (h.setSym v _)

theorem State.Inv.padMapping {s : State} (h : s.Inv) : (padMapping s).Inv := by
  have hp : ∀ (v : Byte) {s : State}, s.Inv → (padSym v s).Inv := fun v s h => by
    unfold padSym; split
    · exact h
    · exact h.setSym v 0
  unfold Machine.padMapping
  split
  · exact hp _ (hp _ h)
  · exact h

theorem State.Inv.buildTree {s : State} (h : s.Inv) : (buildTree s).Inv := by
  have hn := buildTree_nn s
  have h1 := symbols_length_le s
  rw [(buildTree_built s).1]
  exact { h with pq_empty := rfl, node_cap := by show (Machine.buildTree s).node.length ≤ 65535; omega }

theorem saveTree_keeps {s : State} (h : s.Inv) :
    (saveTree s).Keeps (fun t => t.Inv ∧ t.node = s.node ∧ t.input = s.input)
      [illegalOp .sinkBound, capacity .sinkRange] := by
  cases hb : s.bwOpen with
  | true => rw [saveTree_busy hb]; exact ⟨by simp, h, rfl, rfl⟩
  | false =>
    by_cases hr : s.cfg.dstSize.toNat < s.dstPos.toNat + blockSize s.nn
    · rw [saveTree_full hb hr]; exact ⟨by simp, h, rfl, rfl⟩
    · rw [saveTree_ok hb (by omega)]
      refine ⟨{ h with
        writer_room := fun hb' => ?_
        dst_wf := Memory.wf_writeBytes h.dst_wf _ _
        dst_within := Memory.within_writeBytes h.dst_within ?_ }, rfl, rfl⟩
      · simp only at hb'; simp [hb] at hb'
      · rw [treeBlock_length]
        show s.dstPos.toNat + blockSize s.nn ≤ s.cfg.dstSize.toNat
        omega

theorem loadTree_keeps {s : State} (h : s.Inv) : (loadTree s).Keeps (fun t => t.Inv ∧ t.bwOpen = s.bwOpen)
    [formatErr .treeCountShort, formatErr .treeRecordsShort] := by
  by_cases h2 : srcAvail s < 2
  · rw [loadTree_countShort h2]; exact ⟨by simp, { h with }, rfl⟩
  · by_cases hr : srcAvail s < blockSize (memRead s.src s.srcPos.toNat 2)
    · rw [loadTree_recordsShort (by omega) h.srcEnd_le hr]; exact ⟨by simp, { h with }, rfl⟩
    · rw [loadTree_ok h.srcEnd_le rfl (by omega)]
      refine ⟨{ h with node_cap := ?_ }, rfl⟩
      have := memRead_lt s.src s.srcPos.toNat 2
      show (readRecords _ _ _).length ≤ 65535
      rw [readRecords_length]
      omega

/-! ## HT.ENCODE -/

/-- The exceptions of the writer's steps inside HT.ENCODE. -/
def writeExcs : List Exc := [illegalOp .bwState, capacity .bitcntOverflow, capacity .sinkRange]

/-- The exceptions a symbol without a code word causes. -/
def walkExcs : List Exc := [⟨.symbolNotFound, .noLeaf⟩, capacity .stackOverflow, formatErr .treeIndexRange]

theorem walkUp_keeps {room : Nat} {nd : Node} {s : State} (h : s.Mid) :
    (walkUp room nd s).Keeps (fun t => t.Mid ∧ t.node = s.node ∧ t.input = s.input) walkExcs := by
  induction room generalizing nd s with
  | zero =>
    unfold walkUp
    split
    · exact ⟨h, rfl, rfl⟩
    · exact ⟨by simp [walkExcs], { h with }, rfl, rfl⟩
  | succ room ih =>
    unfold walkUp
    split
    · exact ⟨h, rfl, rfl⟩
    · simp only
      split
      · exact ⟨by simp [walkExcs], { h with }, rfl, rfl⟩
      · exact ih (s := pushSide nd.side s) { h with }

theorem emitBits_keeps {n : Nat} {s : State} (h : s.Mid) (hn : n = 0 → s.sp = 0) :
    (emitBits n s).Keeps (fun t => t.Inv ∧ t.node = s.node ∧ t.input = s.input) writeExcs := by
  induction n generalizing s with
  | zero => exact ⟨h.inv (hn rfl), rfl, rfl⟩
  | succ n ih =>
    unfold emitBits
    simp only
    have hw := writerBit_keeps (s := { s with sp := n }) (({ s with sp := n } : State).stkBit n) { h with }
    revert hw
    cases writerBit (({ s with sp := n } : State).stkBit n) { s with sp := n } with
    | done _ t =>
      rintro ⟨h1, h2, h3, h4⟩
      have := ih h1 fun h0 => by rw [h2]; exact h0
      exact this.mono (fun _ h => h) fun t ⟨a, b, c⟩ => ⟨a, b.trans h3, c.trans h4⟩
    | raised e t =>
      rintro ⟨h0, h1, h2, h3, h4⟩
      exact ⟨h0, (show ({ t with sp := 0 } : State).Mid from { h1 with }).inv rfl, h3, h4⟩
    | stop f => exact fun h => h

theorem walkExcs_inv {room : Nat} {nd : Node} {s : State} (h : s.Mid) :
    ∀ e t, walkUp room nd s = .raised e t → t.Inv := by
  induction room generalizing nd s with
  | zero =>
    intro e t ht
    unfold walkUp at ht
    split at ht
    · simp at ht
    · cases ht; exact State.Mid.inv { h with } rfl
  | succ room ih =>
    intro e t ht
    unfold walkUp at ht
    split at ht
    · simp at ht
    · simp only at ht
      split at ht
      · cases ht; exact State.Mid.inv { h with } rfl
      · exact ih (s := pushSide nd.side s) { h with } e t ht

/-- One symbol; where it has a code word, only a write can raise. -/
theorem encodeSymbol_keeps {v : Byte} {s : State} {es : List Exc} (h : s.Inv) (hw : writeExcs ⊆ es)
    (he : codeWord s.node v = none → walkExcs ⊆ es) :
    (encodeSymbol v s).Keeps (fun t => t.Inv ∧ t.node = s.node ∧ t.input = s.input) es := by
  unfold encodeSymbol
  split
  · next hl =>
    refine ⟨he ?_ (by simp [walkExcs]), h, rfl, rfl⟩
    have : leafOf s.node v = none := hl
    simp [codeWord, this]
  · next nd hl =>
    have hleaf : leafOf s.node v = some nd := hl
    have hk := walkUp_keeps (room := stkDepth) (nd := nd) (s := { s with sp := 0 }) { h.mid with }
    have hr := walkExcs_inv (room := stkDepth) (nd := nd) (s := { s with sp := 0 }) { h.mid with }
    revert hk hr
    cases hwalk : walkUp stkDepth nd { s with sp := 0 } with
    | done _ t =>
      rintro ⟨h1, h2, h3⟩ -
      exact (emitBits_keeps h1 fun h => h).mono hw fun u ⟨a, b, c⟩ => ⟨a, b.trans h2, c.trans h3⟩
    | raised e t =>
      rintro ⟨h0, -, h2, h3⟩ hr
      refine ⟨he ?_ h0, hr e t rfl, h2, h3⟩
      cases hsides : sidesUp s.node stkDepth nd with
      | none => simp [codeWord, hleaf, hsides]
      | some sides =>
        rw [walkUp_ok (s := { s with sp := 0 }) hsides] at hwalk
        simp at hwalk
    | stop f => exact fun h => absurd h id

theorem encodeSymbols_keeps {passes : Nat} {s : State} {es : List Exc} (h : s.Inv) (hw : writeExcs ⊆ es)
    (he : (∀ v ∈ s.input, codeWord s.node v ≠ none) ∨ walkExcs ⊆ es) :
    (encodeSymbols passes s).Keeps State.Inv es := by
  induction passes generalizing s with
  | zero => exact h
  | succ passes ih =>
    rw [encodeSymbols]
    by_cases ha : srcAvail s = 0
    · rw [srcNext_eof ha]; exact { h with }
    · rw [srcNext_byte ha h.srcEnd_le, Eff.andThen_done]
      simp only
      have hin := input_cons ha
      refine (encodeSymbol_keeps (s := { s with srcPos := s.srcPos + 1 }) { h with } hw fun hc => ?_).andThen
        (fun _ h => h) (fun _ h => h.1) fun _ t ⟨h1, h2, h3⟩ => ih h1 ?_
      · rcases he with he | he
        · exact absurd hc (he _ (by rw [hin]; simp))
        · exact he
      · refine he.imp_left fun he v hv => ?_
        rw [h2]
        rw [h3] at hv
        exact he v (by rw [hin]; exact List.mem_cons_of_mem _ hv)

theorem releaseWriter_keeps {body : Eff Unit} {es : List Exc} (h : body.Keeps State.Inv es)
    (hw : capacity .sinkRange ∈ es) : (releaseWriter body).Keeps State.Inv es := by
  cases body with
  | done a s =>
    have h' : s.Inv := h
    exact (writerDestroy_keeps h'.mid).mono (by simpa using hw) fun t ⟨h1, h2⟩ => h1.inv (h2.trans h'.sp_zero)
  | raised e s =>
    obtain ⟨he, h'⟩ := h
    have hd := writerDestroy_keeps h'.mid
    unfold releaseWriter
    simp only
    revert hd
    cases writerDestroy s with
    | done _ t => exact fun ⟨h1, h2⟩ => ⟨he, h1.inv (h2.trans h'.sp_zero)⟩
    | raised _ t => exact fun ⟨_, h1, h2⟩ => ⟨he, h1.inv (h2.trans h'.sp_zero)⟩
    | stop f => exact fun h => absurd h id
  | stop f => exact h

theorem encodeSource_keeps {s : State} {es : List Exc} (h : s.Inv) (hw : writeExcs ⊆ es)
    (he : (∀ v ∈ s.input, codeWord s.node v ≠ none) ∨ walkExcs ⊆ es) : (encodeSource s).Keeps State.Inv es := by
  unfold encodeSource
  split
  · exact ⟨hw (by simp [writeExcs]), h⟩
  · refine (writerOpen_keeps h.mid).andThen (fun e he => hw ?_) (fun t ⟨h1, h2, _⟩ => h1.inv (h2.trans h.sp_zero))
      fun _ t ⟨h1, h2, h3, h4⟩ => releaseWriter_keeps (encodeSymbols_keeps (h1.inv (h2.trans h.sp_zero)) hw ?_)
        (hw (by simp [writeExcs]))
    · simp only [List.mem_cons, List.not_mem_nil, or_false] at he
      rcases he with rfl | rfl <;> simp [writeExcs]
    · rw [h3, h4]; exact he

/-! ## HT.DECODE -/

/-- The exceptions of one symbol's decoding, before the re-wrapping of R206. -/
def descentExcs : List Exc :=
  [⟨.endOfSequence, .bitsExhausted⟩, formatErr .bitsExhausted, formatErr .payloadShort, formatErr .sentinelChild,
   formatErr .treeIndexRange, formatErr .treeEmpty, capacity .sinkRange]

/-- A bit of an open reader: the reader stays open and BR_STATE cannot be raised. -/
theorem readerBit_keeps_open {s : State} (h : s.Inv) (ho : s.brOpen = true) :
    (readerBit s).Keeps (fun t => t.Inv ∧ t.brOpen = true) descentExcs := by
  have hk := readerBit_keeps h
  revert hk
  by_cases he : s.brCnt = s.brSize
  · rw [readerBit_end ho he]; exact fun _ => ⟨by simp [descentExcs], h, ho⟩
  · by_cases hk : s.brCnt.toNat % 8 = 0
    · by_cases ha : srcAvail s = 0
      · rw [readerBit_short ho he hk ha]; exact fun h => ⟨by simp [descentExcs], h.2, ho⟩
      · rw [readerBit_fetch ho he hk ha h.srcEnd_le]; exact fun h => ⟨h, ho⟩
    · rw [readerBit_hold ho he hk]; exact fun h => ⟨h, ho⟩

theorem walkDown_keeps {steps : Nat} {nd : Node} {s : State} (h : s.Inv) (ho : s.brOpen = true) :
    (walkDown steps nd s).Keeps (fun t => t.Inv ∧ t.brOpen = true) descentExcs := by
  induction steps generalizing nd s with
  | zero => exact ⟨by simp [descentExcs], h, ho⟩
  | succ steps ih =>
    rw [walkDown]
    refine (readerBit_keeps_open h ho).andThen (fun _ h => h) (fun _ h => h) fun bit t ⟨h1, h2⟩ => ?_
    split
    · exact ⟨by simp [descentExcs], h1, h2⟩
    · split
      · exact ⟨by simp [descentExcs], h1, h2⟩
      · split
        · exact ⟨h1, h2⟩
        · exact ih h1 h2

theorem decodeSymbol_keeps {s : State} (h : s.Inv) (ho : s.brOpen = true) (hb : s.bwOpen = false) :
    (decodeSymbol s).Keeps (fun t => t.Inv ∧ t.brOpen = true ∧ t.bwOpen = false) descentExcs := by
  have hbw : ∀ {steps : Nat} {nd : Node} {s : State}, s.Inv → s.brOpen = true → s.bwOpen = false →
      (walkDown steps nd s).Keeps (fun t => t.bwOpen = false) descentExcs := by
    intro steps nd s h ho hb
    induction steps generalizing nd s with
    | zero => exact ⟨by simp [descentExcs], hb⟩
    | succ steps ih =>
      rw [walkDown]
      have hbit : (readerBit s).Keeps (fun t => (t.Inv ∧ t.brOpen = true) ∧ t.bwOpen = false) descentExcs := by
        have hk := readerBit_keeps_open h ho
        revert hk
        by_cases he : s.brCnt = s.brSize
        · rw [readerBit_end ho he]; exact fun h => ⟨h.1, h.2, hb⟩
        · by_cases hk : s.brCnt.toNat % 8 = 0
          · by_cases ha : srcAvail s = 0
            · rw [readerBit_short ho he hk ha]; exact fun h => ⟨h.1, h.2, hb⟩
            · rw [readerBit_fetch ho he hk ha h.srcEnd_le]; exact fun h => ⟨h, hb⟩
          · rw [readerBit_hold ho he hk]; exact fun h => ⟨h, hb⟩
      refine hbit.andThen (fun _ h => h) (fun _ h => h.2) fun bit t ⟨⟨h1, h2⟩, h3⟩ => ?_
      split
      · exact ⟨by simp [descentExcs], h3⟩
      · split
        · exact ⟨by simp [descentExcs], h3⟩
        · split
          · exact h3
          · exact ih h1 h2 h3
  have hboth : ∀ {nd : Node}, (walkDown (bitsLeft s + 1) nd s).Keeps
      (fun t => t.Inv ∧ t.brOpen = true ∧ t.bwOpen = false) descentExcs := fun {nd} => by
    have h1 := walkDown_keeps (steps := bitsLeft s + 1) (nd := nd) h ho
    have h2 := hbw (steps := bitsLeft s + 1) (nd := nd) h ho hb
    revert h1 h2
    cases walkDown (bitsLeft s + 1) nd s with
    | done _ t => exact fun h1 h2 => ⟨h1.1, h1.2, h2⟩
    | raised _ t => exact fun h1 h2 => ⟨h1.1, h1.2.1, h1.2.2, h2.2⟩
    | stop f => exact fun h _ => h
  unfold decodeSymbol
  split
  · exact ⟨by simp [descentExcs], h, ho, hb⟩
  · refine hboth.andThen (fun _ h => h) (fun _ h => h) fun leaf t ⟨h1, h2, h3⟩ => ?_
    by_cases ha : t.cfg.dstSize.toNat ≤ t.dstPos.toNat
    · rw [dstByte_full _ ha]; exact ⟨by simp [descentExcs], h1, h2, h3⟩
    · rw [dstByte_ok _ (by omega), Eff.andThen_done]
      refine ⟨{ h1 with
        writer_room := fun hb => ?_
        dst_wf := Memory.wf_write h1.dst_wf _ _
        dst_within := Memory.within_write h1.dst_within (by show t.dstPos.toNat < t.cfg.dstSize.toNat; omega) _ }, h2, h3⟩
      simp only at hb; simp [h3] at hb

theorem decodeSymbols_keeps {passes : Nat} {s : State} (h : s.Inv) (ho : s.brOpen = true) (hb : s.bwOpen = false) :
    (decodeSymbols passes s).Keeps State.Inv descentExcs := by
  induction passes generalizing s with
  | zero => exact h
  | succ passes ih =>
    rw [decodeSymbols]
    split
    · exact h
    · exact (decodeSymbol_keeps h ho hb).andThen (fun _ h => h) (fun _ h => h.1) fun _ t ⟨h1, h2, h3⟩ => ih h1 h2 h3

/-- The exceptions of HT.DECODE with no writer open (R205, R206). -/
def blockExcs : List Exc :=
  [formatErr .bithdrShort, formatErr .bitsExhausted, formatErr .payloadShort, formatErr .sentinelChild,
   formatErr .treeIndexRange, formatErr .treeEmpty, capacity .sinkRange]

/-- The exceptions of HT.DECODE (R205, R206). -/
def decodeExcs : List Exc := illegalOp .sinkBound :: blockExcs

theorem decodeSource_keeps_free {s : State} (h : s.Inv) (hb : s.bwOpen = false) :
    (decodeSource s).Keeps State.Inv blockExcs := by
  have hbody : ((readerOpen s).andThen fun _ s => decodeSymbols (bitsLeft s) s).Keeps State.Inv
      (formatErr .bithdrShort :: descentExcs) := by
    by_cases ha : srcAvail s < 4
    · have := readerOpen_keeps h
      rw [readerOpen_short ha] at this ⊢
      exact ⟨by simp, this.2⟩
    · have := readerOpen_keeps h
      rw [readerOpen_ok (by omega) h.srcEnd_le] at this ⊢
      exact (decodeSymbols_keeps this rfl hb).mono (fun e he => by simp [he]) fun _ h => h
  unfold decodeSource
  rw [hb]
  revert hbody
  show _ → (closeReader ((readerOpen s).andThen fun _ s => decodeSymbols (bitsLeft s) s)).Keeps State.Inv blockExcs
  cases (readerOpen s).andThen fun _ s => decodeSymbols (bitsLeft s) s with
  | done _ t => intro h; exact { (show t.Inv from h) with }
  | raised e t =>
    rintro ⟨he, h⟩
    refine ⟨?_, { h with }⟩
    have : ∀ e ∈ formatErr .bithdrShort :: descentExcs, rewrap e ∈ blockExcs := by decide
    exact this e he
  | stop f => exact fun h => h

theorem decodeSource_keeps {s : State} (h : s.Inv) : (decodeSource s).Keeps State.Inv decodeExcs := by
  by_cases hb : s.bwOpen = true
  · unfold decodeSource
    rw [if_pos hb]
    exact ⟨by simp [decodeExcs], h⟩
  · exact (decodeSource_keeps_free h (by simpa using hb)).mono (fun e he => by simp [decodeExcs, he]) fun _ h => h

/-! ## ENCODE and DECODE -/

theorem State.Inv.treeOfInput {s : State} (h : s.Inv) : (treeOfInput s).Inv := by
  rw [treeOfInput_def]
  exact (h.clearSyms.tally _).padMapping.buildTree

theorem facadeEncode_keeps {s : State} (h : s.Inv) : (facadeEncode s).Keeps State.Inv writeExcs := by
  unfold facadeEncode
  split
  · exact ⟨by simp [writeExcs], h⟩
  · next hb =>
    have hb : (treeOfInput s).bwOpen = false := by rw [treeOfInput_eq]; simpa using hb
    rw [countSource_ok h.srcEnd_le, Eff.andThen_done, ← treeOfInput_def]
    have hu := h.treeOfInput
    have hin : (treeOfInput s).input = s.input := by rw [treeOfInput_eq]; rfl
    have hsave : (saveTree (treeOfInput s)).Keeps (fun t => t.Inv ∧ t.node = (treeOfInput s).node ∧ t.input = s.input)
        writeExcs := by
      have hk := saveTree_keeps hu
      revert hk
      rw [hin]
      by_cases hr : (treeOfInput s).cfg.dstSize.toNat < (treeOfInput s).dstPos.toNat + blockSize (treeOfInput s).nn
      · rw [saveTree_full hb hr]; exact fun h => ⟨by simp [writeExcs], h.2⟩
      · rw [saveTree_ok hb (by omega)]; exact fun h => h
    refine hsave.andThen (fun _ h => h) (fun _ h => h.1) fun _ t ⟨h1, h2, h3⟩ => ?_
    refine (encodeSource_keeps h1 (fun _ h => h) (.inl fun v hv => ?_)).andThen (fun _ h => h) (fun _ h => h)
      fun _ u h => ?_
    · obtain ⟨ws, hbt⟩ := treeOfInput_built s
      rw [h3] at hv
      obtain ⟨w, hw, -⟩ := hbt.codeWord (symbols_length_le _) (mem_symbols_treeOfInput hv)
      rw [h2, hw]
      simp
    · exact { h with }

theorem facadeDecode_keeps_free {s : State} (h : s.Inv) (hb : s.bwOpen = false) : (facadeDecode s).Keeps State.Inv
    (formatErr .treeCountShort :: formatErr .treeRecordsShort :: blockExcs) := by
  unfold facadeDecode
  rw [hb]
  refine Eff.Keeps.andThen (loadTree_keeps h) (by intro e he; simp at he ⊢; tauto) (fun _ h => h.1) fun _ t ⟨h, ht⟩ => ?_
  exact (decodeSource_keeps_free h (ht.trans hb)).andThen (by intro e he; simp [he]) (fun _ h => h)
    fun _ u h => { h with }

theorem facadeDecode_keeps {s : State} (h : s.Inv) : (facadeDecode s).Keeps State.Inv
    (formatErr .treeCountShort :: formatErr .treeRecordsShort :: decodeExcs) := by
  by_cases hb : s.bwOpen = true
  · unfold facadeDecode
    rw [if_pos hb]
    exact ⟨by simp [decodeExcs], h⟩
  · refine (facadeDecode_keeps_free h (by simpa using hb)).mono (fun e he => ?_) fun _ h => h
    simp only [List.mem_cons, decodeExcs] at he ⊢
    tauto

end Sys2Proof.Machine
end

