-- ==== Sys2Proof/Laws/Frame.lean ====
section
/-! SUPPORT. Frames: what each shared operation may write (spec/10_state.md R12, R15 to R21), and that none of them reads
DST (spec/70_reset_and_hazards.md R327). -/

namespace Sys2Proof.Machine

/-! ## What is left alone -/

/-- From s to t nothing changes but the registers of the list. -/
structure Within (regs : List Reg) (s t : State) : Prop where
  cfg : t.cfg = s.cfg
  src : t.src = s.src
  pending : t.pending = s.pending
  rdata : t.rdata = s.rdata
  same : ∀ r, r ∉ regs → r.same s t

theorem Within.refl (regs : List Reg) (s : State) : Within regs s s :=
  ⟨rfl, rfl, rfl, rfl, fun r _ => by cases r <;> simp [Reg.same]⟩

theorem Reg.same_trans {r : Reg} {s t u : State} (h : r.same s t) (h' : r.same t u) : r.same s u := by
  cases r <;> simp only [Reg.same] at * <;> first | exact h'.trans h | exact ⟨h'.1.trans h.1, h'.2.trans h.2⟩

theorem Within.trans {regs : List Reg} {s t u : State} (h : Within regs s t) (h' : Within regs t u) : Within regs s u :=
  ⟨h'.cfg.trans h.cfg, h'.src.trans h.src, h'.pending.trans h.pending, h'.rdata.trans h.rdata,
    fun r hr => Reg.same_trans (h.same r hr) (h'.same r hr)⟩

theorem Within.mono {regs more : List Reg} {s t : State} (h : Within regs s t) (hr : regs ⊆ more) : Within more s t :=
  ⟨h.cfg, h.src, h.pending, h.rdata, fun r hn => h.same r fun hm => hn (hr hm)⟩

/-- An operation that changes nothing but the registers of the list, however it ends, a fault apart. -/
def Eff.Moves {α : Type} (regs : List Reg) (s : State) : Eff α → Prop
  | .done _ t => Within regs s t
  | .raised _ t => Within regs s t
  | .stop _ => True

theorem Eff.Moves.andThen {α β : Type} {regs : List Reg} {s : State} {r : Eff α} {f : α → State → Eff β}
    (hr : r.Moves regs s) (hf : ∀ a t, (f a t).Moves regs t) : (r.andThen f).Moves regs s := by
  cases r with
  | done a t =>
    show (f a t).Moves regs s
    have h := hf a t
    revert h
    cases f a t with
    | done b u => exact fun h => Within.trans hr h
    | raised e u => exact fun h => Within.trans hr h
    | stop x => exact fun _ => trivial
  | raised e t => exact hr
  | stop x => trivial

theorem Eff.Moves.from {α : Type} {regs : List Reg} {s t : State} {r : Eff α} (h : r.Moves regs t)
    (hst : Within regs s t) : r.Moves regs s := by
  cases r with
  | done b u => exact hst.trans h
  | raised e u => exact hst.trans h
  | stop x => trivial

theorem Eff.Moves.mono {α : Type} {regs more : List Reg} {s : State} {r : Eff α} (h : r.Moves regs s)
    (hr : regs ⊆ more) : r.Moves more s := by
  cases r with
  | done b u => exact Within.mono h hr
  | raised e u => exact Within.mono h hr
  | stop x => trivial

/-- A command over such an operation may besides record an exception. -/
theorem Eff.Moves.finish {α : Type} {regs : List Reg} {s t : State} {r : Eff α} (h : r.Moves regs s)
    (he : .err ∈ regs) (ht : r.finish = .next t) : Within regs s t := by
  rcases Eff.finish_next ht with ⟨a, rfl⟩ | ⟨e, u, rfl, rfl⟩
  · exact h
  · refine Within.trans (show Within regs s u from h) ?_
    unfold raiseExc
    split
    · refine ⟨rfl, rfl, rfl, rfl, fun r hr => ?_⟩
      cases r <;> simp [Reg.same]
      exact absurd he hr
    · exact Within.refl _ _

theorem srcNext_moves (s : State) : (srcNext s).Moves [.srcPos, .srcEof] s := by
  unfold srcNext
  split
  · exact ⟨rfl, rfl, rfl, rfl, fun r hr => by cases r <;> simp_all [Reg.same]⟩
  · split
    · exact ⟨rfl, rfl, rfl, rfl, fun r hr => by cases r <;> simp_all [Reg.same]⟩
    · trivial

theorem srcField_moves (n : Nat) (s : State) : (srcField n s).Moves [.srcPos, .srcEof] s := by
  unfold srcField
  split
  · exact ⟨rfl, rfl, rfl, rfl, fun r hr => by cases r <;> simp_all [Reg.same]⟩
  · split
    · exact ⟨rfl, rfl, rfl, rfl, fun r hr => by cases r <;> simp_all [Reg.same]⟩
    · trivial

theorem dstByte_moves (a : Nat) (v : Byte) (s : State) : (dstByte a v s).Moves [.dst] s := by
  unfold dstByte
  split
  · exact Within.refl _ _
  · exact ⟨rfl, rfl, rfl, rfl, fun r hr => by cases r <;> simp_all [Reg.same]⟩

theorem dstBytes_moves (a : Nat) (bs : List Byte) (s : State) : (dstBytes a bs s).Moves [.dst] s := by
  induction bs generalizing a s with
  | nil => exact Within.refl _ _
  | cons b bs ih => exact (dstByte_moves a b s).andThen fun _ t => ih (a + 1) t

/-- The registers of the writer. -/
abbrev writerRegs : List Reg := [.bwOpen, .bwHdr, .bwBits, .dstPos, .dst]

theorem writerOpen_moves (s : State) : (writerOpen s).Moves writerRegs s := by
  unfold writerOpen
  split
  · exact Within.refl _ _
  · split
    · exact Within.refl _ _
    · refine Eff.Moves.from (t := { s with bwHdr := s.dstPos }) ?_ ⟨rfl, rfl, rfl, rfl, fun r hr => by
        cases r <;> simp_all [Reg.same]⟩
      refine ((dstBytes_moves _ _ _).mono (by simp)).andThen fun _ t => ?_
      exact ⟨rfl, rfl, rfl, rfl, fun r hr => by cases r <;> simp_all [Reg.same]⟩

theorem writerBit_moves (b : Bool) (s : State) : (writerBit b s).Moves [.bwBits, .dstPos, .dst] s := by
  unfold writerBit
  split
  · exact Within.refl _ _
  · split
    · exact Within.refl _ _
    · simp only
      split
      · unfold dstByte
        split
        · exact Within.refl _ _
        · exact ⟨rfl, rfl, rfl, rfl, fun r hr => by cases r <;> simp_all [Reg.same]⟩
      · exact ⟨rfl, rfl, rfl, rfl, fun r hr => by cases r <;> simp_all [Reg.same]⟩

theorem writerFlush_moves (s : State) : (writerFlush s).Moves [.dstPos, .dst] s := by
  unfold writerFlush
  split
  · exact Within.refl _ _
  · refine Eff.Moves.andThen ?_ fun _ t => ?_
    · unfold flushPartial
      split
      · exact Within.refl _ _
      · exact (dstByte_moves _ _ _).mono (by simp)
    · refine Eff.Moves.from ((dstBytes_moves _ _ _).mono (by simp))
        ⟨rfl, rfl, rfl, rfl, fun r hr => by cases r <;> simp_all [Reg.same]⟩

theorem writerDestroy_moves (s : State) : (writerDestroy s).Moves [.bwOpen, .dstPos, .dst] s := by
  unfold writerDestroy
  split
  · exact Within.refl _ _
  · have h := (writerFlush_moves s).mono (more := [.bwOpen, .dstPos, .dst]) (by simp)
    have hc : ∀ t : State, Within [.bwOpen, .dstPos, .dst] t { t with bwOpen := false } := fun t =>
      ⟨rfl, rfl, rfl, rfl, fun r hr => by cases r <;> simp_all [Reg.same]⟩
    revert h
    cases writerFlush s with
    | done _ t => exact fun h => Within.trans h (hc t)
    | raised _ t => exact fun h => Within.trans h (hc t)
    | stop f => exact fun _ => trivial

/-- The registers of the reader. -/
abbrev readerRegs : List Reg := [.brOpen, .brSize, .brBits, .srcPos, .srcEof]

theorem readerOpen_moves (s : State) : (readerOpen s).Moves readerRegs s := by
  unfold readerOpen
  refine Eff.Moves.andThen (Eff.Moves.from ((srcField_moves 4 _).mono (by simp)) ⟨rfl, rfl, rfl, rfl, fun r hr => by
    cases r <;> simp_all [Reg.same]⟩) fun h t => ?_
  cases h with
  | none => exact Within.refl _ _
  | some n => exact ⟨rfl, rfl, rfl, rfl, fun r hr => by cases r <;> simp_all [Reg.same]⟩

theorem readerBit_moves (s : State) : (readerBit s).Moves [.brBits, .srcPos, .srcEof, .result] s := by
  unfold readerBit
  split
  · exact Within.refl _ _
  · split
    · exact Within.refl _ _
    · refine Eff.Moves.andThen ?_ fun _ t => ?_
      · unfold readerFetch
        split
        · refine ((srcNext_moves s).mono (by simp)).andThen fun v t => ?_
          cases v with
          | none => exact Within.refl _ _
          | some v => exact ⟨rfl, rfl, rfl, rfl, fun r hr => by cases r <;> simp_all [Reg.same]⟩
        · exact Within.refl _ _
      · exact ⟨rfl, rfl, rfl, rfl, fun r hr => by cases r <;> simp_all [Reg.same]⟩

theorem walkUp_moves (room : Nat) (nd : Node) (s : State) : (walkUp room nd s).Moves [.stack] s := by
  induction room generalizing nd s with
  | zero =>
    unfold walkUp
    split
    · exact Within.refl _ _
    · exact ⟨rfl, rfl, rfl, rfl, fun r hr => by cases r <;> simp_all [Reg.same]⟩
  | succ room ih =>
    unfold walkUp
    split
    · exact Within.refl _ _
    · simp only
      split
      · exact ⟨rfl, rfl, rfl, rfl, fun r hr => by cases r <;> simp_all [Reg.same, pushSide]⟩
      · exact Eff.Moves.from (ih _ (pushSide nd.side s)) ⟨rfl, rfl, rfl, rfl, fun r hr => by
          cases r <;> simp_all [Reg.same, pushSide]⟩

/-- What HT.ENCODE may write. -/
abbrev encodeRegs : List Reg := [.bwOpen, .bwHdr, .bwBits, .dstPos, .dst, .srcPos, .srcEof, .stack]

theorem emitBits_moves (n : Nat) (s : State) : (emitBits n s).Moves encodeRegs s := by
  have hsp : ∀ (t : State) (n : Nat), Within encodeRegs t { t with sp := n } := fun t n =>
    ⟨rfl, rfl, rfl, rfl, fun r hr => by cases r <;> simp_all [Reg.same]⟩
  induction n generalizing s with
  | zero => exact Within.refl _ _
  | succ n ih =>
    unfold emitBits
    simp only
    have h := (writerBit_moves (({ s with sp := n } : State).stkBit n) { s with sp := n }).mono (more := encodeRegs)
      (by simp)
    revert h
    cases writerBit (({ s with sp := n } : State).stkBit n) { s with sp := n } with
    | done _ t => exact fun h => (ih t).from ((hsp s n).trans h)
    | raised e t => exact fun h => ((hsp s n).trans h).trans (hsp t 0)
    | stop f => exact fun _ => trivial

theorem encodeSymbol_moves (v : Byte) (s : State) : (encodeSymbol v s).Moves encodeRegs s := by
  unfold encodeSymbol
  split
  · exact Within.refl _ _
  · refine Eff.Moves.andThen (Eff.Moves.from ((walkUp_moves _ _ _).mono (by simp)) ?_) fun _ t => emitBits_moves _ t
    exact ⟨rfl, rfl, rfl, rfl, fun r hr => by cases r <;> simp_all [Reg.same]⟩

theorem encodeSymbols_moves (passes : Nat) (s : State) : (encodeSymbols passes s).Moves encodeRegs s := by
  induction passes generalizing s with
  | zero => exact Within.refl _ _
  | succ passes ih =>
    rw [encodeSymbols]
    refine ((srcNext_moves s).mono (by simp)).andThen fun v t => ?_
    cases v with
    | none => exact Within.refl _ _
    | some v => exact (encodeSymbol_moves v t).andThen fun _ u => ih u

theorem encodeSource_moves (s : State) : (encodeSource s).Moves encodeRegs s := by
  unfold encodeSource
  split
  · exact Within.refl _ _
  · refine ((writerOpen_moves s).mono (by simp)).andThen fun _ t => ?_
    have h := encodeSymbols_moves (srcAvail t + 1) t
    revert h
    cases encodeSymbols (srcAvail t + 1) t with
    | done _ u => exact fun h => ((writerDestroy_moves u).mono (by simp)).from h
    | raised e u =>
      intro h
      have hd := ((writerDestroy_moves u).mono (more := encodeRegs) (by simp)).from h
      revert hd
      unfold releaseWriter
      simp only
      cases writerDestroy u with
      | done _ w => exact fun h => h
      | raised _ w => exact fun h => h
      | stop f => exact fun _ => trivial
    | stop f => exact fun _ => trivial

/-- What HT.DECODE may write. -/
abbrev decodeRegs : List Reg := [.brOpen, .brSize, .brBits, .srcPos, .srcEof, .dstPos, .dst, .result]

theorem walkDown_moves (steps : Nat) (nd : Node) (s : State) : (walkDown steps nd s).Moves decodeRegs s := by
  induction steps generalizing nd s with
  | zero => exact Within.refl _ _
  | succ steps ih =>
    rw [walkDown]
    refine ((readerBit_moves s).mono (by simp)).andThen fun bit t => ?_
    split
    · exact Within.refl _ _
    · split
      · exact Within.refl _ _
      · split
        · exact Within.refl _ _
        · exact ih _ t

theorem decodeSymbol_moves (s : State) : (decodeSymbol s).Moves decodeRegs s := by
  unfold decodeSymbol
  split
  · exact Within.refl _ _
  · refine (walkDown_moves _ _ s).andThen fun leaf t => ((dstByte_moves _ _ t).mono (by simp)).andThen fun _ u => ?_
    exact ⟨rfl, rfl, rfl, rfl, fun r hr => by cases r <;> simp_all [Reg.same]⟩

theorem decodeSymbols_moves (passes : Nat) (s : State) : (decodeSymbols passes s).Moves decodeRegs s := by
  induction passes generalizing s with
  | zero => exact Within.refl _ _
  | succ passes ih =>
    rw [decodeSymbols]
    split
    · exact Within.refl _ _
    · exact (decodeSymbol_moves s).andThen fun _ t => ih t

theorem decodeSource_moves (s : State) : (decodeSource s).Moves decodeRegs s := by
  have hc : ∀ t : State, Within decodeRegs t { t with brOpen := false } := fun t =>
    ⟨rfl, rfl, rfl, rfl, fun r hr => by cases r <;> simp_all [Reg.same]⟩
  unfold decodeSource
  split
  · exact Within.refl _ _
  · have h : ((readerOpen s).andThen fun _ s => decodeSymbols (bitsLeft s) s).Moves decodeRegs s :=
      ((readerOpen_moves s).mono (by simp)).andThen fun _ t => decodeSymbols_moves _ t
    revert h
    cases (readerOpen s).andThen fun _ s => decodeSymbols (bitsLeft s) s with
    | done _ t => exact fun h => Within.trans h (hc t)
    | raised e t => exact fun h => Within.trans h (hc t)
    | stop f => exact fun _ => trivial

theorem countLoop_moves (passes : Nat) (s : State) : (countLoop passes s).Moves [.srcPos, .srcEof, .mapping] s := by
  induction passes generalizing s with
  | zero => exact Within.refl _ _
  | succ passes ih =>
    rw [countLoop]
    refine ((srcNext_moves s).mono (by simp)).andThen fun v t => ?_
    cases v with
    | none => exact Within.refl _ _
    | some v => exact (ih _).from ⟨rfl, rfl, rfl, rfl, fun r hr => by cases r <;> simp_all [Reg.same, State.setSym]⟩

theorem countSource_moves (s : State) : (countSource s).Moves [.mapping] s := by
  have hcl : Within [.srcPos, .srcEof, .mapping] s s.clearSyms :=
    ⟨rfl, rfl, rfl, rfl, fun r hr => by cases r <;> simp_all [Reg.same, State.clearSyms]⟩
  have h := (countLoop_moves (srcAvail s + 1) s.clearSyms).from hcl
  unfold countSource
  have hraise : ∀ (n : Nat) (s : State), ∀ e t, countLoop n s ≠ .raised e t := by
    intro n
    induction n with
    | zero => intro s e t; simp [countLoop]
    | succ n ih =>
      intro s e t
      rw [countLoop]
      unfold srcNext
      split
      · simp
      · split
        · exact ih _ e t
        · simp
  revert h
  cases hc : countLoop (srcAvail s + 1) s.clearSyms with
  | done _ t =>
    intro h
    have h : Within [.srcPos, .srcEof, .mapping] s t := h
    refine ⟨h.cfg, h.src, h.pending, h.rdata, fun r hr => ?_⟩
    by_cases hm : r ∈ [Reg.srcPos, .srcEof, .mapping]
    · cases r <;> first | rfl | simp_all
    · have := h.same r hm
      cases r <;> first | rfl | exact this
  | raised e t => exact absurd hc (hraise _ _ e t)
  | stop f => exact fun _ => trivial

theorem padMapping_within (s : State) : Within [.mapping] s (padMapping s) := by
  rw [padMapping_eq]
  exact ⟨rfl, rfl, rfl, rfl, fun r hr => by cases r <;> simp_all [Reg.same]⟩

theorem buildTree_within (s : State) : Within [.node, .pq] s (buildTree s) := by
  rw [(buildTree_built s).1]
  exact ⟨rfl, rfl, rfl, rfl, fun r hr => by cases r <;> simp_all [Reg.same]⟩

theorem saveTree_moves (s : State) : (saveTree s).Moves [.dstPos, .dst] s := by
  unfold saveTree
  split
  · exact Within.refl _ _
  · split
    · exact Within.refl _ _
    · refine ((dstBytes_moves _ _ s).mono (by simp)).andThen fun _ t => ?_
      exact ⟨rfl, rfl, rfl, rfl, fun r hr => by cases r <;> simp_all [Reg.same]⟩

theorem loadTree_moves (s : State) : (loadTree s).Moves [.node, .srcPos, .srcEof] s := by
  unfold loadTree
  split
  · exact ⟨rfl, rfl, rfl, rfl, fun r hr => by cases r <;> simp_all [Reg.same]⟩
  · split
    · trivial
    · simp only
      split
      · exact ⟨rfl, rfl, rfl, rfl, fun r hr => by cases r <;> simp_all [Reg.same]⟩
      · split
        · trivial
        · exact ⟨rfl, rfl, rfl, rfl, fun r hr => by cases r <;> simp_all [Reg.same]⟩

/-- What ENCODE writes, the exception record apart. -/
abbrev fileWriteRegs : List Reg :=
  [.mapping, .node, .pq, .bwOpen, .bwHdr, .bwBits, .dstPos, .dst, .srcPos, .srcEof, .stack, .result]

theorem facadeEncode_moves (s : State) : (facadeEncode s).Moves fileWriteRegs s := by
  unfold facadeEncode
  split
  · exact Within.refl _ _
  · refine ((countSource_moves s).mono (by simp)).andThen fun _ t => ?_
    refine Eff.Moves.andThen (Eff.Moves.from ((saveTree_moves _).mono (by simp))
      (((padMapping_within t).mono (by simp)).trans ((buildTree_within _).mono (by simp)))) fun _ u => ?_
    refine ((encodeSource_moves u).mono (by simp)).andThen fun _ w => ?_
    exact ⟨rfl, rfl, rfl, rfl, fun r hr => by cases r <;> simp_all [Reg.same]⟩

/-- What DECODE writes, the exception record apart. -/
abbrev fileReadRegs : List Reg := [.node, .brOpen, .brSize, .brBits, .srcPos, .srcEof, .dstPos, .dst, .result]

theorem facadeDecode_moves (s : State) : (facadeDecode s).Moves fileReadRegs s := by
  unfold facadeDecode
  split
  · exact Within.refl _ _
  · refine ((loadTree_moves s).mono (by simp)).andThen fun _ t => ?_
    refine ((decodeSource_moves t).mono (by simp)).andThen fun _ w => ?_
    exact ⟨rfl, rfl, rfl, rfl, fun r hr => by cases r <;> simp_all [Reg.same]⟩

/-! ## DST is never read -/

/-- The outcome with another sink memory. -/
def Eff.setDst {α : Type} (m : Memory) : Eff α → Eff α
  | .done a s => .done a { s with dst := m }
  | .raised e s => .raised e { s with dst := m }
  | .stop f => .stop f

@[simp] theorem Memory.stores_nil (m : Memory) : m.stores [] = m := rfl

theorem Memory.stores_append (m : Memory) (c d : List Host.Cell) : m.stores (c ++ d) = (m.stores c).stores d :=
  List.foldl_append

/-- At an address the stores leave one byte whatever the memory, or each memory its own. -/
theorem Memory.read_stores (cells : List Host.Cell) (a : Nat) :
    (∃ v, ∀ m : Memory, m.wf → (m.stores cells).read a = v) ∨ ∀ m : Memory, m.wf → (m.stores cells).read a = m.read a := by
  induction cells with
  | nil => exact .inr fun _ _ => rfl
  | cons c cells ih =>
    rcases ih with ⟨v, h⟩ | h
    · exact .inl ⟨v, fun m hm => h _ (Memory.wf_write hm c.1 c.2)⟩
    · by_cases hc : a = c.1
      · exact .inl ⟨c.2, fun m hm => (h _ (Memory.wf_write hm c.1 c.2)).trans (by rw [Memory.read_write _ hm, if_pos hc])⟩
      · exact .inr fun m hm => (h _ (Memory.wf_write hm c.1 c.2)).trans (by rw [Memory.read_write _ hm, if_neg hc])

/-- Whatever the sink memory it starts on, the operation does the same and stores the same bytes at the same places. -/
def Blind {α : Type} (f : State → Eff α) : Prop :=
  ∀ s : State, ∃ cells : List Host.Cell, ∀ m : Memory, f { s with dst := m } = (f s).setDst (m.stores cells)

theorem Blind.andThen {α β : Type} {f : State → Eff α} {g : α → State → Eff β} (hf : Blind f) (hg : ∀ a, Blind (g a)) :
    Blind fun s => (f s).andThen g := by
  intro s
  obtain ⟨cells, h⟩ := hf s
  cases hr : f s with
  | done a t =>
    obtain ⟨more, h'⟩ := hg a t
    refine ⟨cells ++ more, fun m => ?_⟩
    simp only [hr]
    rw [h m, hr, Memory.stores_append]
    exact h' (m.stores cells)
  | raised e t => exact ⟨cells, fun m => by simp only [hr]; rw [h m, hr]; rfl⟩
  | stop x => exact ⟨cells, fun m => by simp only [hr]; rw [h m, hr]; rfl⟩

/-- What is done to the outcome without regard to DST. -/
theorem Blind.map {α β : Type} {f : State → Eff α} (hf : Blind f) {g : Eff α → Eff β}
    (hg : ∀ r m, g (r.setDst m) = (g r).setDst m) : Blind fun s => g (f s) := fun s => by
  obtain ⟨cells, h⟩ := hf s
  exact ⟨cells, fun m => (congrArg g (h m)).trans (hg _ _)⟩

theorem Blind.ite {α : Type} {p : State → Prop} [DecidablePred p] {f g : State → Eff α}
    (hp : ∀ s m, p { s with dst := m } ↔ p s) (hf : Blind f) (hg : Blind g) : Blind fun s => if p s then f s else g s :=
  fun s => by
    by_cases h : p s
    · obtain ⟨cells, hc⟩ := hf s
      exact ⟨cells, fun m => ((if_pos ((hp s m).2 h)).trans (hc m)).trans (congrArg (Eff.setDst _) (if_pos h).symm)⟩
    · obtain ⟨cells, hc⟩ := hg s
      exact ⟨cells, fun m => ((if_neg (mt (hp s m).1 h)).trans (hc m)).trans (congrArg (Eff.setDst _) (if_neg h).symm)⟩

/-- An operation that leaves DST as it is. -/
theorem blind_of {α : Type} {f : State → Eff α} (h : ∀ (s : State) (m : Memory), f { s with dst := m } = (f s).setDst m) :
    Blind f := fun s => ⟨[], h s⟩

theorem srcNext_blind : Blind srcNext := blind_of fun s m => by
  unfold srcNext
  simp only [show srcAvail { s with dst := m } = srcAvail s from rfl,
    show ∀ a n, srcHas { s with dst := m } a n = srcHas s a n from fun _ _ => rfl]
  split
  · rfl
  · split <;> rfl

theorem srcField_blind (n : Nat) : Blind (srcField n) := blind_of fun s m => by
  unfold srcField
  simp only [show srcAvail { s with dst := m } = srcAvail s from rfl,
    show ∀ a n, srcHas { s with dst := m } a n = srcHas s a n from fun _ _ => rfl]
  split
  · rfl
  · split <;> rfl

theorem dstByte_blind (a : Nat) (v : Byte) : Blind (dstByte a v) :=
  Blind.ite (fun _ _ => Iff.rfl) (fun _ => ⟨[], fun _ => rfl⟩) fun _ => ⟨[(a, v)], fun _ => rfl⟩

theorem dstBytes_blind (a : Nat) (bs : List Byte) : Blind (dstBytes a bs) := by
  induction bs generalizing a with
  | nil => exact fun _ => ⟨[], fun _ => rfl⟩
  | cons b bs ih => exact Blind.andThen (dstByte_blind a b) fun _ => ih (a + 1)

theorem writerOpen_blind : Blind writerOpen :=
  Blind.ite (fun _ _ => Iff.rfl) (fun _ => ⟨[], fun _ => rfl⟩) <|
    Blind.ite (fun _ _ => Iff.rfl) (fun _ => ⟨[], fun _ => rfl⟩) fun s =>
      Blind.andThen (f := memWrite s.dstPos.toNat 4 0) (dstBytes_blind _ _) (fun _ _ => ⟨[], fun _ => rfl⟩)
        { s with bwHdr := s.dstPos }

theorem writerBit_blind (b : Bool) : Blind (writerBit b) :=
  Blind.ite (fun _ _ => Iff.rfl) (fun _ => ⟨[], fun _ => rfl⟩) <|
    Blind.ite (fun _ _ => Iff.rfl) (fun _ => ⟨[], fun _ => rfl⟩) <|
      Blind.ite (fun _ _ => Iff.rfl) (fun s => Blind.andThen
          (dstByte_blind (payloadAddr s) (packBit s.bwAcc (s.bwCnt.toNat % 8) b))
          (g := fun _ t => .done () { t with
            bwAcc := 0, dstPos := BitVec.ofNat 32 (payloadAddr s + 1), bwCnt := s.bwCnt + 1 })
          (fun _ _ => ⟨[], fun _ => rfl⟩) s)
        (fun _ => ⟨[], fun _ => rfl⟩)

theorem flushPartial_blind : Blind flushPartial :=
  Blind.ite (fun _ _ => Iff.rfl) (fun _ => ⟨[], fun _ => rfl⟩) fun s => dstByte_blind (payloadAddr s) s.bwAcc s

theorem writerFlush_blind : Blind writerFlush :=
  Blind.ite (fun _ _ => Iff.rfl) (fun _ => ⟨[], fun _ => rfl⟩) <|
    Blind.andThen flushPartial_blind fun _ s => dstBytes_blind s.bwHdr.toNat (leBytes 4 s.bwCnt.toNat)
      { s with dstPos := BitVec.ofNat 32 (s.bwHdr.toNat + 4 + ceil8 s.bwCnt.toNat) }

theorem writerDestroy_blind : Blind writerDestroy :=
  Blind.ite (fun _ _ => Iff.rfl) (fun _ => ⟨[], fun _ => rfl⟩) <|
    writerFlush_blind.map (g := fun r => match r with
      | .done _ s => .done () { s with bwOpen := false }
      | .raised e s => .raised e { s with bwOpen := false }
      | .stop f => .stop f) fun r m => by cases r <;> rfl

theorem readerOpen_blind : Blind readerOpen := by
  refine Blind.andThen (f := fun s => srcField 4 { s with brOpen := false }) (fun s => ?_) fun h => ?_
  · exact srcField_blind 4 { s with brOpen := false }
  · cases h <;> exact fun _ => ⟨[], fun _ => rfl⟩

theorem readerFetch_blind : Blind readerFetch :=
  Blind.ite (fun _ _ => Iff.rfl)
    (Blind.andThen srcNext_blind fun v => by cases v <;> exact fun _ => ⟨[], fun _ => rfl⟩) (fun _ => ⟨[], fun _ => rfl⟩)

theorem readerBit_blind : Blind readerBit :=
  Blind.ite (fun _ _ => Iff.rfl) (fun _ => ⟨[], fun _ => rfl⟩) <|
    Blind.ite (fun _ _ => Iff.rfl) (fun _ => ⟨[], fun _ => rfl⟩) <|
      Blind.andThen readerFetch_blind fun _ _ => ⟨[], fun _ => rfl⟩

theorem walkUp_blind (room : Nat) (nd : Node) : Blind (walkUp room nd) := by
  induction room generalizing nd with
  | zero =>
    intro s
    unfold walkUp
    split <;> exact ⟨[], fun _ => rfl⟩
  | succ room ih =>
    intro s
    unfold walkUp
    split
    · exact ⟨[], fun _ => rfl⟩
    · simp only [show ∀ m, (pushSide nd.side { s with dst := m }).node = s.node from fun _ => rfl,
        show (pushSide nd.side s).node = s.node from rfl]
      split
      · exact ⟨[], fun _ => rfl⟩
      · exact ih _ (pushSide nd.side s)

theorem emitBits_blind (n : Nat) : Blind (emitBits n) := by
  induction n with
  | zero => exact fun _ => ⟨[], fun _ => rfl⟩
  | succ n ih =>
    intro s
    unfold emitBits
    obtain ⟨cells, h⟩ := writerBit_blind (({ s with sp := n } : State).stkBit n) { s with sp := n }
    have h' : ∀ m, writerBit (({ s with dst := m, sp := n } : State).stkBit n) { s with dst := m, sp := n }
        = (writerBit (({ s with sp := n } : State).stkBit n) { s with sp := n }).setDst (m.stores cells) := h
    cases hr : writerBit (({ s with sp := n } : State).stkBit n) { s with sp := n } with
    | done _ t =>
      obtain ⟨more, h⟩ := ih t
      refine ⟨cells ++ more, fun m => ?_⟩
      simp only [h' m, hr, Memory.stores_append]
      exact h (m.stores cells)
    | raised e t => exact ⟨cells, fun m => by simp only [h' m, hr]; rfl⟩
    | stop f => exact ⟨cells, fun m => by simp only [h' m, hr]; rfl⟩

theorem encodeSymbol_blind (v : Byte) : Blind (encodeSymbol v) := fun s => by
  unfold encodeSymbol
  simp only [show ∀ m, locateLeaf { s with dst := m } v = locateLeaf s v from fun _ => rfl]
  split
  · exact ⟨[], fun _ => rfl⟩
  · next nd _ =>
    exact Blind.andThen (f := walkUp stkDepth nd) (walkUp_blind _ _) (fun _ s => emitBits_blind s.sp s) { s with sp := 0 }

theorem encodeSymbols_blind (passes : Nat) : Blind (encodeSymbols passes) := by
  induction passes with
  | zero => exact fun _ => ⟨[], fun _ => rfl⟩
  | succ passes ih =>
    intro s
    simp only [encodeSymbols]
    refine Blind.andThen srcNext_blind (fun v => ?_) s
    cases v with
    | none => exact fun _ => ⟨[], fun _ => rfl⟩
    | some v => exact Blind.andThen (encodeSymbol_blind v) fun _ => ih

theorem releaseWriter_blind {f : State → Eff Unit} (hf : Blind f) : Blind fun s => releaseWriter (f s) := by
  intro s
  obtain ⟨cells, h⟩ := hf s
  cases hr : f s with
  | done _ t =>
    obtain ⟨more, h'⟩ := writerDestroy_blind t
    refine ⟨cells ++ more, fun m => ?_⟩
    simp only [hr]
    rw [h m, hr, Memory.stores_append]
    exact h' (m.stores cells)
  | raised e t =>
    obtain ⟨more, h'⟩ := writerDestroy_blind t
    refine ⟨cells ++ more, fun m => ?_⟩
    simp only [hr]
    rw [h m, hr, Memory.stores_append]
    simp only [Eff.setDst, releaseWriter]
    rw [h' (m.stores cells)]
    cases writerDestroy t <;> rfl
  | stop x => exact ⟨cells, fun m => by simp only [hr]; rw [h m, hr]; rfl⟩

theorem encodeSource_blind : Blind encodeSource :=
  Blind.ite (fun _ _ => Iff.rfl) (fun _ => ⟨[], fun _ => rfl⟩) <|
    Blind.andThen writerOpen_blind fun _ =>
      releaseWriter_blind (f := fun s => encodeSymbols (srcAvail s + 1) s) fun s => encodeSymbols_blind (srcAvail s + 1) s

theorem walkDown_blind (steps : Nat) (nd : Node) : Blind (walkDown steps nd) := by
  induction steps generalizing nd with
  | zero => exact fun _ => ⟨[], fun _ => rfl⟩
  | succ steps ih =>
    intro s
    simp only [walkDown]
    refine Blind.andThen readerBit_blind (fun bit s => ?_) s
    simp only
    split
    · exact ⟨[], fun _ => rfl⟩
    · split
      · exact ⟨[], fun _ => rfl⟩
      · split
        · exact ⟨[], fun _ => rfl⟩
        · exact ih _ s

theorem decodeSymbol_blind : Blind decodeSymbol := fun s => by
  cases hroot : s.node.getLast? with
  | none => exact ⟨[], fun m => by simp only [decodeSymbol, hroot]; rfl⟩
  | some root =>
    obtain ⟨cells, h⟩ := Blind.andThen (walkDown_blind (bitsLeft s + 1) root)
      (g := fun leaf s => (dstByte s.dstPos.toNat leaf.sym s).andThen fun _ s => .done () { s with dstPos := s.dstPos + 1 })
      (fun leaf s => Blind.andThen (dstByte_blind s.dstPos.toNat leaf.sym) (fun _ _ => ⟨[], fun _ => rfl⟩) s) s
    exact ⟨cells, fun m => by simp only [decodeSymbol, hroot]; exact h m⟩

theorem decodeSymbols_blind (passes : Nat) : Blind (decodeSymbols passes) := by
  induction passes with
  | zero => exact fun _ => ⟨[], fun _ => rfl⟩
  | succ passes ih =>
    exact Blind.ite (fun _ _ => Iff.rfl) (fun _ => ⟨[], fun _ => rfl⟩) (Blind.andThen decodeSymbol_blind fun _ => ih)

theorem decodeSource_blind : Blind decodeSource :=
  Blind.ite (fun _ _ => Iff.rfl) (fun _ => ⟨[], fun _ => rfl⟩) <|
    (Blind.andThen readerOpen_blind (g := fun _ s => decodeSymbols (bitsLeft s) s)
      (fun _ s => decodeSymbols_blind (bitsLeft s) s)).map (g := closeReader) fun r m => by cases r <;> rfl

theorem countLoop_blind (passes : Nat) : Blind (countLoop passes) := by
  induction passes with
  | zero => exact fun _ => ⟨[], fun _ => rfl⟩
  | succ passes ih =>
    intro s
    simp only [countLoop]
    refine Blind.andThen srcNext_blind (fun v => ?_) s
    cases v with
    | none => exact fun _ => ⟨[], fun _ => rfl⟩
    | some v => exact fun s => ih (s.setSym v (s.freqOf v + 1))

theorem countSource_blind : Blind countSource := fun s => by
  unfold countSource
  exact Blind.andThen (countLoop_blind (srcAvail s + 1))
    (g := fun _ t => .done () { t with srcPos := s.srcPos, srcEof := s.srcEof }) (fun _ _ => ⟨[], fun _ => rfl⟩) s.clearSyms

theorem padMapping_dst (s : State) (m : Memory) : padMapping { s with dst := m } = { padMapping s with dst := m } := by
  have hp : ∀ (v : Byte) (s : State), padSym v { s with dst := m } = { padSym v s with dst := m } := fun v s => by
    unfold padSym
    rw [show ({ s with dst := m } : State).hasSym v = s.hasSym v from rfl]
    split <;> rfl
  unfold padMapping
  rw [show ({ s with dst := m } : State).symbols = s.symbols from rfl]
  split
  · rw [hp, hp]
  · rfl

theorem addLeaves_dst (l : List Byte) (s : State) (m : Memory) :
    l.foldl addLeaf { s with dst := m } = { l.foldl addLeaf s with dst := m } := by
  induction l generalizing s with
  | nil => rfl
  | cons v l ih => exact ih (addLeaf s v)

theorem mergeAll_dst (passes : Nat) (s : State) (m : Memory) :
    mergeAll passes { s with dst := m } = { mergeAll passes s with dst := m } := by
  induction passes generalizing s with
  | zero => rfl
  | succ passes ih =>
    have h : mergePass { s with dst := m } = { mergePass s with dst := m } := by
      unfold mergePass
      simp only
      split <;> rfl
    rw [mergeAll, h, ih, mergeAll]

theorem buildTree_dst (s : State) (m : Memory) : buildTree { s with dst := m } = { buildTree s with dst := m } := by
  have h : seedTree { s with dst := m } = { seedTree s with dst := m } := addLeaves_dst s.symbols { s with node := [], pq := [] } m
  unfold buildTree
  simp only [h, mergeAll_dst]

theorem saveTree_blind : Blind saveTree :=
  Blind.ite (fun _ _ => Iff.rfl) (fun _ => ⟨[], fun _ => rfl⟩) <|
    Blind.ite (fun _ _ => Iff.rfl) (fun _ => ⟨[], fun _ => rfl⟩) fun s =>
      Blind.andThen (dstBytes_blind s.dstPos.toNat (treeBlock s.node))
        (g := fun _ t => .done () { t with dstPos := BitVec.ofNat 32 (s.dstPos.toNat + blockSize s.nn) })
        (fun _ _ => ⟨[], fun _ => rfl⟩) s

theorem loadTree_blind : Blind loadTree := blind_of fun s m => by
  unfold loadTree
  simp only [show srcAvail { s with dst := m } = srcAvail s from rfl,
    show ∀ a n, srcHas { s with dst := m } a n = srcHas s a n from fun _ _ => rfl]
  split
  · rfl
  · split
    · rfl
    · split
      · rfl
      · split <;> rfl

theorem facadeEncode_blind : Blind facadeEncode :=
  Blind.ite (fun _ _ => Iff.rfl) (fun _ => ⟨[], fun _ => rfl⟩) <|
    Blind.andThen countSource_blind fun _ s => by
      simp only [padMapping_dst, buildTree_dst]
      exact Blind.andThen saveTree_blind (fun _ => Blind.andThen encodeSource_blind fun _ _ => ⟨[], fun _ => rfl⟩)
        (buildTree (padMapping s))

theorem facadeDecode_blind : Blind facadeDecode :=
  Blind.ite (fun _ _ => Iff.rfl) (fun _ => ⟨[], fun _ => rfl⟩) <|
    Blind.andThen loadTree_blind fun _ => Blind.andThen decodeSource_blind fun _ _ => ⟨[], fun _ => rfl⟩

/-- A command that reaches t does the same on every sink memory, and stores the same bytes at the same places. -/
def SinkBlind (f : State → Result) (s t : State) : Prop := ∃ cells : List Host.Cell,
  (∀ m : Memory, f { s with dst := m } = .next { t with dst := m.stores cells }) ∧
  ∀ m : Memory, s.dst.wf → m.wf → ∀ a, (m.stores cells).read a = t.dst.read a ∨
    ((m.stores cells).read a = m.read a ∧ t.dst.read a = s.dst.read a)

/-- The stores a command makes on every memory are those it makes on its own. -/
theorem sinkBlind_of {f : State → Result} {s t : State} (h : f s = .next t) (cells : List Host.Cell)
    (hc : ∀ m : Memory, f { s with dst := m } = .next { t with dst := m.stores cells }) : SinkBlind f s t := by
  refine ⟨cells, hc, fun m hs hm a => ?_⟩
  have hd : t.dst = s.dst.stores cells := by
    have := hc s.dst
    rw [show ({ s with dst := s.dst } : State) = s from rfl, h] at this
    exact congrArg State.dst (Host.Outcome.next.inj this)
  rw [hd]
  rcases Memory.read_stores cells a with ⟨v, hv⟩ | hv
  · exact .inl ((hv m hm).trans (hv _ hs).symm)
  · exact .inr ⟨hv m hm, hv _ hs⟩

/-- A command over such an operation goes on alike on every sink memory. -/
theorem Blind.finish {α : Type} {f : State → Eff α} (hf : Blind f) {s t : State} (h : (f s).finish = .next t) :
    SinkBlind (fun s => (f s).finish) s t := by
  obtain ⟨cells, hc⟩ := hf s
  refine sinkBlind_of h cells fun m => (congrArg Eff.finish (hc m)).trans ?_
  rcases Eff.finish_next h with ⟨a, ha⟩ | ⟨e, u, ha, rfl⟩
  · rw [ha]; rfl
  · rw [ha]
    show Host.Outcome.next _ = _
    congr 1
    unfold raiseExc
    split <;> rfl

end Sys2Proof.Machine
end

