-- ==== Sys2Proof/Laws/Optimal.lean ====
section
/-! SUPPORT. Towards the optimality of HT.BUILD's tree (spec/43_tree_build.md R186): the cost of a constructed tree is the
sum of its merged weights; no lengths that meet Kraft's inequality cost less than Huffman's merge; the lengths of a prefix
code meet it. -/

namespace Sys2Proof.Machine

/-! ## The cost of a constructed tree -/

section
variable {syms : List Byte} {f : Byte → Nat} {ws : List Nat} {nodes : List Node}

/-- The number of steps from node i to the root. -/
def depthAt (nodes : List Node) (i : Nat) : Nat := ((sidesUp nodes nodes.length (nodeAt nodes i)).getD []).length

theorem Built.depth_root (h : Built syms f ws nodes) {i : Nat} (hi : i + 1 = nodes.length) : depthAt nodes i = 0 := by
  have hp := (h.root i (by omega)).2 hi
  unfold depthAt
  cases hn : nodes.length <;> simp [sidesUp, hp]

theorem Built.depth_up (h : Built syms f ws nodes) {i : Nat} (hi : i + 1 < nodes.length) :
    depthAt nodes i = depthAt nodes (nodeAt nodes i).par.toNat + 1 := by
  have hp : (nodeAt nodes i).par ≠ sentinel := fun hp => by
    have := (h.root i (by omega)).1 hp; omega
  obtain ⟨-, h2, h3, -⟩ := h.up i (by omega) hp
  obtain ⟨n, hn⟩ : ∃ n, nodes.length = n + 1 := ⟨nodes.length - 1, by omega⟩
  obtain ⟨up, hup⟩ := h.sidesUp_inner (room := n) h2 (by omega)
  unfold depthAt
  rw [sidesUp_mono hup (show n ≤ nodes.length by omega), hn, sidesUp, if_neg hp, getElem?_eq_nodeAt h2]
  simp [hup]

/-- Every node but the root is a child of exactly one merged node. -/
theorem Built.sum_children (h : Built syms f ws nodes) (g : Nat → Nat) :
    ∑ i ∈ Finset.Ico syms.length nodes.length, (g (nodeAt nodes i).c0.toNat + g (nodeAt nodes i).c1.toNat)
      = ∑ j ∈ Finset.range (nodes.length - 1), g j := by
  have hpar : ∀ j ∈ Finset.range (nodes.length - 1),
      (nodeAt nodes j).par.toNat ∈ Finset.Ico syms.length nodes.length := fun j hj => by
    have hj := Finset.mem_range.1 hj
    have hp : (nodeAt nodes j).par ≠ sentinel := fun hp => by
      have := (h.root j (by omega)).1 hp; omega
    obtain ⟨-, h2, h3, -⟩ := h.up j (by omega) hp
    exact Finset.mem_Ico.2 ⟨h3, h2⟩
  rw [← Finset.sum_fiberwise_of_maps_to hpar]
  refine Finset.sum_congr rfl fun i hi => ?_
  obtain ⟨hN, hlt⟩ := Finset.mem_Ico.1 hi
  obtain ⟨a, b, m⟩ := h.inner i hlt hN
  have hab : a ≠ b := fun hab => by
    have h1 := m.a_side
    rw [hab, m.b_side] at h1
    simp at h1
  have ha := m.a_lt
  have hb := m.b_lt
  have hfib : (Finset.range (nodes.length - 1)).filter (fun j => (nodeAt nodes j).par.toNat = i) = {a, b} := by
    ext j
    simp only [Finset.mem_filter, Finset.mem_range, Finset.mem_insert, Finset.mem_singleton]
    constructor
    · rintro ⟨hj, hji⟩
      have hp : (nodeAt nodes j).par ≠ sentinel := fun hp => by
        have := (h.root j (by omega)).1 hp; omega
      obtain ⟨-, -, -, h4⟩ := h.up j (by omega) hp
      rw [hji] at h4
      unfold Node.child at h4
      split at h4
      · exact .inr (by rw [← h4, m.c1])
      · exact .inl (by rw [← h4, m.c0])
    · rintro (rfl | rfl)
      · exact ⟨by omega, m.a_par⟩
      · exact ⟨by omega, m.b_par⟩
  rw [hfib, Finset.sum_pair hab, m.c0, m.c1]

/-- The weighted path length of the leaves is the sum of the merged weights. -/
theorem Built.cost_nodes (h : Built syms f ws nodes) (hN : 0 < syms.length) :
    ∑ i ∈ Finset.range syms.length, weightAt ws i * depthAt nodes i
      = ∑ i ∈ Finset.Ico syms.length nodes.length, weightAt ws i := by
  have hlen := h.len
  have hmerge : ∑ i ∈ Finset.Ico syms.length nodes.length, (weightAt ws i * depthAt nodes i + weightAt ws i)
      = ∑ j ∈ Finset.range (nodes.length - 1), weightAt ws j * depthAt nodes j := by
    rw [← h.sum_children]
    refine Finset.sum_congr rfl fun i hi => ?_
    obtain ⟨hN, hlt⟩ := Finset.mem_Ico.1 hi
    obtain ⟨a, b, m⟩ := h.inner i hlt hN
    have ha := m.a_lt
    have hb := m.b_lt
    rw [m.c0, m.c1, h.depth_up (i := a) (by omega), h.depth_up (i := b) (by omega), m.a_par, m.b_par, m.weight]
    ring
  have hall : ∑ j ∈ Finset.range nodes.length, weightAt ws j * depthAt nodes j
      = ∑ j ∈ Finset.range (nodes.length - 1), weightAt ws j * depthAt nodes j := by
    obtain ⟨n, hn⟩ : ∃ n, nodes.length = n + 1 := ⟨nodes.length - 1, by omega⟩
    rw [hn, Finset.sum_range_succ, h.depth_root (i := n) (by omega)]
    simp
  rw [Finset.sum_add_distrib] at hmerge
  have hsplit := Finset.sum_range_add_sum_Ico (fun j => weightAt ws j * depthAt nodes j)
    (show syms.length ≤ nodes.length by omega)
  omega

theorem Built.leaf_sym (h : Built syms f ws nodes) {i : Nat} (hi : i < syms.length) : (nodeAt nodes i).sym = syms[i] := by
  have := (h.leaf i hi).2.2.1
  rw [List.getElem?_eq_getElem hi] at this
  exact (Option.some.inj this).symm

/-- A symbol's code word is as long as its leaf is deep. -/
theorem Built.codeWord_length (h : Built syms f ws nodes) (h256 : syms.length ≤ 256) (hnd : syms.Nodup) {i : Nat}
    (hi : i < syms.length) : ∃ w, Machine.codeWord nodes syms[i] = some w ∧ w.length = depthAt nodes i := by
  have hlen := h.len
  obtain ⟨j, hj, hleaf, hsym⟩ := h.leafOf (List.getElem_mem hi)
  have hij : j = i := by
    rw [h.leaf_sym hj] at hsym
    exact (List.Nodup.getElem_inj_iff hnd).1 hsym
  subst hij
  obtain ⟨up, hup, -⟩ := h.sidesUp_leaf h256 hj
  refine ⟨up.reverse, by simp [Machine.codeWord, hleaf, hup], ?_⟩
  obtain ⟨up', hup'⟩ := h.sidesUp_inner (room := nodes.length) (i := j) (by omega) (by omega)
  have h1 := sidesUp_mono hup (show stkDepth ≤ nodes.length + stkDepth by omega)
  have h2 := sidesUp_mono hup' (show nodes.length ≤ nodes.length + stkDepth by omega)
  rw [h1] at h2
  unfold depthAt
  rw [hup', ← Option.some.inj h2]
  simp

theorem sum_map_eq_range {α : Type} (l : List α) (g : Nat → Nat) (f : α → Nat) (h : ∀ i (hi : i < l.length), f l[i] = g i) :
    (l.map f).sum = ∑ i ∈ Finset.range l.length, g i := by
  induction l using List.reverseRecOn with
  | nil => simp
  | append_singleton l x ih =>
    rw [List.map_append, List.sum_append, ih fun i hi => by
      have := h i (by simp; omega)
      rwa [List.getElem_append_left hi] at this]
    rw [List.length_append, List.length_singleton, Finset.sum_range_succ]
    have := h l.length (by simp)
    simp at this
    simp [this]

/-- The weighted sum of the code lengths is the sum of the merged weights. -/
theorem Built.cost {more : List Nat} (h : Built syms f (syms.map f ++ more) nodes) (h256 : syms.length ≤ 256)
    (hnd : syms.Nodup) {len : Byte → Nat}
    (hl : ∀ v ∈ syms, ∃ w, Machine.codeWord nodes v = some w ∧ len v = w.length) :
    (syms.map fun v => f v * len v).sum = more.sum := by
  have hlen := h.len
  have hws := h.ws_len
  by_cases hN : syms.length = 0
  · rw [List.length_eq_zero_iff] at hN
    subst hN
    simp only [List.map_nil, List.nil_append, List.length_nil] at hws hlen
    have : more = [] := List.length_eq_zero_iff.1 (by omega)
    simp [this]
  · have h1 := h.cost_nodes (by omega)
    rw [sum_map_eq_range syms (fun i => weightAt (syms.map f ++ more) i * depthAt nodes i) _ fun i hi => ?_, h1]
    · have h2 := sum_map_eq_range more (fun i => weightAt (syms.map f ++ more) (syms.length + i)) id fun i hi => by
        simp [weightAt, hi]
      rw [List.map_id] at h2
      rw [h2, Finset.sum_Ico_eq_sum_range]
      simp at hws
      congr 2
      omega
    · obtain ⟨w, hw, hwl⟩ := h.codeWord_length h256 hnd hi
      obtain ⟨w', hw', hl'⟩ := hl _ (List.getElem_mem hi)
      rw [hw] at hw'
      rw [hl', ← Option.some.inj hw', hwl, (h.leaf i hi).2.2.2, h.leaf_sym hi]

end

/-! ## No lengths cost less than the merge -/

/-- The cost of (weight, length) pairs. -/
def pairCost (m : List (Nat × Nat)) : Nat := (m.map fun p => p.1 * p.2).sum

/-- Kraft's inequality for the lengths of the pairs, none above L, in units of 2^-L. -/
def Kraft (L : Nat) (m : List (Nat × Nat)) : Prop :=
  (∀ p ∈ m, p.2 ≤ L) ∧ (m.map fun p => 2 ^ (L - p.2)).sum ≤ 2 ^ L

theorem pairCost_perm {m n : List (Nat × Nat)} (h : m.Perm n) : pairCost m = pairCost n := (h.map _).sum_eq

theorem Kraft.perm {L : Nat} {m n : List (Nat × Nat)} (h : m.Perm n) (hk : Kraft L m) : Kraft L n :=
  ⟨fun p hp => hk.1 p (h.mem_iff.2 hp), by rw [← (h.map _).sum_eq]; exact hk.2⟩

/-- The least weight may take the greatest length: it costs no more. -/
theorem exchange {L a : Nat} {q : List Nat} {r : List (Nat × Nat)} (hr : (r.map Prod.fst).Perm (a :: q))
    (ha : ∀ w ∈ q, a ≤ w) (hL : ∃ p ∈ r, p.2 = L) (hle : ∀ p ∈ r, p.2 ≤ L) :
    ∃ r', (r'.map Prod.fst).Perm q ∧ (L :: r'.map Prod.snd).Perm (r.map Prod.snd)
      ∧ a * L + pairCost r' ≤ pairCost r := by
  obtain ⟨⟨a', d⟩, hmem, rfl⟩ : ∃ p ∈ r, p.1 = a := by
    have : a ∈ r.map Prod.fst := hr.mem_iff.2 (by simp)
    simpa using this
  obtain ⟨r1, hr1⟩ : ∃ r1, r.Perm ((a', d) :: r1) := ⟨_, List.perm_cons_erase hmem⟩
  have hq : (r1.map Prod.fst).Perm q := by
    have := (hr1.map Prod.fst).symm.trans hr
    simpa using this
  have hc := pairCost_perm hr1
  by_cases hd : d = L
  · subst hd
    refine ⟨r1, hq, ?_, ?_⟩
    · simpa using (hr1.map Prod.snd).symm
    · rw [hc]; simp [pairCost]
  · obtain ⟨⟨w, L'⟩, hp, hpL⟩ := hL
    simp only at hpL
    subst hpL
    have hp1 : (w, L') ∈ r1 := by
      rcases List.mem_cons.1 (hr1.mem_iff.1 hp) with h | h
      · exact absurd (congrArg Prod.snd h).symm hd
      · exact h
    have hr2 := List.perm_cons_erase hp1
    set r2 := r1.erase (w, L')
    have hw : a' ≤ w := ha w (by
      have : w ∈ r1.map Prod.fst := List.mem_map.2 ⟨_, hp1, rfl⟩
      exact hq.mem_iff.1 this)
    have hdL : d ≤ L' := hle (a', d) hmem
    refine ⟨(w, d) :: r2, ?_, ?_, ?_⟩
    · exact ((hr2.map Prod.fst).symm.trans hq)
    · refine List.Perm.trans ?_ ((hr1.map Prod.snd).trans ((hr2.map Prod.snd).cons d)).symm
      exact List.Perm.swap _ _ _
    · rw [hc, show pairCost ((a', d) :: r1) = a' * d + pairCost r1 by simp [pairCost], pairCost_perm hr2]
      simp only [pairCost, List.map_cons, List.sum_cons]
      obtain ⟨k, rfl⟩ := Nat.exists_eq_add_of_le hw
      obtain ⟨e, rfl⟩ := Nat.exists_eq_add_of_le hdL
      nlinarith [Nat.zero_le (k * e)]

theorem kraft_succ {L : Nat} {m : List (Nat × Nat)} (h : ∀ p ∈ m, p.2 ≤ L) :
    (m.map fun p => 2 ^ (L + 1 - p.2)).sum = 2 * (m.map fun p => 2 ^ (L - p.2)).sum := by
  induction m with
  | nil => rfl
  | cons p m ih =>
    simp only [List.map_cons, List.sum_cons, ih fun q hq => h q (by simp [hq])]
    have := h p (by simp)
    rw [show L + 1 - p.2 = L - p.2 + 1 by omega, Nat.pow_succ]
    ring

/-- Unless two lengths are the greatest, a smaller bound will do, at no more cost. -/
theorem kraft_reduce {L : Nat} {ws : List Nat} {m : List (Nat × Nat)} (hm : (m.map Prod.fst).Perm ws)
    (hk : Kraft (L + 1) m) (h2 : (m.filter fun p => p.2 = L + 1).length < 2) :
    ∃ m', (m'.map Prod.fst).Perm ws ∧ Kraft L m' ∧ pairCost m' ≤ pairCost m := by
  have hrest : ∀ r : List (Nat × Nat), (∀ p ∈ r, p.2 ≤ L + 1) → r.filter (fun p => p.2 = L + 1) = [] →
      ∀ p ∈ r, p.2 ≤ L := fun r h1 h2 p hp => by
    have := h1 p hp
    have : p.2 ≠ L + 1 := fun he => by
      have : p ∈ r.filter (fun p => p.2 = L + 1) := List.mem_filter.2 ⟨hp, by simpa using he⟩
      rw [h2] at this
      simp at this
    omega
  by_cases h0 : m.filter (fun p => p.2 = L + 1) = []
  · have hle := hrest m hk.1 h0
    refine ⟨m, hm, ⟨hle, ?_⟩, Nat.le_refl _⟩
    have := hk.2
    rw [kraft_succ hle, Nat.pow_succ] at this
    omega
  · obtain ⟨p, hp⟩ := List.exists_mem_of_ne_nil _ h0
    obtain ⟨hpm, hpL⟩ := List.mem_filter.1 hp
    simp only [decide_eq_true_eq] at hpL
    have hperm := List.perm_cons_erase hpm
    set r := m.erase p
    have hr0 : r.filter (fun p => p.2 = L + 1) = [] := by
      have := (hperm.filter (fun p => p.2 = L + 1)).length_eq
      rw [List.filter_cons_of_pos (by simpa using hpL)] at this
      simp only [List.length_cons] at this
      exact List.length_eq_zero_iff.1 (by omega)
    have hk' := hk.perm hperm
    have hle := hrest r (fun q hq => hk'.1 q (by simp [hq])) hr0
    refine ⟨(p.1, L) :: r, ?_, ⟨?_, ?_⟩, ?_⟩
    · exact (hperm.map Prod.fst).symm.trans hm
    · intro q hq
      rcases List.mem_cons.1 hq with rfl | hq
      · exact Nat.le_refl _
      · exact hle q hq
    · have := hk'.2
      simp only [List.map_cons, List.sum_cons, hpL, kraft_succ hle, Nat.pow_succ, Nat.sub_self, Nat.pow_zero] at this ⊢
      omega
    · rw [pairCost_perm hperm]
      simp only [pairCost, List.map_cons, List.sum_cons, hpL]
      exact Nat.add_le_add_right (Nat.mul_le_mul_left _ (by omega)) _

theorem filter_snd (L : Nat) (m : List (Nat × Nat)) :
    (m.filter fun p => p.2 = L).length = ((m.map Prod.snd).filter (· = L)).length := by
  rw [List.filter_map, List.length_map]
  rfl

theorem kraft_snd {L : Nat} {m : List (Nat × Nat)} :
    Kraft L m ↔ (∀ d ∈ m.map Prod.snd, d ≤ L) ∧ ((m.map Prod.snd).map fun d => 2 ^ (L - d)).sum ≤ 2 ^ L := by
  simp only [Kraft, List.map_map, Function.comp_def, List.mem_map, forall_exists_index, and_imp,
    forall_apply_eq_imp_iff₂]

/-- Huffman's merge costs no more than any lengths that meet Kraft's inequality (R186). -/
theorem mergeCost_le (passes : Nat) (ws : List Nat) (hs : ws.Pairwise (· ≤ ·)) (hlen : ws.length ≤ passes + 1)
    (L : Nat) (m : List (Nat × Nat)) (hm : (m.map Prod.fst).Perm ws) (hk : Kraft L m) :
    mergeCost passes ws ≤ pairCost m := by
  induction passes generalizing ws L m with
  | zero => exact Nat.zero_le _
  | succ passes ih =>
    match ws with
    | [] => exact Nat.zero_le _
    | [_] => exact Nat.zero_le _
    | a :: b :: q =>
      rw [List.pairwise_cons, List.pairwise_cons] at hs
      obtain ⟨hsa, hsb, hsq⟩ := hs
      rw [mergeCost]
      induction L generalizing m with
      | zero =>
        have hl := hm.length_eq
        simp only [List.length_map, List.length_cons] at hl
        have := hk.2
        rw [List.map_congr_left (g := fun _ => 1) fun p hp => by simp] at this
        simp at this
        omega
      | succ L ihL =>
        by_cases h2 : (m.filter fun p => p.2 = L + 1).length < 2
        · obtain ⟨m', h1, h3, h4⟩ := kraft_reduce hm hk h2
          exact (ihL m' h3 h1).trans h4
        · have hex : ∀ r : List (Nat × Nat), 0 < ((r.map Prod.snd).filter (· = L + 1)).length → ∃ p ∈ r, p.2 = L + 1 :=
            fun r hr => by
              rw [← filter_snd] at hr
              obtain ⟨p, hp⟩ := List.exists_mem_of_length_pos hr
              obtain ⟨h1, h2⟩ := List.mem_filter.1 hp
              exact ⟨p, h1, by simpa using h2⟩
          rw [filter_snd] at h2
          obtain ⟨r, hr1, hr2, hr3⟩ := exchange hm hsa (hex m (by omega)) hk.1
          have hks := kraft_snd.1 hk
          have hcnt := (hr2.filter (· = L + 1)).length_eq
          rw [List.filter_cons_of_pos (by simp), List.length_cons] at hcnt
          have hler : ∀ p ∈ r, p.2 ≤ L + 1 := fun p hp =>
            hks.1 p.2 (hr2.mem_iff.1 (List.mem_cons_of_mem _ (List.mem_map.2 ⟨p, hp, rfl⟩)))
          obtain ⟨r', hq1, hq2, hq3⟩ := exchange hr1 hsb (hex r (by omega)) hler
          have hperm : ((L + 1) :: (L + 1) :: r'.map Prod.snd).Perm (m.map Prod.snd) := (hq2.cons _).trans hr2
          have hsum := ((hperm.map fun d => 2 ^ (L + 1 - d)).sum_eq).trans_le hks.2
          have hk' : Kraft (L + 1) ((a + b, L) :: r') := by
            refine ⟨?_, ?_⟩
            · intro p hp
              rcases List.mem_cons.1 hp with rfl | hp
              · show L ≤ L + 1; omega
              · exact hks.1 p.2 (hperm.mem_iff.1 (by simp [List.mem_map.2 ⟨p, hp, rfl⟩]))
            · simp only [List.map_cons, List.sum_cons, List.map_map, Nat.sub_self, Nat.pow_zero] at hsum
              simp only [List.map_cons, List.sum_cons, show L + 1 - L = 1 by omega]
              have : (r'.map ((fun d => 2 ^ (L + 1 - d)) ∘ Prod.snd)) = r'.map fun p => 2 ^ (L + 1 - p.2) := rfl
              rw [this] at hsum
              omega
          have hstep := ih (q.orderedInsert (· ≤ ·) (a + b)) (List.Pairwise.orderedInsert _ _ hsq)
            (by simp only [List.orderedInsert_length, List.length_cons] at hlen ⊢; omega) (L + 1) ((a + b, L) :: r')
            ((List.Perm.cons _ hq1).trans (List.perm_orderedInsert _ _ _).symm) hk'
          simp only [pairCost, List.map_cons, List.sum_cons] at hstep hr3 hq3 ⊢
          nlinarith

/-! ## Prefix codes meet Kraft's inequality -/

/-- Words none of which begins another, of length at least 1, can be told apart in any concatenation. -/
theorem prefixFree_uniquelyDecodable {S : Set (List Bool)} (hne : [] ∉ S)
    (hp : ∀ x ∈ S, ∀ y ∈ S, x <+: y → x = y) : InformationTheory.UniquelyDecodable S := by
  intro L1
  induction L1 with
  | nil =>
    intro L2 _ h2 h
    rcases L2 with _ | ⟨y, L2⟩
    · rfl
    · simp at h
      exact absurd (h.1 ▸ h2 y (by simp)) hne
  | cons x L1 ih =>
    intro L2 h1 h2 h
    rcases L2 with _ | ⟨y, L2⟩
    · simp at h
      exact absurd (h.1 ▸ h1 x (by simp)) hne
    · simp only [List.flatten_cons] at h
      have hxy : x = y := by
        have hx : x <+: y ++ L2.flatten := h ▸ List.prefix_append _ _
        rcases List.prefix_or_prefix_of_prefix hx (List.prefix_append y _) with hxy | hyx
        · exact hp x (h1 x (by simp)) y (h2 y (by simp)) hxy
        · exact (hp y (h2 y (by simp)) x (h1 x (by simp)) hyx).symm
      subst hxy
      rw [ih L2 (fun w hw => h1 w (by simp [hw])) (fun w hw => h2 w (by simp [hw])) (List.append_cancel_left h)]

/-- The lengths of a prefix code for at least two symbols meet Kraft's inequality. -/
theorem kraft_of_prefixFree {syms : List Byte} {code : Byte → List Bool} (w : Byte → Nat) (hnd : syms.Nodup)
    (h2 : 2 ≤ syms.length) (hp : ∀ x ∈ syms, ∀ y ∈ syms, x ≠ y → ¬ code x <+: code y) :
    ∃ L, Kraft L (syms.map fun v => (w v, (code v).length)) := by
  have hinj : ∀ x ∈ syms, ∀ y ∈ syms, code x = code y → x = y := fun x hx y hy h => by
    by_contra hne
    exact hp x hx y hy hne (h ▸ List.prefix_rfl)
  have hne : ∀ x ∈ syms, code x ≠ [] := fun x hx h0 => by
    obtain ⟨y, hy, hxy⟩ : ∃ y ∈ syms, y ≠ x := by
      by_contra hall
      have hsub : syms ⊆ [x] := fun z hz => by
        by_contra hzx
        exact hall ⟨z, hz, by simpa using hzx⟩
      have := (List.subperm_of_subset hnd hsub).length_le
      simp at this
      omega
    exact hp x hx y hy hxy.symm (by rw [h0]; exact List.nil_prefix)
  have hud : InformationTheory.UniquelyDecodable (((syms.toFinset).image code : Finset (List Bool)) : Set (List Bool)) := by
    refine prefixFree_uniquelyDecodable ?_ ?_
    · simp only [Finset.coe_image, List.coe_toFinset, Set.mem_image, Set.mem_ofPred_eq, not_exists, not_and]
      exact fun x hx h => hne x hx h
    · simp only [Finset.coe_image, List.coe_toFinset, Set.mem_image, Set.mem_ofPred_eq]
      rintro _ ⟨x, hx, rfl⟩ _ ⟨y, hy, rfl⟩ hxy
      by_cases he : x = y
      · rw [he]
      · exact absurd hxy (hp x hx y hy he)
  have hk := InformationTheory.kraft_mcmillan_inequality hud
  rw [Finset.sum_image (fun x hx y hy h => hinj x (by simpa using hx) y (by simpa using hy) h), Fintype.card_bool] at hk
  obtain ⟨L, hL⟩ : ∃ L, ∀ v ∈ syms, (code v).length ≤ L :=
    ⟨(syms.map fun v => (code v).length).sum, fun v hv => List.le_sum_of_mem (List.mem_map.2 ⟨v, hv, rfl⟩)⟩
  refine ⟨L, fun p hp => ?_, ?_⟩
  · obtain ⟨v, hv, rfl⟩ := List.mem_map.1 hp
    exact hL v hv
  · rw [List.map_map]
    have hsum : ((syms.map ((fun p : Nat × Nat => 2 ^ (L - p.2)) ∘ fun v => (w v, (code v).length))).sum : Nat)
        = ∑ v ∈ syms.toFinset, 2 ^ (L - (code v).length) := by
      rw [List.sum_toFinset _ hnd]
      rfl
    rw [hsum]
    have hreal : (∑ v ∈ syms.toFinset, (2 : ℝ) ^ (L - (code v).length)) ≤ 2 ^ L := by
      calc (∑ v ∈ syms.toFinset, (2 : ℝ) ^ (L - (code v).length))
          = 2 ^ L * ∑ v ∈ syms.toFinset, (1 / ((2 : Nat) : ℝ)) ^ (code v).length := by
            rw [Finset.mul_sum]
            refine Finset.sum_congr rfl fun v hv => ?_
            have := hL v (by simpa using hv)
            rw [pow_sub₀ _ (by norm_num) this]
            simp
        _ ≤ 2 ^ L * 1 := by
            apply mul_le_mul_of_nonneg_left hk
            positivity
        _ = 2 ^ L := mul_one _
    exact_mod_cast hreal

end Sys2Proof.Machine
end

