-- ==== Sys2Proof/Laws/PerInstr.lean ====
section
/-! SUPPORT. The fields of a command word (spec/30_encoding.md R81), and a fact about every command as syntax, one lemma per
command: its word carries the bits that its row of spec/opcode_table.json fixes (MatchMask). -/

namespace Sys2Proof.Laws

open Sys2Proof

/-! ## The fields of a command word (R81) -/

theorem getLsbD_fields (z : BitVec 16) (a o : Byte) (k : Nat) : (z ++ a ++ o : BitVec (16 + 8 + 8)).getLsbD k
    = if k < 8 then o.getLsbD k else if k < 16 then a.getLsbD (k - 8) else z.getLsbD (k - 16) := by
  rw [BitVec.getLsbD_append, BitVec.getLsbD_append]
  by_cases h8 : k < 8
  · simp [h8]
  · by_cases h16 : k < 16
    · simp [h8, h16, show k - 8 < 8 by omega]
    · simp [h8, h16, show ¬ k - 8 < 8 by omega, show k - 8 - 8 = k - 16 by omega]

theorem getLsbD_encode (i : Instr) (k : Nat) : (encode i).getLsbD k
    = if k < 8 then (opcode i).getLsbD k else if k < 16 then (argOf i).getLsbD (k - 8) else (0#16).getLsbD (k - 16) :=
  getLsbD_fields 0#16 (argOf i) (opcode i) k

theorem opField_encode (i : Instr) : opField (encode i) = opcode i := by
  apply BitVec.eq_of_getLsbD_eq
  intro k hk
  rw [opField, BitVec.getLsbD_extractLsb', getLsbD_encode]
  simp [hk]

theorem argField_encode (i : Instr) : argField (encode i) = argOf i := by
  apply BitVec.eq_of_getLsbD_eq
  intro k hk
  rw [argField, BitVec.getLsbD_extractLsb', getLsbD_encode]
  simp [hk, show 8 + k < 16 by omega]

theorem zeroField_encode (i : Instr) : zeroField (encode i) = 0 := by
  apply BitVec.eq_of_getLsbD_eq
  intro k hk
  rw [zeroField, BitVec.getLsbD_extractLsb', getLsbD_encode]
  simp [show ¬ 16 + k < 8 by omega]

/-- A word is its three fields. -/
theorem word_fields (w : Word) : (zeroField w ++ argField w ++ opField w : BitVec 32) = w := by
  apply BitVec.eq_of_getLsbD_eq
  intro k hk
  refine (getLsbD_fields _ _ _ k).trans ?_
  simp only [zeroField, argField, opField, BitVec.getLsbD_extractLsb']
  by_cases h8 : k < 8
  · simp [h8]
  · by_cases h16 : k < 16
    · simp [h8, h16, show k - 8 < 8 by omega, show 8 + (k - 8) = k by omega]
    · simp [h8, h16, show k - 16 < 16 by omega, show 16 + (k - 16) = k by omega]

/-! ## MatchMask -/

/-- The columns "match" and "mask" of spec/opcode_table.json. -/
def tableRow : Instr → Word × Word
  | .nop => (0x00000000#32, 0xFFFFFFFF#32)
  | .bwOpen => (0x00000001#32, 0xFFFFFFFF#32)
  | .bwWrite _ => (0x00000002#32, 0xFFFFFEFF#32)
  | .bwFlush => (0x00000003#32, 0xFFFFFFFF#32)
  | .bwDestroy => (0x00000004#32, 0xFFFFFFFF#32)
  | .bwSize => (0x00000005#32, 0xFFFFFFFF#32)
  | .brOpen => (0x00000008#32, 0xFFFFFFFF#32)
  | .brRead => (0x00000009#32, 0xFFFFFFFF#32)
  | .brEos => (0x0000000A#32, 0xFFFFFFFF#32)
  | .brSize => (0x0000000B#32, 0xFFFFFFFF#32)
  | .fcClear => (0x00000010#32, 0xFFFFFFFF#32)
  | .fcSet _ => (0x00000011#32, 0xFFFF00FF#32)
  | .fcCount => (0x00000012#32, 0xFFFFFFFF#32)
  | .fcPad => (0x00000013#32, 0xFFFFFFFF#32)
  | .fcGet _ => (0x00000014#32, 0xFFFF00FF#32)
  | .fcNsym => (0x00000015#32, 0xFFFFFFFF#32)
  | .htBuild => (0x00000020#32, 0xFFFFFFFF#32)
  | .htSave => (0x00000021#32, 0xFFFFFFFF#32)
  | .htLoad => (0x00000022#32, 0xFFFFFFFF#32)
  | .htEncode => (0x00000023#32, 0xFFFFFFFF#32)
  | .htDecode => (0x00000024#32, 0xFFFFFFFF#32)
  | .htAdsize => (0x00000025#32, 0xFFFFFFFF#32)
  | .htSnap => (0x00000026#32, 0xFFFFFFFF#32)
  | .htEq => (0x00000027#32, 0xFFFFFFFF#32)
  | .facadeEncode => (0x00000030#32, 0xFFFFFFFF#32)
  | .facadeDecode => (0x00000031#32, 0xFFFFFFFF#32)
  | .errClear => (0x0000003E#32, 0xFFFFFFFF#32)
  | .sreset => (0x0000003F#32, 0xFFFFFFFF#32)

namespace MatchMask

/-- The word of a well-formed command has its table row's fixed bits. -/
def Statement (i : Instr) : Prop := i.wellFormed = true → encode i &&& (tableRow i).2 = (tableRow i).1

theorem nop : Statement .nop := fun _ => by decide

theorem bwOpen : Statement .bwOpen := fun _ => by decide

theorem bwWrite (arg : Byte) : Statement (.bwWrite arg) := by
  revert arg
  unfold Statement
  decide +kernel

theorem bwFlush : Statement .bwFlush := fun _ => by decide

theorem bwDestroy : Statement .bwDestroy := fun _ => by decide

theorem bwSize : Statement .bwSize := fun _ => by decide

theorem brOpen : Statement .brOpen := fun _ => by decide

theorem brRead : Statement .brRead := fun _ => by decide

theorem brEos : Statement .brEos := fun _ => by decide

theorem brSize : Statement .brSize := fun _ => by decide

theorem fcClear : Statement .fcClear := fun _ => by decide

theorem fcSet (sym : Byte) : Statement (.fcSet sym) := by
  revert sym
  unfold Statement
  decide +kernel

theorem fcCount : Statement .fcCount := fun _ => by decide

theorem fcPad : Statement .fcPad := fun _ => by decide

theorem fcGet (sym : Byte) : Statement (.fcGet sym) := by
  revert sym
  unfold Statement
  decide +kernel

theorem fcNsym : Statement .fcNsym := fun _ => by decide

theorem htBuild : Statement .htBuild := fun _ => by decide

theorem htSave : Statement .htSave := fun _ => by decide

theorem htLoad : Statement .htLoad := fun _ => by decide

theorem htEncode : Statement .htEncode := fun _ => by decide

theorem htDecode : Statement .htDecode := fun _ => by decide

theorem htAdsize : Statement .htAdsize := fun _ => by decide

theorem htSnap : Statement .htSnap := fun _ => by decide

theorem htEq : Statement .htEq := fun _ => by decide

theorem facadeEncode : Statement .facadeEncode := fun _ => by decide

theorem facadeDecode : Statement .facadeDecode := fun _ => by decide

theorem errClear : Statement .errClear := fun _ => by decide

theorem sreset : Statement .sreset := fun _ => by decide

end MatchMask

end Sys2Proof.Laws
end

