-- ==== Sys2Proof/Tests/Slice0.lean ====
section
/-! SUPPORT. The model's own tests: the WellFormed smoke, the decoding of words written out from spec/30_encoding.md R81 and
R83, small one-step tests whose results are those of spec/95_test_vectors.md, and for every obligation with hypotheses a
witness that meets them. -/

namespace Sys2Proof.Tests

open Sys2Proof.Machine

/-! ## Well-formed commands -/

theorem test_wellFormed_refuses : Instr.wellFormed (.bwWrite 2) = false ∧ Instr.wellFormed (.bwWrite 0xFF) = false := by decide

theorem test_wellFormed_admits : Instr.wellFormed (.bwWrite 1) = true ∧ Instr.wellFormed (.fcSet 0xFF) = true := by decide

/-! ## Decoding: ZERO, ARG, OP from high to low, as R81 and R83 write them -/

theorem test_decode_nop : decode 0b0000000000000000_00000000_00000000#32 = .ok .nop := rfl
theorem test_decode_bwOpen : decode 0b0000000000000000_00000000_00000001#32 = .ok .bwOpen := rfl
theorem test_decode_bwWrite : decode 0b0000000000000000_00000001_00000010#32 = .ok (.bwWrite 1) := rfl
theorem test_decode_bwFlush : decode 0b0000000000000000_00000000_00000011#32 = .ok .bwFlush := rfl
theorem test_decode_bwDestroy : decode 0b0000000000000000_00000000_00000100#32 = .ok .bwDestroy := rfl
theorem test_decode_bwSize : decode 0b0000000000000000_00000000_00000101#32 = .ok .bwSize := rfl
theorem test_decode_brOpen : decode 0b0000000000000000_00000000_00001000#32 = .ok .brOpen := rfl
theorem test_decode_brRead : decode 0b0000000000000000_00000000_00001001#32 = .ok .brRead := rfl
theorem test_decode_brEos : decode 0b0000000000000000_00000000_00001010#32 = .ok .brEos := rfl
theorem test_decode_brSize : decode 0b0000000000000000_00000000_00001011#32 = .ok .brSize := rfl
theorem test_decode_fcClear : decode 0b0000000000000000_00000000_00010000#32 = .ok .fcClear := rfl
theorem test_decode_fcSet : decode 0b0000000000000000_01100001_00010001#32 = .ok (.fcSet 0x61) := rfl
theorem test_decode_fcCount : decode 0b0000000000000000_00000000_00010010#32 = .ok .fcCount := rfl
theorem test_decode_fcPad : decode 0b0000000000000000_00000000_00010011#32 = .ok .fcPad := rfl
theorem test_decode_fcGet : decode 0b0000000000000000_11111111_00010100#32 = .ok (.fcGet 0xFF) := rfl
theorem test_decode_fcNsym : decode 0b0000000000000000_00000000_00010101#32 = .ok .fcNsym := rfl
theorem test_decode_htBuild : decode 0b0000000000000000_00000000_00100000#32 = .ok .htBuild := rfl
theorem test_decode_htSave : decode 0b0000000000000000_00000000_00100001#32 = .ok .htSave := rfl
theorem test_decode_htLoad : decode 0b0000000000000000_00000000_00100010#32 = .ok .htLoad := rfl
theorem test_decode_htEncode : decode 0b0000000000000000_00000000_00100011#32 = .ok .htEncode := rfl
theorem test_decode_htDecode : decode 0b0000000000000000_00000000_00100100#32 = .ok .htDecode := rfl
theorem test_decode_htAdsize : decode 0b0000000000000000_00000000_00100101#32 = .ok .htAdsize := rfl
theorem test_decode_htSnap : decode 0b0000000000000000_00000000_00100110#32 = .ok .htSnap := rfl
theorem test_decode_htEq : decode 0b0000000000000000_00000000_00100111#32 = .ok .htEq := rfl
theorem test_decode_facadeEncode : decode 0b0000000000000000_00000000_00110000#32 = .ok .facadeEncode := rfl
theorem test_decode_facadeDecode : decode 0b0000000000000000_00000000_00110001#32 = .ok .facadeDecode := rfl
theorem test_decode_errClear : decode 0b0000000000000000_00000000_00111110#32 = .ok .errClear := rfl
theorem test_decode_sreset : decode 0b0000000000000000_00000000_00111111#32 = .ok .sreset := rfl

/-- R82 and V60: the words that are no command, by the line of R82 that refuses them. -/
theorem test_decode_refuses : decode 0x00010000#32 = .error .zeroField ∧ decode 0x00000006#32 = .error .reservedOpcode
    ∧ decode 0x00000202#32 = .error .argField ∧ decode 0x00000101#32 = .error .argField
    ∧ decode 0x00010006#32 = .error .zeroField ∧ decode 0x00000106#32 = .error .reservedOpcode := ⟨rfl, rfl, rfl, rfl, rfl, rfl⟩

/-! ## Small states -/

/-- After reset, with this source, SRC_END at its end, and a sink of this size. -/
def world (src : List Byte) (dstSize : Nat) : State :=
  { State.reset with
    cfg := ⟨BitVec.ofNat 32 src.length, BitVec.ofNat 32 dstSize⟩
    src := Memory.writeBytes [] 0 src
    srcEnd := BitVec.ofNat 32 src.length }

theorem world_inv (src : List Byte) (dstSize : Nat) (h : src.length < 2 ^ 32) : (world src dstSize).Inv :=
  { initial_inv _ with
    srcEnd_le := Nat.le_refl _
    src_wf := Memory.wf_writeBytes Memory.wf_nil _ _
    src_within := Memory.within_writeBytes (by simp) (by
      show 0 + src.length ≤ (BitVec.ofNat 32 src.length).toNat
      rw [BitVec.toNat_ofNat, Nat.mod_eq_of_lt h]; omega) }

/-- The outcome is a next state of which p holds. -/
def after (r : Result) (p : State → Bool) : Bool :=
  match r with
  | .next t => p t
  | .fault _ => false
  | .refused _ => false

theorem after_next {r : Result} {p : State → Bool} (h : after r p = true) : ∃ t, r = .next t ∧ p t = true := by
  cases r with
  | next t => exact ⟨t, rfl, h⟩
  | fault f => cases h
  | refused f => cases h

/-- A leaf record. -/
def leafRec (par : Nat) (side : Bool) (sym : Byte) : Node := ⟨0xFFFF#16, 0xFFFF#16, BitVec.ofNat 16 par, side, sym⟩

/-- An inner record. -/
def innerRec (c0 c1 par : Nat) (side : Bool) : Node :=
  ⟨BitVec.ofNat 16 c0, BitVec.ofNat 16 c1, BitVec.ofNat 16 par, side, 0⟩

/-- The tree of V1. -/
def treeV1 : List Node :=
  [leafRec 5 false 0x61, leafRec 5 true 0x62, leafRec 6 true 0x63, leafRec 7 false 0x64, leafRec 8 false 0x65,
   innerRec 0 1 6 false, innerRec 5 2 7 true, innerRec 3 6 8 true, innerRec 4 7 0xFFFF false]

/-- The tree of V22: 'a' and 'b' of equal weight. -/
def treeAB : List Node := [leafRec 2 false 0x61, leafRec 2 true 0x62, innerRec 0 1 0xFFFF false]

/-- The tree of V34's second half: 'a' alone. -/
def treeA : List Node := [leafRec 0xFFFF false 0x61]

/-- The tree of V22 as saved. -/
def bytesAB : List Byte :=
  [0x03, 0x00, 0xFF, 0xFF, 0xFF, 0xFF, 0x02, 0x00, 0x00, 0x61, 0xFF, 0xFF, 0xFF, 0xFF, 0x02, 0x00, 0x01, 0x62,
   0x00, 0x00, 0x01, 0x00, 0xFF, 0xFF, 0x00, 0x00]

/-- The file of V22. -/
def fileAB : List Byte := bytesAB ++ [0x02, 0x00, 0x00, 0x00, 0x02]

/-- The block of V3. -/
def blockV3 : List Byte := [0x1C, 0x00, 0x00, 0x00, 0xB3, 0x8F, 0xBE, 0x03]

/-- "abcdeedcba" (V2). -/
def textV2 : List Byte := [0x61, 0x62, 0x63, 0x64, 0x65, 0x65, 0x64, 0x63, 0x62, 0x61]

/-- A mapping with these symbols at weight w. -/
def weighed (w : Word) (syms : List Byte) : State := syms.foldl (fun s v => s.setSym v w) State.reset

theorem symbols_weighed (w : Word) (syms : List Byte) : (weighed w syms).symbols = allSyms.filter (syms.contains ·) := by
  have h : ∀ (syms : List Byte) (s : State) (x : Byte),
      (syms.foldl (fun s v => s.setSym v w) s).hasSym x = (syms.contains x || s.hasSym x) := by
    intro syms
    induction syms with
    | nil => simp
    | cons v vs ih =>
      intro s x
      rw [List.foldl_cons, ih, hasSym_setSym, List.contains_cons]
      cases x == v <;> simp
  refine List.filter_congr fun x _ => ?_
  rw [weighed, h]
  simp [State.hasSym, State.reset]

theorem symbols_AB : (weighed 1 [0x61, 0x62]).symbols = [0x61, 0x62] := by rw [symbols_weighed]; decide

theorem symbols_A : (weighed 1 [0x61]).symbols = [0x61] := by rw [symbols_weighed]; decide

/-- A writer open at 0 that has taken cnt bits, acc in progress. -/
def writing (dstSize : Nat) (cnt : Word) (acc : Byte) : State :=
  { world [] dstSize with
    bwOpen := true, bwCnt := cnt, bwAcc := acc, dstPos := BitVec.ofNat 32 (4 + cnt.toNat / 8) }

/-- A reader of this source, past the header, that has taken cnt of size bits. -/
def reading (src : List Byte) (size cnt : Word) (cur : Byte) (pos : Word) : State :=
  { world src 0 with brOpen := true, brSize := size, brCnt := cnt, brCur := cur, srcPos := pos }

/-- An exception is recorded: ILLEGAL_OP(BW_STATE), as BW.WRITE after reset leaves it (V60). -/
def failed : State := { State.reset with errKind := 4, errCause := 18 }

/-! ## One step each, results from spec/95_test_vectors.md -/

theorem test_nop : step (State.reset.withFetchWord 32 0x00) = .next State.reset := rfl

/-- V10 step 1, V14 (a). -/
theorem test_bwOpen : after (execBwOpen (world [] 16)) (fun t => t.bwOpen && t.dstPos == 4 && t.status == 5) = true
    ∧ after (execBwOpen { world [] 6 with dstPos := 4 }) (fun t => t.errWord == 0xC5 && t.bwOpen == false) = true := by decide

/-- V10 step 4, and V11's eighth bit. -/
theorem test_bwWrite : after (execBwWrite 1 (writing 16 2 0x01)) (fun t => t.bwCnt == 3 && t.bwAcc == 0x05) = true
    ∧ after (execBwWrite 1 (writing 16 7 0x33))
      (fun t => t.dst.read 4 == 0xB3 && t.bwCnt == 8 && t.bwAcc == 0 && t.dstPos == 5) = true := by decide

/-- V14 (b). -/
theorem test_bwWrite_full : after (execBwWrite 1 (writing 4 7 0x7F))
    (fun t => t.errWord == 0xC5 && t.bwCnt == 7 && t.bwAcc == 0x7F && t.dstPos == 4) = true := by decide

/-- V10 step 5. -/
theorem test_bwFlush : after (execBwFlush (writing 16 3 0x05))
    (fun t => t.dst.readBytes 0 6 == [3, 0, 0, 0, 5, 0] && t.dstPos == 5 && t.bwOpen && t.bwAcc == 5) = true := by decide

/-- V10 step 9, V14's end. -/
theorem test_bwDestroy : after (execBwDestroy (writing 16 4 0x0D))
      (fun t => t.dst.readBytes 0 5 == [4, 0, 0, 0, 0x0D] && t.dstPos == 5 && t.bwOpen == false) = true
    ∧ after (execBwDestroy (writing 4 7 0x7F)) (fun t => t.errWord == 0xC5 && t.bwOpen == false) = true := by decide

/-- V10 step 7. -/
theorem test_bwSize : after (execBwSize (writing 16 3 0x05)) (fun t => t.result == 3) = true := by decide

/-- V4, V16. -/
theorem test_brOpen : after (execBrOpen (world blockV3 0)) (fun t => t.brSize == 28 && t.srcPos == 4 && t.status == 2) = true
    ∧ after (execBrOpen (world [0x1C, 0, 0] 0)) (fun t => t.errWord == 0x19 && t.srcPos == 0 && t.status == 0x1C) = true := by
  decide

/-- V4: read 2 gives 0, read 8 fetches 0x8F. -/
theorem test_brRead : after (execBrRead (reading blockV3 28 2 0xB3 5)) (fun t => t.result == 0 && t.brCnt == 3 && t.srcPos == 5) = true
    ∧ after (execBrRead (reading blockV3 28 8 0xB3 5))
      (fun t => t.result == 1 && t.brCur == 0x8F && t.srcPos == 6) = true := by decide

/-- V17, V15. -/
theorem test_brRead_ends : after (execBrRead (reading [0, 0, 0, 0] 0 0 0 4)) (fun t => t.errWord == 0x32 && t.srcEof == false) = true
    ∧ after (execBrRead (reading [0x1C, 0, 0, 0, 0xB3, 0x8F] 28 16 0x8F 6))
      (fun t => t.errWord == 0x21 && t.brCnt == 16 && t.status == 0x1A) = true := by decide

/-- V4's end. -/
theorem test_brEos : after (execBrEos (reading blockV3 28 28 3 8)) (fun t => t.result == 1 && t.status == 6) = true := by decide

theorem test_brSize : after (execBrSize (reading blockV3 28 28 3 8)) (fun t => t.result == 28) = true := by decide

theorem test_fcClear : after (execFcClear (weighed 7 [0x61])) (fun t => t.freqOf 0x61 == 0 && !t.hasSym 0x61) = true := by decide

/-- V1's first pair. -/
theorem test_fcSet : after (execFcSet 0x61 { State.reset with warg := 1 })
    (fun t => t.freqOf 0x61 == 1 && t.hasSym 0x61 && !t.hasSym 0x62) = true := by decide

/-- V34: FC.COUNT over "aaa"; V40's rule that the position stays. -/
theorem test_fcCount : after (execFcCount (world [0x61, 0x61, 0x61] 0))
    (fun t => t.freqOf 0x61 == 3 && t.hasSym 0x61 && !t.hasSym 0x60 && t.srcPos == 0 && t.srcEof == false) = true := by decide

/-- V6's mapping. -/
theorem test_fcPad : after (execFcPad (weighed 5 [0x61]))
    (fun t => t.hasSym 0x00 && t.hasSym 0x01 && t.hasSym 0x61 && !t.hasSym 0x02 && t.freqOf 0 == 0 && t.freqOf 0x61 == 5) = true := by decide

theorem test_fcGet : after (execFcGet 0x61 (weighed 5 [0x61])) (fun t => t.result == 5) = true := by decide

theorem test_fcNsym : after (execFcNsym (weighed 5 [0x61, 0x00])) (fun t => t.result == 2) = true := by decide

/-- V1. -/
theorem test_htBuild : after (execHtBuild
      (((((State.reset.setSym 0x61 1).setSym 0x62 2).setSym 0x63 4).setSym 0x64 6).setSym 0x65 8))
    (fun t => t.node == treeV1 && t.pq == []) = true := by decide

/-- V31: the leaf of lower index goes first on a tie. -/
theorem test_htBuild_tie : after (execHtBuild (((State.reset.setSym 0x41 1).setSym 0x42 1).setSym 0x43 2))
    (fun t => t.node == [leafRec 3 false 0x41, leafRec 3 true 0x42, leafRec 4 false 0x43, innerRec 0 1 4 true,
      innerRec 2 3 0xFFFF false]) = true := by decide

/-- V22's tree block. -/
theorem test_htSave : after (execHtSave { world [] 40 with node := treeAB })
    (fun t => t.dst.readBytes 0 26 == bytesAB && t.dstPos == 26) = true := by decide

theorem test_htLoad : after (execHtLoad (world bytesAB 0)) (fun t => t.node == treeAB && t.srcPos == 26) = true
    ∧ after (execHtLoad (world (bytesAB.take 25) 0)) (fun t => t.errWord == 0x11 && t.node == [] && t.srcPos == 0) = true := by
  decide

set_option maxRecDepth 4000 in
/-- V2. -/
theorem test_htEncode : after (execHtEncode { world textV2 8 with node := treeV1 })
    (fun t => t.dst.readBytes 0 8 == blockV3 && t.dstPos == 8 && t.bwCnt == 28 && t.bwAcc == 3 && t.srcPos == 10
      && t.status == 0x2C) = true := by decide

/-- V3. -/
theorem test_htDecode : after (execHtDecode { world blockV3 10 with node := treeV1 })
    (fun t => t.dst.readBytes 0 10 == textV2 && t.dstPos == 10 && t.srcPos == 8 && t.brCnt == 28 && t.brCur == 3
      && t.status == 0x24) = true := by decide

/-- V1: RESULT = 78. -/
theorem test_htAdsize : after (execHtAdsize { State.reset with node := treeV1 }) (fun t => t.result == 78) = true := by decide

theorem test_htSnap : after (execHtSnap { State.reset with node := treeAB })
    (fun t => t.snode == treeAB && t.node == treeAB) = true := by decide

theorem test_htEq : after (execHtEq { State.reset with node := treeAB, snode := treeAB }) (fun t => t.result == 1) = true
    ∧ after (execHtEq { State.reset with node := treeAB, snode := treeV1 }) (fun t => t.result == 0) = true := by decide

set_option maxRecDepth 4000 in
/-- V22. -/
theorem test_facadeEncode : after (execEncode (world [0x61, 0x62] 31))
    (fun t => t.dst.readBytes 0 31 == fileAB && t.dst.readBytes 0 30 == fileAB.take 30 && t.dstPos == 31 && t.result == 30
      && t.bwCnt == 2 && t.errKind == 0) = true := by
  decide

theorem test_facadeDecode : after (execDecode (world fileAB 2))
    (fun t => t.dst.readBytes 0 2 == [0x61, 0x62] && t.dstPos == 2 && t.srcPos == 31 && t.result == 30 && t.errKind == 0) = true
    ∧ after (execDecode (world (fileAB.take 30) 2)) (fun t => t.errWord == 0x21 && t.srcEof) = true := by decide

/-- V60: ERR.CLEAR after BW.WRITE. -/
theorem test_errClear : after (commandWrite 0x3E#32 failed) (fun t => t.errWord == 0) = true := by decide

theorem test_sreset : after (commandWrite 0x3F#32 { failed with srcPos := 9, dst := [(3, 0xEE)] })
    (fun t => t.errWord == 0 && t.srcPos == 0 && t.status == 4 && t.dst == [(3, 0xEE)]) = true := by decide

/-- V60: the gate, the decode errors, the register writes that raise. -/
theorem test_command_write : after (commandWrite 0x00#32 failed) (fun t => t.errWord == 0x94) = true
    ∧ after (commandWrite 0x06#32 State.reset) (fun t => t.errWord == 0x84) = true
    ∧ after (commandWrite 0x00010000#32 State.reset) (fun t => t.errWord == 0x8C) = true
    ∧ after (registerWrite 0x01 1 State.reset) (fun t => t.errWord == 0xAC) = true
    ∧ after (registerWrite 0x06 1 (world [] 0)) (fun t => t.errWord == 0xDD) = true := by decide

/-! ## Witnesses: states and operands that meet the hypotheses of each obligation, each clause at an edge of its range -/

theorem test_witness_EncodedCommandsDecodeBack : Instr.wellFormed (.bwWrite 1) = true ∧ Instr.wellFormed (.fcGet 0xFF) = true := by
  decide

theorem test_witness_DecodedWordsAreEncodings : decode 0x0000FF14#32 = .ok (.fcGet 0xFF) := rfl

/-- R82's lines in turn: gated; not gated and ZERO nonzero; reserved; BW.WRITE with ARG 2; an ARG where there is none; a
command. -/
theorem test_witness_CommandWriteFollowsTheDecodeOrder :
    (failed.errKind ≠ 0 ∧ (0x3D#32).extractLsb' 0 8 ≠ 0x3E#8 ∧ (0x3D#32).extractLsb' 0 8 ≠ 0x3F#8) ∧
    ¬ (failed.errKind ≠ 0 ∧ (0x3E#32).extractLsb' 0 8 ≠ 0x3E#8 ∧ (0x3E#32).extractLsb' 0 8 ≠ 0x3F#8) ∧
    (0x00010000#32).extractLsb' 16 16 ≠ 0#16 ∧
    ((0x00000040#32).extractLsb' 16 16 = 0#16 ∧ reservedOpcode ((0x00000040#32).extractLsb' 0 8)) ∧
    ((0x00000202#32).extractLsb' 0 8 = 0x02#8 ∧ (0x00000202#32).extractLsb' 9 7 ≠ 0#7) ∧
    (¬ reservedOpcode ((0x0000013F#32).extractLsb' 0 8) ∧ (0x0000013F#32).extractLsb' 0 8 ∉ [0x02#8, 0x11#8, 0x14#8] ∧
      (0x0000013F#32).extractLsb' 8 8 ≠ 0#8) ∧
    (¬ reservedOpcode ((0x00000102#32).extractLsb' 0 8) ∧ (0x00000102#32).extractLsb' 9 7 = 0#7) := by
  unfold reservedOpcode; decide

theorem test_witness_StepRunsTheDecodedCommand :
    ({ State.reset with pending := [.write 0x00#8 0x102#32] } : State).pending = [.write 0x00#8 0x102#32] ∧
    decode 0x102#32 = .ok (.bwWrite 1) ∧ State.reset.errKind = 0 ∧
    (0x3E < 2 ^ 32 ∧ decode (BitVec.ofNat 32 0x3E) = .ok .errClear ∧ failed.errKind ≠ 0) := ⟨rfl, rfl, rfl, by decide, rfl, by decide⟩

theorem test_witness_GateRefusesCommandsAndNothingElse : failed.errKind ≠ 0 ∧ Instr.nop ≠ .errClear ∧ Instr.nop ≠ .sreset
    ∧ (0x07#8 : Byte) ≠ 0 := by decide

theorem test_witness_RaiseRecordsTheFirstException : State.reset.errKind = 0 ∧ failed.errKind ≠ 0 := by decide

theorem test_witness_ErrRegisterReadsThePair : State.reset.errKind = 0 := rfl

theorem test_witness_CommandsRecordOnlyTheirExceptions : Instr.wellFormed .brRead = true ∧ State.reset.Inv ∧
    State.reset.errKind = 0 ∧ ∃ t, exec .brRead State.reset = .next t ∧ (t.errWord == 0x9C) = true :=
  ⟨rfl, initial_inv _, rfl, after_next (by decide)⟩

theorem test_witness_DecodeFailuresAreFormatErrors : (world [2, 0, 0, 0] 0).Inv ∧ (world [2, 0, 0, 0] 0).errKind = 0 ∧
    (world [2, 0, 0, 0] 0).bwOpen = false ∧
    (∃ t, exec .htDecode (world [2, 0, 0, 0] 0) = .next t ∧ (t.errKind == 1) = true) ∧
    ∃ t, exec .facadeDecode (world [2, 0, 0, 0] 0) = .next t ∧ (t.errKind == 1) = true :=
  ⟨world_inv _ _ (by decide), rfl, rfl, after_next (by decide), after_next (by decide)⟩

theorem test_witness_HostReadsReturnTheRegister : State.reset.node.length ≤ nodeCap ∧ State.reset.snode.length ≤ nodeCap ∧
    0x0E ≤ (0x0E#8 : Byte).toNat := by decide

theorem test_witness_HostWritesByRegister :
    ((world [7] 0).cfg.srcSize.toNat < (2#32 : Word).toNat ∧ (1#32 : Word).toNat ≤ (world [7] 0).cfg.srcSize.toNat) ∧
    (writing 4 0 0).bwOpen = true ∧ State.reset.bwOpen = false ∧ 0x08 ≤ (0x08#8 : Byte).toNat := by decide

theorem test_witness_HostByteAccesses : (world [7] 1).src.wf ∧ (world [7] 1).dst.wf ∧
    (0#32 : Word).toNat < (world [7] 1).cfg.srcSize.toNat ∧ (0#32 : Word).toNat < (world [7] 1).cfg.dstSize.toNat ∧
    (world [7] 1).cfg.srcSize.toNat ≤ (1#32 : Word).toNat ∧ (world [7] 1).cfg.dstSize.toNat ≤ (1#32 : Word).toNat :=
  ⟨(world_inv _ _ (by decide)).src_wf, (world_inv _ _ (by decide)).dst_wf, by decide, by decide, by decide, by decide⟩

theorem test_witness_StepIsOneHostAccess : State.reset.pending = [] ∧
    ({ State.reset with pending := [.rst] } : State).pending = [.rst] := ⟨rfl, rfl⟩

theorem writing_inv (dstSize : Nat) (cnt : Word) (acc : Byte) (h1 : acc.toNat < 2 ^ (cnt.toNat % 8))
    (h2 : 4 ≤ (BitVec.ofNat 32 dstSize).toNat) : (writing dstSize cnt acc).Inv :=
  { world_inv [] dstSize (by decide) with
    acc_clear := h1
    writer_room := fun _ => ⟨by show 0 + 4 ≤ (BitVec.ofNat 32 dstSize).toNat; omega, by
      have := cnt.isLt
      show 0 + 4 + cnt.toNat / 8 ≤ (BitVec.ofNat 32 (4 + cnt.toNat / 8)).toNat
      rw [BitVec.toNat_ofNat, Nat.mod_eq_of_lt (by omega)]⟩ }

/-- An open writer; a sink one byte short of the header; a sink with just the header. -/
theorem test_witness_BwOpenStartsAWriter : (world [] 4).dst.wf ∧ (writing 4 0 0).bwOpen = true ∧
    ((world [] 3).bwOpen = false ∧ (world [] 3).cfg.dstSize.toNat < (world [] 3).dstPos.toNat + 4) ∧
    (world [] 4).bwOpen = false ∧ (world [] 4).dstPos.toNat + 4 ≤ (world [] 4).cfg.dstSize.toNat :=
  ⟨(world_inv _ _ (by decide)).dst_wf, by decide⟩

/-- No writer; the last bit count; the eighth bit without and with its byte; another bit. -/
theorem test_witness_BwWriteAppendsABit : (writing 5 7 0).dst.wf ∧ State.reset.bwOpen = false ∧
    ((writing 5 0xFFFFFFFF 0).bwOpen = true ∧ (writing 5 0xFFFFFFFF 0).bwCnt.toNat = 2 ^ 32 - 1) ∧
    ((writing 4 7 0).bwCnt.toNat < 2 ^ 32 - 1 ∧ (writing 4 7 0).bwCnt.toNat % 8 = 7 ∧
      (writing 4 7 0).cfg.dstSize.toNat ≤ (writing 4 7 0).bwHdr.toNat + 4 + (writing 4 7 0).bwCnt.toNat / 8) ∧
    ((writing 5 7 0).bwOpen = true ∧
      (writing 5 7 0).bwHdr.toNat + 4 + (writing 5 7 0).bwCnt.toNat / 8 < (writing 5 7 0).cfg.dstSize.toNat) ∧
    (writing 4 0xFFFFFFFE 0).bwCnt.toNat < 2 ^ 32 - 1 ∧ (writing 4 0xFFFFFFFE 0).bwCnt.toNat % 8 ≠ 7 :=
  ⟨(writing_inv _ _ _ (by decide) (by decide)).dst_wf, by decide⟩

/-- No writer; a partial byte without room; a complete image in four bytes. The same states serve BW.DESTROY. -/
theorem test_witness_BwFlushCompletesTheSinkImage : (writing 4 0 0).dst.wf ∧ State.reset.bwOpen = false ∧
    ((writing 4 7 0).bwOpen = true ∧ (writing 4 7 0).bwCnt.toNat % 8 ≠ 0 ∧
      (writing 4 7 0).cfg.dstSize.toNat ≤ (writing 4 7 0).bwHdr.toNat + 4 + (writing 4 7 0).bwCnt.toNat / 8) ∧
    ((writing 4 0 0).bwOpen = true ∧ (writing 4 0 0).bwHdr.toNat + 4 ≤ (writing 4 0 0).cfg.dstSize.toNat ∧
      (writing 4 0 0).bwCnt.toNat % 8 = 0) ∧
    (writing 5 7 0).bwHdr.toNat + 4 + (writing 5 7 0).bwCnt.toNat / 8 < (writing 5 7 0).cfg.dstSize.toNat :=
  ⟨(writing_inv _ _ _ (by decide) (by decide)).dst_wf, by decide⟩

theorem test_witness_BwDestroyFlushesAndCloses : (writing 4 0 0).dst.wf ∧ State.reset.bwOpen = false ∧
    ((writing 4 7 0).bwOpen = true ∧ (writing 4 7 0).bwCnt.toNat % 8 ≠ 0 ∧
      (writing 4 7 0).cfg.dstSize.toNat ≤ (writing 4 7 0).bwHdr.toNat + 4 + (writing 4 7 0).bwCnt.toNat / 8) ∧
    (writing 4 0 0).bwOpen = true ∧ (writing 4 0 0).bwHdr.toNat + 4 ≤ (writing 4 0 0).cfg.dstSize.toNat ∧
      (writing 4 0 0).bwCnt.toNat % 8 = 0 :=
  ⟨(writing_inv _ _ _ (by decide) (by decide)).dst_wf, by decide⟩

theorem test_witness_BwFlushIsIdempotent : (writing 5 3 5).Inv ∧ (writing 5 3 5).bwOpen = true ∧ (writing 5 3 5).errKind = 0 ∧
    ∃ t, exec .bwFlush (writing 5 3 5) = .next t ∧ (t.errKind == 0) = true :=
  ⟨writing_inv _ _ _ (by decide) (by decide), rfl, rfl, after_next (by decide)⟩

/-- BW.OPEN; then BW.WRITE, BW.FLUSH and BW.DESTROY on a writer that holds 1, 0, 1 (V10). -/
theorem test_witness_OpenWriterHoldsItsBits : ((world [] 4).Inv ∧ (world [] 4).errKind = 0 ∧
      ∃ t, exec .bwOpen (world [] 4) = .next t ∧ (t.errKind == 0) = true) ∧
    (writing 5 3 5).Inv ∧ (writing 5 3 5).errKind = 0 ∧ WriterHolds (writing 5 3 5) [true, false, true] ∧
    (∃ t, exec (.bwWrite 1) (writing 5 3 5) = .next t ∧ (t.bwAcc == 0x0D) = true) ∧
    (∃ t, exec .bwFlush (writing 5 3 5) = .next t ∧ (t.errKind == 0) = true) ∧
    ∃ t, exec .bwDestroy (writing 5 3 5) = .next t ∧ (t.errKind == 0) = true :=
  ⟨⟨world_inv _ _ (by decide), rfl, after_next (by decide)⟩, writing_inv _ _ _ (by decide) (by decide), rfl,
    ⟨rfl, rfl, by decide, fun j hj => by simp at hj⟩, after_next (by decide), after_next (by decide), after_next (by decide)⟩

/-- Nine bits in a sink of exactly 4 + 2 bytes (V11). -/
theorem test_witness_WriterLeavesTheBitSequenceBlock : (world [] 6).dst.wf ∧ (world [] 6).errKind = 0 ∧
    (world [] 6).bwOpen = false ∧ (List.replicate 9 true).length < 2 ^ 32 ∧
    (world [] 6).dstPos.toNat + 4 + ceil8 (List.replicate 9 true).length ≤ (world [] 6).cfg.dstSize.toNat :=
  ⟨(world_inv _ _ (by decide)).dst_wf, by decide⟩

theorem test_witness_BrOpenStartsAReader : (world [0, 0, 0] 0).srcEnd.toNat ≤ (world [0, 0, 0] 0).cfg.srcSize.toNat ∧
    (world [0, 0, 0] 0).srcEnd.toNat < (world [0, 0, 0] 0).srcPos.toNat + 4 ∧
    (world [0, 0, 0, 0] 0).srcPos.toNat + 4 ≤ (world [0, 0, 0, 0] 0).srcEnd.toNat := by decide

/-- No reader; at the end (V17); a missing byte (V15); a byte to fetch; a bit at hand. -/
theorem test_witness_BrReadReturnsTheNextBit :
    (reading blockV3 28 8 0xB3 5).srcEnd.toNat ≤ (reading blockV3 28 8 0xB3 5).cfg.srcSize.toNat ∧
    State.reset.brOpen = false ∧
    ((reading [0, 0, 0, 0] 0 0 0 4).brOpen = true ∧ (reading [0, 0, 0, 0] 0 0 0 4).brCnt = (reading [0, 0, 0, 0] 0 0 0 4).brSize) ∧
    ((reading [9, 0, 0, 0] 9 0 0 4).brCnt ≠ (reading [9, 0, 0, 0] 9 0 0 4).brSize ∧
      (reading [9, 0, 0, 0] 9 0 0 4).brCnt.toNat % 8 = 0 ∧
      (reading [9, 0, 0, 0] 9 0 0 4).srcEnd.toNat ≤ (reading [9, 0, 0, 0] 9 0 0 4).srcPos.toNat) ∧
    ((reading blockV3 28 24 0xBE 7).brCnt ≠ (reading blockV3 28 24 0xBE 7).brSize ∧
      (reading blockV3 28 24 0xBE 7).brCnt.toNat % 8 = 0 ∧
      (reading blockV3 28 24 0xBE 7).srcPos.toNat < (reading blockV3 28 24 0xBE 7).srcEnd.toNat) ∧
    (reading blockV3 28 27 0x03 8).brCnt ≠ (reading blockV3 28 27 0x03 8).brSize ∧
      (reading blockV3 28 27 0x03 8).brCnt.toNat % 8 ≠ 0 := by decide

/-- V4 and V15: the last bit of 28, the end, and a payload cut after 2 of 4 bytes. -/
theorem test_witness_ReaderReturnsThePayloadBits : (world blockV3 0).srcEnd.toNat ≤ (world blockV3 0).cfg.srcSize.toNat ∧
    (world blockV3 0).errKind = 0 ∧ (world blockV3 0).srcPos.toNat + 4 ≤ (world blockV3 0).srcEnd.toNat ∧
    memRead (world blockV3 0).src (world blockV3 0).srcPos.toNat 4 = 28 ∧
    (27 < 28 ∧ (world blockV3 0).srcPos.toNat + 4 + ceil8 (27 + 1) ≤ (world blockV3 0).srcEnd.toNat) ∧
    (memRead (world (blockV3.take 6) 0).src 0 4 = 28 ∧ 2 < ceil8 28 ∧
      (world (blockV3.take 6) 0).srcEnd.toNat = (world (blockV3.take 6) 0).srcPos.toNat + 4 + 2) ∧
    ([true, false].length = 2 ∧ memRead (world [2, 0, 0, 0, 1] 0).src 0 4 = 2 ∧
      (world [2, 0, 0, 0, 1] 0).src.readBytes 4 (ceil8 2) = payload [true, false]) := by decide

theorem test_witness_FcCountCountsTheSource : (world [0x61] 0).srcEnd.toNat ≤ (world [0x61] 0).cfg.srcSize.toNat := by decide

theorem test_witness_FcPadEnsuresTwoSymbols : 2 ≤ (weighed 1 [0x61, 0x62]).symbols.length ∧
    (weighed 1 [0x61]).symbols.length < 2 ∧ (weighed 1 [0x61]).hasSym 0x00 = false := by
  rw [symbols_AB, symbols_A]; decide

theorem test_witness_HtBuildMergesTheLeastTwo : 2 < treeAB.length := by decide

/-- A prefix code of the present symbols: 'a' is 0, 'b' is 1. -/
theorem test_witness_HtBuildIsOptimal : ∀ x ∈ (weighed 1 [0x61, 0x62]).symbols, ∀ y ∈ (weighed 1 [0x61, 0x62]).symbols, x ≠ y →
    ¬ (fun v : Byte => [v == 0x62]) x <+: (fun v : Byte => [v == 0x62]) y := by rw [symbols_AB]; decide

theorem built_AB : exec .htBuild (weighed 1 [0x61, 0x62]) = .next { weighed 1 [0x61, 0x62] with node := treeAB, pq := [] } := by
  have h : (buildTree (weighed 1 [0x61, 0x62])).node = treeAB := by unfold buildTree seedTree; rw [symbols_AB]; decide
  simp only [exec, execHtBuild]
  rw [(buildTree_built (weighed 1 [0x61, 0x62])).1, h]

theorem built_A : exec .htBuild (weighed 1 [0x61]) = .next { weighed 1 [0x61] with node := treeA, pq := [] } := by
  have h : (buildTree (weighed 1 [0x61])).node = treeA := by unfold buildTree seedTree; rw [symbols_A]; decide
  simp only [exec, execHtBuild]
  rw [(buildTree_built (weighed 1 [0x61])).1, h]

theorem test_witness_CodeWordsAreAPrefixCode :
    exec .htBuild (weighed 1 [0x61, 0x62]) = .next { weighed 1 [0x61, 0x62] with node := treeAB, pq := [] } ∧
    2 ≤ (weighed 1 [0x61, 0x62]).symbols.length ∧ ∀ v ∈ [0x61#8, 0x62#8], v ∈ (weighed 1 [0x61, 0x62]).symbols :=
  ⟨built_AB, by rw [symbols_AB]; decide⟩

/-- An open writer; a sink one byte short; a sink of just the block. -/
theorem test_witness_HtSaveWritesTheTreeBlock : (world [] 26).dst.wf ∧ treeAB.length ≤ nodeCap ∧ (writing 4 0 0).bwOpen = true ∧
    (world [] 25).cfg.dstSize.toNat < (world [] 25).dstPos.toNat + 2 + 8 * treeAB.length ∧
    ((world [] 26).bwOpen = false ∧ (world [] 26).dstPos.toNat + 2 + 8 * treeAB.length ≤ (world [] 26).cfg.dstSize.toNat) :=
  ⟨(world_inv _ _ (by decide)).dst_wf, by decide⟩

/-- One byte; one byte short of the records; the whole block. -/
theorem test_witness_HtLoadReadsTheTreeBlock : (world bytesAB 0).srcEnd.toNat ≤ (world bytesAB 0).cfg.srcSize.toNat ∧
    (world [3] 0).srcEnd.toNat < (world [3] 0).srcPos.toNat + 2 ∧
    (memRead (world (bytesAB.take 25) 0).src 0 2 = 3 ∧ (world (bytesAB.take 25) 0).srcPos.toNat + 2 ≤ (world (bytesAB.take 25) 0).srcEnd.toNat ∧
      (world (bytesAB.take 25) 0).srcEnd.toNat < (world (bytesAB.take 25) 0).srcPos.toNat + 2 + 8 * 3) ∧
    memRead (world bytesAB 0).src 0 2 = 3 ∧ (world bytesAB 0).srcPos.toNat + 2 + 8 * 3 ≤ (world bytesAB 0).srcEnd.toNat := by decide

theorem test_witness_SavedTreeLoadsBack : (world [] 26).dst.wf ∧ treeAB.length ≤ nodeCap ∧ (world [] 26).errKind = 0 ∧
    (∃ t, exec .htSave { world [] 26 with node := treeAB } = .next t ∧
      (t.errKind == 0 && (world bytesAB 0).src.readBytes 0 26 == t.dst.readBytes 0 26) = true) ∧
    (world bytesAB 0).srcEnd.toNat ≤ (world bytesAB 0).cfg.srcSize.toNat ∧
    (world bytesAB 0).srcPos.toNat + (2 + 8 * treeAB.length) ≤ (world bytesAB 0).srcEnd.toNat ∧
    ({ world bytesAB 0 with snode := treeAB } : State).snode = treeAB :=
  ⟨(world_inv _ _ (by decide)).dst_wf, by decide, by decide, after_next (by decide), by decide, by decide, rfl⟩

/-- A state with a tree and an input. -/
def loaded (nodes : List Node) (src : List Byte) (dstSize : Nat) : State := { world src dstSize with node := nodes }

theorem loaded_inv (nodes : List Node) (src : List Byte) (dstSize : Nat) (h : src.length < 2 ^ 32) (hn : nodes.length ≤ nodeCap) :
    (loaded nodes src dstSize).Inv := { world_inv src dstSize h with node_cap := hn }

theorem test_witness_HtEncodeWritesTheCodeWords : (loaded treeAB [0x61, 0x62] 5).Inv ∧ (writing 4 0 0).bwOpen = true ∧
    ((loaded treeAB [0x61, 0x62] 3).bwOpen = false ∧
      (loaded treeAB [0x61, 0x62] 3).cfg.dstSize.toNat < (loaded treeAB [0x61, 0x62] 3).dstPos.toNat + 4) ∧
    (loaded treeAB [0x61, 0x62] 5).bwOpen = false ∧
    codeBits (loaded treeAB [0x61, 0x62] 5).node (loaded treeAB [0x61, 0x62] 5).input = some [false, true] ∧
    (loaded treeAB [0x61, 0x62] 5).dstPos.toNat + 4 + ceil8 2 ≤ (loaded treeAB [0x61, 0x62] 5).cfg.dstSize.toNat :=
  ⟨loaded_inv _ _ _ (by decide) (by decide), by decide, by decide, by decide, by decide, by decide⟩

set_option maxRecDepth 4000 in
theorem test_witness_HtEncodeAlwaysReleasesItsWriter : (loaded treeAB [0x7A] 4).bwOpen = false ∧
    (∃ t, exec .htEncode (loaded treeAB [0x7A] 4) = .next t ∧ (t.errWord == 0x4B) = true) ∧
    (world [0x61, 0x62] 31).bwOpen = false ∧ ∃ t, exec .facadeEncode (world [0x61, 0x62] 31) = .next t :=
  ⟨rfl, after_next (by decide), rfl, (after_next test_facadeEncode).imp fun _ h => h.1⟩

/-- 'z' has no leaf, in a sink with and without a place for the partial byte; a parent index beyond the array; a root that is its own parent's parent, so that the chain never
ends. -/
theorem test_witness_HtEncodeStopsAtASymbolItCannotEncode : (loaded treeAB [0x61, 0x7A, 0x62] 5).Inv ∧
    (loaded treeAB [0x61, 0x7A, 0x62] 4).Inv ∧
    (loaded treeAB [0x61, 0x7A, 0x62] 5).bwOpen = false ∧
    (loaded treeAB [0x61, 0x7A, 0x62] 5).input = [0x61] ++ 0x7A :: [0x62] ∧
    codeBits (loaded treeAB [0x61, 0x7A, 0x62] 5).node [0x61] = some [false] ∧
    symbolFails treeAB 0x7A ⟨.symbolNotFound, .noLeaf⟩ ∧
    symbolFails [leafRec 9 false 0x61] 0x61 (formatErr .treeIndexRange) ∧
    symbolFails [leafRec 0 false 0x61] 0x61 (capacity .stackOverflow) ∧
    (loaded treeAB [0x61, 0x7A, 0x62] 4).dstPos.toNat + 4 + 1 / 8 ≤ (loaded treeAB [0x61, 0x7A, 0x62] 4).cfg.dstSize.toNat := by
  have loop : ∀ k, ancestor [leafRec 0 false 0x61] (leafRec 0 false 0x61) k = some (leafRec 0 false 0x61) := by
    intro k
    induction k with
    | zero => rfl
    | succ k ih => rw [ancestor, ih]; rfl
  exact ⟨loaded_inv _ _ _ (by decide) (by decide), loaded_inv _ _ _ (by decide) (by decide), rfl, by decide, by decide, rfl,
    .inl ⟨rfl, 0, by decide, _, rfl, by decide, by decide⟩, .inr ⟨rfl, _, loop _, by decide⟩, by decide⟩

/-- V25(b): "aaaaa" and its 5 bits, with no place for the payload byte; the header stays the placeholder. -/
theorem test_htEncode_sinkFull : after (execHtEncode (loaded treeAB [0x61, 0x61, 0x61, 0x61, 0x61] 4)) (fun t =>
    t.errWord == 0xC5 && t.dst.readBytes 0 4 == [0, 0, 0, 0] && t.dstPos == 4 && t.bwCnt == 5 && !t.bwOpen && t.srcPos == 5)
    = true := by decide

/-- A symbol repeated takes its code word as often. -/
theorem codeBits_replicate {nodes : List Node} {v : Byte} {w : List Bool} (hw : codeWord nodes v = some w) (n : Nat) :
    ∃ ws, codeBits nodes (List.replicate n v) = some ws ∧ ws.length = n * w.length := by
  induction n with
  | zero => exact ⟨[], rfl, by simp⟩
  | succ n ih =>
    obtain ⟨ws, h, hl⟩ := ih
    exact ⟨w ++ ws, by simp [List.replicate_succ, codeBits, hw, h], by simp [hl, Nat.succ_mul, Nat.add_comm]⟩

/-- A tree whose symbol 0x00 has a code word of three bits. -/
def treeDeep : List Node := [leafRec 1 true 0x00, leafRec 2 false 0x01, leafRec 3 true 0x02, innerRec 0 1 0xFFFF false]

/-- 1431655766 bytes of value 0x00, three bits each: the last of them meets the full count 2^32 - 1. -/
def flooding : State := { State.reset with srcEnd := 1431655766#32, node := treeDeep }

theorem flooding_input : flooding.input = List.replicate 1431655765 0x00#8 ++ 0x00#8 :: [] := by
  have h : flooding.input = (List.range 1431655766).map fun _ => 0x00#8 := rfl
  rw [h, List.map_const', List.length_range, List.replicate_succ' (n := 1431655765)]

/-- V25(b)'s case; the eighth bit without a place for its byte; the full count. -/
theorem test_witness_HtEncodeStopsWhereTheSinkOrTheCountEnds :
    ((loaded treeAB [0x61, 0x62] 4).Inv ∧ (loaded treeAB [0x61, 0x62] 4).bwOpen = false ∧
      codeBits treeAB (loaded treeAB [0x61, 0x62] 4).input = some [false, true] ∧ 2 % 8 ≠ 0 ∧
      (loaded treeAB [0x61, 0x62] 4).dstPos.toNat + 4 + 2 / 8 = (loaded treeAB [0x61, 0x62] 4).cfg.dstSize.toNat) ∧
    ((loaded treeAB (List.replicate 8 0x62) 4).Inv ∧ (loaded treeAB (List.replicate 8 0x62) 4).bwOpen = false ∧
      (loaded treeAB (List.replicate 8 0x62) 4).input = List.replicate 7 0x62 ++ 0x62 :: [] ∧
      codeBits treeAB (List.replicate 7 0x62) = some (List.replicate 7 true) ∧ codeWord treeAB 0x62 = some [true] ∧
      writeFails (loaded treeAB (List.replicate 8 0x62) 4) (7 + 0) (capacity .sinkRange) ∧
      (loaded treeAB (List.replicate 8 0x62) 4).dstPos.toNat + 4 + (7 + 0) / 8
        ≤ (loaded treeAB (List.replicate 8 0x62) 4).cfg.dstSize.toNat) ∧
    flooding.Inv ∧ flooding.bwOpen = false ∧ flooding.input = List.replicate 1431655765 0x00#8 ++ 0x00#8 :: [] ∧
    codeWord treeDeep 0x00#8 = some [true, false, true] ∧
    (∃ ws, codeBits treeDeep (List.replicate 1431655765 0x00#8) = some ws ∧ ws.length = 1431655765 * 3) ∧
    writeFails flooding (1431655765 * 3 + 0) (capacity .bitcntOverflow) ∧
    flooding.dstPos.toNat + 4 + (1431655765 * 3 + 0) / 8 ≤ flooding.cfg.dstSize.toNat :=
  ⟨⟨loaded_inv _ _ _ (by decide) (by decide), rfl, by decide, by decide, by decide⟩,
    ⟨loaded_inv _ _ _ (by decide) (by decide), rfl, by decide, by decide, by decide,
      .inr ⟨by decide, by decide, by decide, rfl⟩, by decide⟩,
    { initial_inv _ with srcEnd_le := by decide, node_cap := by decide }, rfl, flooding_input, by decide,
    codeBits_replicate (w := [true, false, true]) (by decide) _, .inl ⟨by decide, rfl⟩, by decide⟩

theorem test_witness_HtEncodeSucceedsOnlyOnEncodableInput : (loaded treeAB [0x61] 5).Inv ∧ (loaded treeAB [0x61] 5).errKind = 0 ∧
    ∃ t, exec .htEncode (loaded treeAB [0x61] 5) = .next t ∧ (t.errKind == 0) = true :=
  ⟨loaded_inv _ _ _ (by decide) (by decide), rfl, after_next (by decide)⟩

/-- An open writer; a short header; a whole block; a payload cut short after 8 bits; a sink full at the second symbol; the
faults of V50, V52, V53, and bits that end inside a symbol (V51). -/
theorem test_witness_HtDecodeFollowsItsBits :
    ((loaded treeAB [2, 0, 0, 0, 2] 2).dst.wf ∧
      (loaded treeAB [2, 0, 0, 0, 2] 2).srcEnd.toNat ≤ (loaded treeAB [2, 0, 0, 0, 2] 2).cfg.srcSize.toNat) ∧
    (writing 4 0 0).bwOpen = true ∧ (world [2, 0, 0] 0).srcEnd.toNat < (world [2, 0, 0] 0).srcPos.toNat + 4 ∧
    ((loaded treeAB [2, 0, 0, 0, 2] 2).bwOpen = false ∧ memRead (loaded treeAB [2, 0, 0, 0, 2] 2).src 0 4 = 2 ∧
      (loaded treeAB [2, 0, 0, 0, 2] 2).srcPos.toNat + 4 + ceil8 2 ≤ (loaded treeAB [2, 0, 0, 0, 2] 2).srcEnd.toNat ∧
      decodeBits treeAB (bitsOf ((loaded treeAB [2, 0, 0, 0, 2] 2).src.readBytes 4 (ceil8 2)) 2) = some [0x61, 0x62] ∧
      (loaded treeAB [2, 0, 0, 0, 2] 2).dstPos.toNat + 2 ≤ (loaded treeAB [2, 0, 0, 0, 2] 2).cfg.dstSize.toNat) ∧
    (min (ceil8 9) ((loaded treeAB [9, 0, 0, 0, 2] 8).srcEnd.toNat - 4) = 1 ∧ memRead (loaded treeAB [9, 0, 0, 0, 2] 8).src 0 4 = 9 ∧
      decodeRun treeAB (decide (8 * 1 < 9)) 9 (bitsOf ((loaded treeAB [9, 0, 0, 0, 2] 8).src.readBytes 4 1) 8)
        = ([0x61, 0x62, 0x61, 0x61, 0x61, 0x61, 0x61, 0x61], some (.payloadShort, 8)) ∧
      (loaded treeAB [9, 0, 0, 0, 2] 8).dstPos.toNat + 8 ≤ (loaded treeAB [9, 0, 0, 0, 2] 8).cfg.dstSize.toNat) ∧
    (decodeRun treeAB (decide (8 * 1 < 2)) 3 (bitsOf ((loaded treeAB [2, 0, 0, 0, 2] 1).src.readBytes 4 1) 2) = ([0x61, 0x62], none) ∧
      (loaded treeAB [2, 0, 0, 0, 2] 1).dstPos.toNat + 1
        = max (loaded treeAB [2, 0, 0, 0, 2] 1).dstPos.toNat (loaded treeAB [2, 0, 0, 0, 2] 1).cfg.dstSize.toNat ∧
      bitsUsed treeAB (1 + 1) [false, true] = 2) ∧
    decodeRun treeA false 2 [false] = ([], some (.sentinelChild, 1)) ∧ decodeRun [] false 2 [true] = ([], some (.treeEmpty, 0)) ∧
    decodeRun [leafRec 2 false 0x61, leafRec 2 true 0x62, innerRec 7 1 0xFFFF false] false 3 [false, true]
      = ([], some (.treeIndexRange, 1)) ∧
    decodeRun [leafRec 3 false 0x61, leafRec 3 true 0x62, leafRec 4 false 0x63, innerRec 0 1 4 true, innerRec 2 3 0xFFFF false]
      false 3 [false, true] = ([0x63], some (.bitsExhausted, 2)) :=
  ⟨⟨(loaded_inv _ _ _ (by decide) (by decide)).dst_wf, by decide⟩, by decide, by decide, by decide, by decide, by decide, by decide⟩

theorem test_witness_HtDecodeSucceedsOnlyOnDecodableBits : (loaded treeAB [2, 0, 0, 0, 2] 2).Inv ∧
    (loaded treeAB [2, 0, 0, 0, 2] 2).errKind = 0 ∧
    ∃ t, exec .htDecode (loaded treeAB [2, 0, 0, 0, 2] 2) = .next t ∧ (t.errKind == 0) = true :=
  ⟨loaded_inv _ _ _ (by decide) (by decide), rfl, after_next (by decide)⟩

set_option maxRecDepth 4000 in
/-- "ab" with the tree of two symbols; "aa" with the tree of one. -/
theorem test_witness_TranscodingRoundTrip :
    (exec .htBuild (weighed 1 [0x61, 0x62]) = .next { weighed 1 [0x61, 0x62] with node := (loaded treeAB [0x61, 0x62] 5).node, pq := [] } ∧
      2 ≤ (weighed 1 [0x61, 0x62]).symbols.length ∧
      (loaded treeAB [0x61, 0x62] 5).Inv ∧ (∀ v ∈ (loaded treeAB [0x61, 0x62] 5).input, (weighed 1 [0x61, 0x62]).hasSym v = true) ∧
      (∃ t, exec .htEncode (loaded treeAB [0x61, 0x62] 5) = .next t ∧ (t.errKind == 0 && t.dstPos == 5 &&
        (loaded treeAB [2, 0, 0, 0, 2] 2).src.readBytes 0 5 == t.dst.readBytes 0 5) = true) ∧
      (loaded treeAB [2, 0, 0, 0, 2] 2).Inv ∧ (loaded treeAB [2, 0, 0, 0, 2] 2).srcPos.toNat + 5 ≤ (loaded treeAB [2, 0, 0, 0, 2] 2).srcEnd.toNat ∧
      (loaded treeAB [2, 0, 0, 0, 2] 2).dstPos.toNat + 2 ≤ (loaded treeAB [2, 0, 0, 0, 2] 2).cfg.dstSize.toNat) ∧
    exec .htBuild (weighed 1 [0x61]) = .next { weighed 1 [0x61] with node := (loaded treeA [0x61, 0x61] 4).node, pq := [] } ∧
    (weighed 1 [0x61]).symbols.length = 1 ∧
    (loaded treeA [0x61, 0x61] 4).Inv ∧ (∀ v ∈ (loaded treeA [0x61, 0x61] 4).input, (weighed 1 [0x61]).hasSym v = true) ∧
    (∃ t, exec .htEncode (loaded treeA [0x61, 0x61] 4) = .next t ∧ (t.errKind == 0 && t.dstPos == 4 &&
      (loaded treeA [0, 0, 0, 0] 2).src.readBytes 0 4 == t.dst.readBytes 0 4) = true) ∧
    (loaded treeA [0, 0, 0, 0] 2).Inv ∧ (loaded treeA [0, 0, 0, 0] 2).srcPos.toNat + 4 ≤ (loaded treeA [0, 0, 0, 0] 2).srcEnd.toNat ∧
    (loaded treeA [0, 0, 0, 0] 2).dstPos.toNat + 2 ≤ (loaded treeA [0, 0, 0, 0] 2).cfg.dstSize.toNat :=
  ⟨⟨built_AB, by rw [symbols_AB]; decide, loaded_inv _ _ _ (by decide) (by decide), by decide, after_next (by decide),
      loaded_inv _ _ _ (by decide) (by decide), by decide, by decide⟩,
    built_A, by rw [symbols_A]; rfl, loaded_inv _ _ _ (by decide) (by decide), by decide, after_next (by decide),
    loaded_inv _ _ _ (by decide) (by decide), by decide, by decide⟩

theorem test_witness_FacadeIsItsSteps : (writing 4 0 0).bwOpen = true ∧ (world [0x61] 31).Inv ∧ (world [0x61] 31).errKind = 0 ∧
    (world [0x61] 31).bwOpen = false := ⟨rfl, world_inv _ _ (by decide), rfl, rfl⟩

set_option maxRecDepth 4000 in
theorem ran_AB : after (runWords [0x00000012#32, 0x00000013#32, 0x00000020#32] (world [0x61, 0x62] 31)) (fun b =>
    codeBits b.node [0x61, 0x62] == some [false, true] && b.node.length == 3) = true := by decide

/-- "ab" in a sink of exactly its file's 31 bytes (V22). -/
theorem test_witness_EncodeWritesTheFile : (world [0x61, 0x62] 31).Inv ∧ (world [0x61, 0x62] 31).errKind = 0 ∧
    (world [0x61, 0x62] 31).bwOpen = false ∧ (world [0x61, 0x62] 31).input = [0x61, 0x62] ∧
    (∃ b, runWords [0x00000012#32, 0x00000013#32, 0x00000020#32] (world [0x61, 0x62] 31) = .next b ∧
      (codeBits b.node [0x61, 0x62] == some [false, true] && b.node.length == 3) = true) ∧
    (world [0x61, 0x62] 31).dstPos.toNat + (2 + 8 * 3) + 4 + ceil8 2 ≤ (world [0x61, 0x62] 31).cfg.dstSize.toNat :=
  ⟨world_inv _ _ (by decide), rfl, rfl, by decide, after_next ran_AB, by decide⟩

theorem test_witness_DecodeReadsTheFile : (world fileAB 2).dst.wf ∧ (world fileAB 2).srcEnd.toNat ≤ (world fileAB 2).cfg.srcSize.toNat ∧
    (world fileAB 2).bwOpen = false ∧ treeAB.length ≤ nodeCap ∧ (world fileAB 2).src.readBytes 0 26 = treeBlock treeAB ∧
    memRead (world fileAB 2).src (0 + 26) 4 = 2 ∧ (world fileAB 2).srcPos.toNat + 26 + 4 + ceil8 2 ≤ (world fileAB 2).srcEnd.toNat ∧
    decodeBits treeAB (bitsOf ((world fileAB 2).src.readBytes 30 (ceil8 2)) 2) = some [0x61, 0x62] ∧
    (world fileAB 2).dstPos.toNat + 2 ≤ (world fileAB 2).cfg.dstSize.toNat :=
  ⟨(world_inv _ _ (by decide)).dst_wf, by decide, by decide, by decide, by decide, by decide, by decide, by decide, by decide⟩

/-- "ab" as there; its file as the source, whole and cut by one byte (V8, V22). -/
theorem test_witness_FileRoundTrip :
    (∃ t, exec .facadeEncode (world [0x61, 0x62] 31) = .next t ∧
      (t.dst.readBytes 0 31 == fileAB && t.dst.readBytes 0 30 == fileAB.take 30 && t.dstPos == 31 && t.result == 30
        && t.bwCnt == 2 && t.errKind == 0) = true) ∧
    ((world fileAB 2).Inv ∧ (world fileAB 2).errKind = 0 ∧ (world fileAB 2).bwOpen = false ∧
      (world fileAB 2).dstPos.toNat + 2 ≤ (world fileAB 2).cfg.dstSize.toNat ∧
      (world fileAB 2).src.readBytes 0 31 = fileAB ∧ (world fileAB 2).srcPos.toNat + 31 ≤ (world fileAB 2).srcEnd.toNat) ∧
    (world (fileAB.take 30) 2).Inv ∧ (world (fileAB.take 30) 2).src.readBytes 0 30 = fileAB.take 30 ∧
    (world (fileAB.take 30) 2).srcEnd.toNat = (world (fileAB.take 30) 2).srcPos.toNat + 30 :=
  ⟨after_next test_facadeEncode, ⟨world_inv _ _ (by decide), rfl, rfl, by decide, by decide, by decide⟩,
    world_inv _ _ (by decide), by decide, by decide⟩

theorem test_witness_CommandsWriteOnlyTheirRegisters : Instr.wellFormed .brRead = true ∧
    ∃ t, exec .brRead (reading blockV3 28 8 0xB3 5) = .next t ∧ (t.brCnt == 9) = true := ⟨rfl, after_next (by decide)⟩

/-- A command, and a sink memory other than its own. -/
theorem test_witness_CommandsNeverReadTheSink : (∃ t, exec .bwFlush (writing 5 3 5) = .next t ∧ (t.dstPos == 5) = true) ∧
    (writing 5 3 5).dst.wf ∧ Memory.wf [(4, 9)] ∧ (writing 5 3 5).dst ≠ [(4, 9)] := ⟨after_next (by decide), by decide⟩

theorem test_witness_EveryStepKeepsTheInvariant : ({ writing 5 3 5 with pending := [.write 0x00#8 0x03#32] } : State).Inv ∧
    ∃ t, step { writing 5 3 5 with pending := [.write 0x00#8 0x03#32] } = .next t ∧ (t.dstPos == 5) = true :=
  ⟨{ writing_inv 5 3 5 (by decide) (by decide) with }, after_next (by decide)⟩

theorem test_witness_NoStepStops : ({ world [7] 1 with pending := [.dstPeek 0] } : State).Inv ∧
    ({ world [7] 1 with pending := [.dstPeek 0] } : State).hostInRange :=
  ⟨{ world_inv [7] 1 (by decide) with }, by show (0#32 : Word).toNat < (BitVec.ofNat 32 1).toNat; decide⟩

end Sys2Proof.Tests
end

section
/-! SUPPORT. The host's side (spec/10_state.md R30 to R33, spec/30_encoding.md R82, spec/47_system.md R254): what a step is,
when a command word runs its command, the fields of STATUS and ERR, what a register read returns and a register write
does. -/

namespace Sys2Proof.Machine

/-! ## A step -/

theorem step_idle {s : State} (h : s.pending = []) : step s = .next s := by rw [step, h]

theorem step_access {s : State} {x : HostAccess} {rest : List HostAccess} (h : s.pending = x :: rest) :
    step s = hostAccess x { s with pending := rest } := by rw [step, h]

/-! ## A command word that decodes -/

/-- The opcode map gives an opcode no command but its own (R83). -/
theorem opcode_of_instrOf {op arg : Byte} {i : Instr} (h : instrOf op arg = some i) : opcode i = op := by
  unfold instrOf at h
  split at h <;> cases h
  all_goals next hop => exact BitVec.eq_of_toNat_eq hop.symm

theorem decode_ok {w : Word} {i : Instr} (h : decode w = .ok i) :
    zeroField w = 0 ∧ instrOf (opField w) (argField w) = some i ∧ argLegal (opField w) (argField w) = true := by
  unfold decode at h
  split at h
  · cases h
  · next hz =>
    split at h
    · cases h
    · next j hj =>
      split at h
      · next ha => cases h; exact ⟨not_not.1 hz, hj, ha⟩
      · cases h

theorem opField_of_decode {w : Word} {i : Instr} (h : decode w = .ok i) : opField w = opcode i :=
  (opcode_of_instrOf (decode_ok h).2.1).symm

/-- The gate lets every command pass with no exception recorded, and ERR.CLEAR and SRESET always (R282). -/
theorem gated_eq_false {w : Word} {i : Instr} {s : State} (hd : decode w = .ok i)
    (hg : s.errKind = 0 ∨ i = .errClear ∨ i = .sreset) : gated w s = false := by
  unfold gated
  rw [opField_of_decode hd]
  rcases hg with h | rfl | rfl
  · simp [h]
  · simp [opcode]
  · simp [opcode]

theorem commandWrite_ok {w : Word} {i : Instr} {s : State} (hd : decode w = .ok i)
    (hg : s.errKind = 0 ∨ i = .errClear ∨ i = .sreset) : commandWrite w s = exec i s := by
  simp [commandWrite, gated_eq_false hd hg, hd]

theorem step_command {s : State} {w : Word} {rest : List HostAccess} {i : Instr}
    (hp : s.pending = .write cmdReg w :: rest) (hd : decode w = .ok i)
    (hg : s.errKind = 0 ∨ i = .errClear ∨ i = .sreset) : step s = exec i { s with pending := rest } := by
  rw [step_access hp]
  exact commandWrite_ok hd hg

theorem withFetchWord_pending {s : State} {w : Nat} (hw : w < 2 ^ 32) :
    (s.withFetchWord 32 w).pending = .write cmdReg (BitVec.ofNat 32 w) :: s.pending := by
  simp only [State.withFetchWord, commandAccess, Nat.mod_eq_of_lt hw]

/-! ## STATUS and ERR -/

theorem getLsbD_boolWord (b : Bool) (k : Nat) : (boolWord b).getLsbD k = (b && decide (k = 0)) := by
  cases b <;> simp [boolWord]

/-- Register STATUS, bit by bit (R31). -/
theorem getLsbD_status (s : State) (k : Nat) : s.status.getLsbD k
    = [s.bwOpen, s.brOpen, s.brEos, s.srcEof, s.errFlag, s.treeFlag][k]?.getD false := by
  simp only [State.status, BitVec.getLsbD_or, BitVec.getLsbD_shiftLeft, getLsbD_boolWord]
  match k with
  | 0 | 1 | 2 | 3 | 4 | 5 | _ + 6 => simp

theorem status_bits (s : State) : s.status.getLsbD 0 = s.bwOpen ∧ s.status.getLsbD 1 = s.brOpen
    ∧ s.status.getLsbD 2 = (s.brCnt == s.brSize) ∧ s.status.getLsbD 3 = s.srcEof
    ∧ s.status.getLsbD 4 = (s.errKind != 0) ∧ s.status.getLsbD 5 = (s.node.length != 0)
    ∧ ∀ k, 6 ≤ k → s.status.getLsbD k = false := by
  simp only [getLsbD_status]
  refine ⟨rfl, rfl, rfl, rfl, rfl, rfl, fun k hk => ?_⟩
  rw [List.getElem?_eq_none (by simpa using hk), Option.getD_none]

/-- Register ERR is ERR_CAUSE << 3 | ERR_KIND (R271). -/
theorem errWord_toNat (s : State) : s.errWord.toNat = 8 * s.errCause.toNat + s.errKind.toNat := by
  have hc : (0#24 ++ s.errCause).toNat = s.errCause.toNat := by rw [BitVec.toNat_append]; simp
  rw [State.errWord, BitVec.toNat_append, ← Nat.shiftLeft_add_eq_or_of_lt s.errKind.isLt, Nat.shiftLeft_eq, hc,
    Nat.mul_comm]

/-! ## The registers by number -/

/-- A node count up to NODE_CAP fits the register that shows it (R30). -/
theorem ofNat_toNat_of_le_nodeCap {n : Nat} (h : n ≤ nodeCap) : (BitVec.ofNat 32 n).toNat = n := by
  have hlt : n < 2 ^ 32 := h.trans_lt (by decide)
  rw [BitVec.toNat_ofNat, Nat.mod_eq_of_lt hlt]

/-- CMD and the reserved numbers read 0 (R32). -/
theorem regValue_eq_zero (s : State) {reg : Byte} (h : reg = 0x00 ∨ 0x0E ≤ reg.toNat) : s.regValue reg = 0 := by
  have hn : reg.toNat = 0 ∨ 0x0E ≤ reg.toNat := h.imp_left fun h => by rw [h]; rfl
  unfold State.regValue
  split
  case h_14 => rfl
  all_goals omega

/-- Writes of the read-only and the reserved registers are refused (R33). -/
theorem registerWrite_badCsr (v : Word) (s : State) {reg : Byte} (h : reg ∈ [0x01#8, 0x02#8, 0x03#8] ∨ 0x08 ≤ reg.toNat) :
    registerWrite reg v s = .next (raiseExc (illegalOp .badCsr) s) := by
  have hn : (1 ≤ reg.toNat ∧ reg.toNat ≤ 3) ∨ 8 ≤ reg.toNat := h.imp_left fun h => by
    simp only [List.mem_cons, List.not_mem_nil, or_false] at h
    rcases h with rfl | rfl | rfl <;> decide
  unfold registerWrite
  split
  case h_6 => rfl
  all_goals omega

theorem writeSrcEnd_beyond {v : Word} {s : State} (h : s.cfg.srcSize.toNat < v.toNat) :
    writeSrcEnd v s = raiseExc (capacity .srcEndRange) s := if_pos h

theorem writeSrcEnd_ok {v : Word} {s : State} (h : v.toNat ≤ s.cfg.srcSize.toNat) :
    writeSrcEnd v s = { s with srcEnd := v } := if_neg (by omega)

theorem writeDstPos_busy {v : Word} {s : State} (h : s.bwOpen = true) :
    writeDstPos v s = raiseExc (illegalOp .sinkBound) s := if_pos h

theorem writeDstPos_ok {v : Word} {s : State} (h : s.bwOpen = false) : writeDstPos v s = { s with dstPos := v } :=
  if_neg (by simp [h])

/-! ## The statements -/

/-- Settles O15: the two equations of `step`. -/
theorem stepIsOneHostAccess : Obligations.StepIsOneHostAccess :=
  ⟨fun _ => step_idle, fun _ _ _ => step_access⟩

/-- Settles O5: an ungated word that decodes runs its command, and placing a word makes it the oldest access. -/
theorem stepRunsTheDecodedCommand : Obligations.StepRunsTheDecodedCommand :=
  ⟨fun _ _ _ _ hp hd hg => step_command hp hd hg, fun _ _ _ hw hd hg => step_command (withFetchWord_pending hw) hd hg⟩

/-- Settles O11: STATUS bit by bit. -/
theorem statusBits : Obligations.StatusBits :=
  ⟨status_bits, fun v s => registerWrite_badCsr v s (.inl (by simp)), by decide⟩

/-- Settles O12: the value read is `regValue`, register by register. -/
theorem hostReadsReturnTheRegister : Obligations.HostReadsReturnTheRegister := by
  intro s reg
  refine ⟨s.regValue reg, rfl, ?_, ?_, ?_, ?_, ?_, ?_, ?_, ?_, ?_, ?_, ?_, ?_, ?_, regValue_eq_zero s⟩
  case refine_1 => rintro rfl; exact status_bits s
  case refine_2 => rintro rfl; exact errWord_toNat s
  case refine_12 => rintro rfl; exact ofNat_toNat_of_le_nodeCap
  case refine_13 => rintro rfl; exact ofNat_toNat_of_le_nodeCap
  all_goals rintro rfl; rfl

/-- Settles O13: a host write, register by register. -/
theorem hostWritesByRegister : Obligations.HostWritesByRegister := fun v s =>
  ⟨rfl, rfl, rfl, fun h => congrArg _ (writeSrcEnd_beyond h), fun h => congrArg _ (writeSrcEnd_ok h),
    fun h => congrArg _ (writeDstPos_busy h), fun h => congrArg _ (writeDstPos_ok h), fun _ => registerWrite_badCsr v s⟩

end Sys2Proof.Machine
end

section
/-! SUPPORT. The invariant of spec/10_state.md R34 over whole commands, host accesses and steps: after reset it holds, from a
state that has it every command goes on in one that has it, and so does every step whose byte access is in range. -/

namespace Sys2Proof.Machine

/-! ## Commands -/

theorem State.Inv.setResult {s : State} (h : s.Inv) (w : Word) : ({ s with result := w } : State).Inv := { h with }

/-- What holds but for SP, with SP as it was between commands, is the invariant. -/
theorem Eff.Keeps.inv {α : Type} {P : State → Prop} {es : List Exc} {s : State} {r : Eff α} (hr : r.Keeps P es)
    (h : s.Inv) (hP : ∀ t, P t → t.Mid ∧ t.sp = s.sp) : r.Keeps State.Inv es :=
  hr.mono (fun _ he => he) fun t ht => (hP t ht).1.inv ((hP t ht).2.trans h.sp_zero)

theorem countSource_keeps {s : State} (h : s.Inv) : (countSource s).Keeps State.Inv [] := by
  rw [countSource_ok h.srcEnd_le]
  exact h.clearSyms.tally s.input

theorem execBwWrite_inv (arg : Byte) {s : State} (h : s.Inv) : ∃ t, execBwWrite arg s = .next t ∧ t.Inv := by
  unfold execBwWrite
  split
  · exact ((writerBit_keeps _ h.mid).inv h fun _ ⟨hm, hsp, _⟩ => ⟨hm, hsp⟩).finish_inv (by decide)
  · exact ⟨_, rfl, h.raiseExc (by decide)⟩

/-- From a state with the invariant every command goes on, in a state with the invariant (R34, R283). -/
theorem exec_inv (i : Instr) {s : State} (h : s.Inv) : ∃ t, exec i s = .next t ∧ t.Inv := by
  cases i with
  | nop => exact ⟨s, rfl, h⟩
  | bwOpen => exact ((writerOpen_keeps h.mid).inv h fun _ ⟨hm, hsp, _⟩ => ⟨hm, hsp⟩).finish_inv (by decide)
  | bwWrite arg => exact execBwWrite_inv arg h
  | bwFlush => exact ((writerFlush_keeps h.mid).inv h fun _ ht => ht).finish_inv (by decide)
  | bwDestroy => exact ((writerDestroy_keeps h.mid).inv h fun _ ht => ht).finish_inv (by decide)
  | brOpen => exact (readerOpen_keeps h).finish_inv (by decide)
  | brRead => exact (readerBit_keeps h).finish_inv (by decide)
  | fcClear => exact ⟨_, rfl, h.clearSyms⟩
  | fcSet sym => exact ⟨_, rfl, h.setSym sym s.warg⟩
  | fcCount => exact (countSource_keeps h).finish_inv (by decide)
  | fcPad => exact ⟨_, rfl, h.padMapping⟩
  | htBuild => exact ⟨_, rfl, h.buildTree⟩
  | htSnap => exact ⟨_, rfl, { h with snode_cap := h.node_cap }⟩
  | htSave => exact ((saveTree_keeps h).mono (fun _ he => he) fun _ ht => ht.1).finish_inv (by decide)
  | htLoad => exact ((loadTree_keeps h).mono (fun _ he => he) fun _ ht => ht.1).finish_inv (by decide)
  | htEncode =>
    exact (encodeSource_keeps (es := writeExcs ++ walkExcs) h (by simp) (.inr (by simp))).finish_inv (by decide)
  | htDecode => exact (decodeSource_keeps h).finish_inv (by decide)
  | facadeEncode => exact (facadeEncode_keeps h).finish_inv (by decide)
  | facadeDecode => exact (facadeDecode_keeps h).finish_inv (by decide)
  | errClear => exact ⟨_, rfl, h.clearExc⟩
  | sreset => exact ⟨_, rfl, h.resetState⟩
  | bwSize | brEos | brSize | fcGet _ | fcNsym | htAdsize | htEq => exact ⟨_, rfl, h.setResult _⟩

/-! ## Host accesses -/

theorem commandWrite_inv (w : Word) {s : State} (h : s.Inv) : ∃ t, commandWrite w s = .next t ∧ t.Inv := by
  unfold commandWrite
  split
  · exact ⟨s, rfl, h⟩
  · split
    · next e _ => exact ⟨_, rfl, h.raiseExc (by cases e <;> decide)⟩
    · next i _ => exact exec_inv i h

theorem State.Inv.writeSrcEnd {s : State} (h : s.Inv) (v : Word) : (writeSrcEnd v s).Inv := by
  by_cases hv : s.cfg.srcSize.toNat < v.toNat
  · rw [writeSrcEnd_beyond hv]; exact h.raiseExc (by decide)
  · rw [writeSrcEnd_ok (by omega)]; exact { h with srcEnd_le := Nat.le_of_not_lt hv }

/-- With a writer open the write is refused; else there is no writer for DST_POS to fall behind. -/
theorem State.Inv.writeDstPos {s : State} (h : s.Inv) (v : Word) : (writeDstPos v s).Inv := by
  cases hb : s.bwOpen with
  | true => rw [writeDstPos_busy hb]; exact h.raiseExc (by decide)
  | false => rw [writeDstPos_ok hb]; exact { h with writer_room := fun ho => absurd (hb.symm.trans ho) (by decide) }

theorem registerWrite_inv (reg : Byte) (v : Word) {s : State} (h : s.Inv) :
    ∃ t, registerWrite reg v s = .next t ∧ t.Inv := by
  unfold registerWrite
  split
  · exact commandWrite_inv v h
  · exact ⟨_, rfl, { h with }⟩
  · exact ⟨_, rfl, { h with }⟩
  · exact ⟨_, rfl, h.writeSrcEnd v⟩
  · exact ⟨_, rfl, h.writeDstPos v⟩
  · exact ⟨_, rfl, h.raiseExc (by decide)⟩

/-- A byte access, if it is one, is to a byte that exists (log 8). -/
def HostAccess.InRange (c : Config) : HostAccess → Prop
  | .srcPoke a _ => a.toNat < c.srcSize.toNat
  | .dstPoke a _ => a.toNat < c.dstSize.toNat
  | .dstPeek a => a.toNat < c.dstSize.toNat
  | .read _ | .write _ _ | .rst => True

theorem hostInRange_nil {s : State} (hp : s.pending = []) : s.hostInRange := by simp [State.hostInRange, hp]

theorem hostInRange_cons {s : State} {x : HostAccess} {rest : List HostAccess} (hp : s.pending = x :: rest) :
    s.hostInRange ↔ x.InRange s.cfg := by
  unfold State.hostInRange
  rw [hp]
  cases x <;> rfl

/-- An access that goes on was in range. -/
theorem hostAccess_inRange {x : HostAccess} {s t : State} (ht : hostAccess x s = .next t) : x.InRange s.cfg := by
  cases x with
  | srcPoke _ _ | dstPoke _ _ | dstPeek _ =>
    rw [hostAccess] at ht
    split at ht
    · next hx => exact hx
    · cases ht
  | read _ | write _ _ | rst => trivial

theorem hostAccess_inv {x : HostAccess} {s : State} (h : s.Inv) (hx : x.InRange s.cfg) :
    ∃ t, hostAccess x s = .next t ∧ t.Inv := by
  cases x with
  | read reg => exact ⟨_, rfl, { h with }⟩
  | write reg v => exact registerWrite_inv reg v h
  | rst => exact ⟨_, rfl, h.resetState⟩
  | srcPoke a b =>
    exact ⟨_, if_pos hx, { h with
      src_wf := Memory.wf_write h.src_wf _ b, src_within := Memory.within_write h.src_within hx b }⟩
  | dstPoke a b =>
    exact ⟨_, if_pos hx, { h with
      dst_wf := Memory.wf_write h.dst_wf _ b, dst_within := Memory.within_write h.dst_within hx b }⟩
  | dstPeek a => exact ⟨_, if_pos hx, { h with }⟩

/-! ## Steps -/

/-- A step that gives a next state made an access in range. -/
theorem step_hostInRange {s t : State} (ht : step s = .next t) : s.hostInRange := by
  cases hp : s.pending with
  | nil => exact hostInRange_nil hp
  | cons x rest =>
    rw [step_access hp] at ht
    have hx : x.InRange s.cfg := hostAccess_inRange (s := { s with pending := rest }) ht
    exact (hostInRange_cons hp).2 hx

theorem step_inv {s : State} (h : s.Inv) (hr : s.hostInRange) : ∃ t, step s = .next t ∧ t.Inv := by
  cases hp : s.pending with
  | nil => exact ⟨s, step_idle hp, h⟩
  | cons x rest =>
    rw [step_access hp]
    exact hostAccess_inv { h with } ((hostInRange_cons hp).1 hr)

/-! ## The statements -/

/-- Settles O55: a step that goes on made an access in range, and from the invariant such a step goes on within it. -/
theorem everyStepKeepsTheInvariant : Obligations.EveryStepKeepsTheInvariant := by
  intro s t h ht
  obtain ⟨u, hu, hinv⟩ := step_inv h (step_hostInRange ht)
  rw [ht] at hu
  cases hu
  exact hinv

/-- Settles O56: from the invariant, an access in range goes on. -/
theorem noStepStops : Obligations.NoStepStops := fun _ h hr =>
  let ⟨t, ht, _⟩ := step_inv h hr
  ⟨t, ht⟩

/-- Settles O54: the reset state at its own sizes. -/
theorem resetMeetsTheInvariant : Obligations.ResetMeetsTheInvariant := initial_inv Config.largest

/-- Settles O17: field by field, the mapping by symbol. -/
theorem resetStateValues : Obligations.ResetStateValues :=
  ⟨rfl, rfl, rfl, rfl, rfl, rfl, rfl, rfl, rfl, rfl, rfl, rfl, rfl, rfl,
    fun v => ⟨freqOf_clearSyms State.reset v, hasSym_clearSyms State.reset v⟩, rfl, rfl, rfl, rfl, rfl, rfl⟩

end Sys2Proof.Machine
end

section
/-! SUPPORT. Every command writes only the registers R12 and R15 to R21 name it for, and none reads DST
(spec/10_state.md R12, R15 to R21, spec/70_reset_and_hazards.md R327). -/

namespace Sys2Proof.Machine

/-! ## What a command writes -/

/-- A command over an operation whose registers are among the list, the exception record with them. -/
theorem Eff.Moves.finish_within {α : Type} {regs more : List Reg} {s t : State} {r : Eff α} (hr : r.Moves regs s)
    (ht : r.finish = .next t) (hsub : regs ⊆ more) (herr : .err ∈ more) : Within more s t :=
  (hr.mono hsub).finish herr ht

theorem raiseExc_within (e : Exc) (s : State) : Within [.err] s (raiseExc e s) :=
  Eff.Moves.finish (r := (Eff.raised e s : Eff Unit)) (Within.refl [.err] s) (by simp) rfl

theorem setResult_within (s : State) (w : Word) : Within [.result] s { s with result := w } :=
  ⟨rfl, rfl, rfl, rfl, fun r hr => by cases r <;> simp_all [Reg.same]⟩

theorem setSym_within (s : State) (v : Byte) (w : Word) : Within [.mapping] s (s.setSym v w) :=
  ⟨rfl, rfl, rfl, rfl, fun r hr => by cases r <;> simp_all [Reg.same]⟩

theorem clearSyms_within (s : State) : Within [.mapping] s s.clearSyms :=
  ⟨rfl, rfl, rfl, rfl, fun r hr => by cases r <;> simp_all [Reg.same]⟩

theorem snapTree_within (s : State) : Within [.snode] s { s with snode := s.node } :=
  ⟨rfl, rfl, rfl, rfl, fun r hr => by cases r <;> simp_all [Reg.same]⟩

theorem clearExc_within (s : State) : Within [.err] s (clearExc s) :=
  ⟨rfl, rfl, rfl, rfl, fun r hr => by cases r <;> simp_all [Reg.same]⟩

theorem resetState_within (s : State) : Within (writes .sreset) s (resetState s) :=
  ⟨rfl, rfl, rfl, rfl, fun r hr => by cases r <;> simp_all [Reg.same, writes]⟩

theorem srcNext_ne_raised (s : State) (e : Exc) (t : State) : srcNext s ≠ .raised e t := by
  unfold srcNext
  split
  · exact nofun
  · split <;> exact nofun

theorem countLoop_ne_raised (passes : Nat) (s : State) (e : Exc) (t : State) : countLoop passes s ≠ .raised e t := by
  induction passes generalizing s with
  | zero => exact nofun
  | succ passes ih =>
    rw [countLoop]
    cases hs : srcNext s with
    | done v u =>
      cases v with
      | none => exact nofun
      | some v => exact ih _
    | raised e' u => exact absurd hs (srcNext_ne_raised s e' u)
    | stop f => exact nofun

theorem countSource_ne_raised (s : State) (e : Exc) (t : State) : countSource s ≠ .raised e t := by
  unfold countSource
  cases hc : countLoop (srcAvail s + 1) s.clearSyms with
  | done _ u => exact nofun
  | raised e' u => exact absurd hc (countLoop_ne_raised _ _ e' u)
  | stop f => exact nofun

/-- FC.COUNT records nothing, so it writes the mapping alone (R163). -/
theorem execFcCount_within {s t : State} (ht : execFcCount s = .next t) : Within [.mapping] s t := by
  have hm := countSource_moves s
  rcases Eff.finish_next ht with ⟨_, hc⟩ | ⟨e, u, hc, -⟩
  · rw [hc] at hm; exact hm
  · exact absurd hc (countSource_ne_raised s e u)

theorem execBwWrite_within {arg : Byte} {s t : State} (ht : execBwWrite arg s = .next t) :
    Within (writes (.bwWrite arg)) s t := by
  unfold execBwWrite at ht
  split at ht
  · exact (writerBit_moves _ s).finish_within ht (by simp [writes]) (by simp [writes])
  · cases ht
    exact (raiseExc_within _ s).mono (by simp [writes])

/-- A command changes nothing but the registers it is named for. -/
theorem exec_within {i : Instr} {s t : State} (ht : exec i s = .next t) : Within (writes i) s t := by
  cases i with
  | nop => cases ht; exact Within.refl _ s
  | bwOpen => exact (writerOpen_moves s).finish_within ht (by decide) (by decide)
  | bwWrite arg => exact execBwWrite_within ht
  | bwFlush => exact (writerFlush_moves s).finish_within ht (by decide) (by decide)
  | bwDestroy => exact (writerDestroy_moves s).finish_within ht (by decide) (by decide)
  | brOpen => exact (readerOpen_moves s).finish_within ht (by decide) (by decide)
  | brRead => exact (readerBit_moves s).finish_within ht (by decide) (by decide)
  | fcClear => cases ht; exact clearSyms_within s
  | fcSet sym => cases ht; exact setSym_within s sym s.warg
  | fcCount => exact execFcCount_within ht
  | fcPad => cases ht; exact padMapping_within s
  | htBuild => cases ht; exact buildTree_within s
  | htSnap => cases ht; exact snapTree_within s
  | htSave => exact (saveTree_moves s).finish_within ht (by decide) (by decide)
  | htLoad => exact (loadTree_moves s).finish_within ht (by decide) (by decide)
  | htEncode => exact (encodeSource_moves s).finish_within ht (by decide) (by decide)
  | htDecode => exact (decodeSource_moves s).finish_within ht (by decide) (by decide)
  | facadeEncode => exact (facadeEncode_moves s).finish_within ht (by decide) (by decide)
  | facadeDecode => exact (facadeDecode_moves s).finish_within ht (by decide) (by decide)
  | errClear => cases ht; exact clearExc_within s
  | sreset => cases ht; exact resetState_within s
  | bwSize | brEos | brSize | fcGet _ | fcNsym | htAdsize | htEq => cases ht; exact setResult_within s _

/-! ## No command reads DST -/

/-- A change of state without regard to DST stores nothing. -/
theorem sinkBlind_update {g : State → State} (hg : ∀ s m, g { s with dst := m } = { g s with dst := m }) {s t : State}
    (ht : Host.Outcome.next (g s) = (.next t : Result)) : SinkBlind (fun s => .next (g s)) s t :=
  sinkBlind_of ht [] fun m => by
    cases ht
    exact congrArg _ (hg s m)

/-- A command that returns a value worked out without regard to DST (R91). -/
theorem sinkBlind_setResult {f : State → Word} (hf : ∀ s m, f { s with dst := m } = f s) {s t : State}
    (ht : Host.Outcome.next { s with result := f s } = (.next t : Result)) :
    SinkBlind (fun s => .next { s with result := f s }) s t :=
  sinkBlind_update (g := fun s => { s with result := f s }) (fun s m => by simp only [hf s m]) ht

theorem raiseExc_dst_update (e : Exc) (s : State) (m : Memory) :
    raiseExc e { s with dst := m } = { raiseExc e s with dst := m } := by
  unfold raiseExc
  split <;> rfl

theorem execBwWrite_sinkBlind {arg : Byte} {s t : State} (ht : execBwWrite arg s = .next t) :
    SinkBlind (execBwWrite arg) s t := by
  by_cases ha : arg.toNat ≤ 1
  · have hf : execBwWrite arg = fun s => (writerBit (argBit arg) s).finish := funext fun s => if_pos ha
    rw [hf] at ht ⊢
    exact (writerBit_blind _).finish ht
  · have hf : execBwWrite arg = fun s => .next (raiseExc (illegalOp .badArg) s) := funext fun s => if_neg ha
    rw [hf] at ht ⊢
    exact sinkBlind_update (raiseExc_dst_update _) ht

/-- A command does the same on every sink memory, and stores the same bytes at the same places. -/
theorem exec_sinkBlind {i : Instr} {s t : State} (ht : exec i s = .next t) : SinkBlind (exec i) s t := by
  cases i with
  | bwOpen => exact writerOpen_blind.finish ht
  | bwWrite arg => exact execBwWrite_sinkBlind ht
  | bwFlush => exact writerFlush_blind.finish ht
  | bwDestroy => exact writerDestroy_blind.finish ht
  | brOpen => exact readerOpen_blind.finish ht
  | brRead => exact readerBit_blind.finish ht
  | fcCount => exact countSource_blind.finish ht
  | fcPad => exact sinkBlind_update padMapping_dst ht
  | htBuild => exact sinkBlind_update buildTree_dst ht
  | htSave => exact saveTree_blind.finish ht
  | htLoad => exact loadTree_blind.finish ht
  | htEncode => exact encodeSource_blind.finish ht
  | htDecode => exact decodeSource_blind.finish ht
  | facadeEncode => exact facadeEncode_blind.finish ht
  | facadeDecode => exact facadeDecode_blind.finish ht
  | sreset => exact sinkBlind_update (g := resetState) (fun _ _ => rfl) ht
  | nop => exact sinkBlind_update (g := id) (fun _ _ => rfl) ht
  | fcClear => exact sinkBlind_update (g := State.clearSyms) (fun _ _ => rfl) ht
  | fcSet sym => exact sinkBlind_update (g := fun s => s.setSym sym s.warg) (fun _ _ => rfl) ht
  | htSnap => exact sinkBlind_update (g := fun s => { s with snode := s.node }) (fun _ _ => rfl) ht
  | errClear => exact sinkBlind_update (g := clearExc) (fun _ _ => rfl) ht
  | bwSize => exact sinkBlind_setResult (f := State.bwCnt) (fun _ _ => rfl) ht
  | brEos => exact sinkBlind_setResult (f := fun s => boolWord s.brEos) (fun _ _ => rfl) ht
  | brSize => exact sinkBlind_setResult (f := State.brSize) (fun _ _ => rfl) ht
  | fcGet sym => exact sinkBlind_setResult (f := fun s => s.freqOf sym) (fun _ _ => rfl) ht
  | fcNsym => exact sinkBlind_setResult (f := fun s => BitVec.ofNat 32 s.symbols.length) (fun _ _ => rfl) ht
  | htAdsize => exact sinkBlind_setResult (f := State.auxSize) (fun _ _ => rfl) ht
  | htEq => exact sinkBlind_setResult (f := fun s => boolWord (treesEqual s.node s.snode)) (fun _ _ => rfl) ht

/-! ## The statements -/

/-- Settles O52: what `exec_within` says, part by part. -/
theorem commandsWriteOnlyTheirRegisters : Obligations.CommandsWriteOnlyTheirRegisters := fun _ _ _ _ ht =>
  let h := exec_within ht
  ⟨h.cfg, h.src, h.pending, h.rdata, h.same⟩

/-- Settles O53: `SinkBlind` of a command is the statement. -/
theorem commandsNeverReadTheSink : Obligations.CommandsNeverReadTheSink := fun _ _ _ ht => exec_sinkBlind ht

end Sys2Proof.Machine
end

section
/-! SUPPORT. The command word (spec/30_encoding.md R80 to R83, R91, R95): which commands an opcode and an ARG field give,
that decoding and encoding are each other's inverse, and what a write of CMD does, in the order of R82. -/

namespace Sys2Proof.Machine

open Sys2Proof.Laws

/-! ## The opcode map -/

theorem instrOf_encoding (i : Instr) : instrOf (opcode i) (argOf i) = some i := by cases i <;> rfl

/-- The ARG check of R82 on a command's own fields is the check that the command is well formed. -/
theorem argLegal_encoding (i : Instr) : argLegal (opcode i) (argOf i) = i.wellFormed := by cases i <;> rfl

/-- A command's ARG field is the one it was read with: its operand, or the 0 that the ARG check asks for. -/
theorem argOf_of_instrOf {arg : Byte} {i : Instr} (h : instrOf (opcode i) arg = some i)
    (ha : argLegal (opcode i) arg = true) : argOf i = arg := by
  cases i with
  | bwWrite x | fcSet x | fcGet x => cases h; rfl
  | _ => exact (of_decide_eq_true ha).symm

/-- The opcodes without a command are those R95 lists. -/
theorem instrOf_eq_none_iff (op arg : Byte) : instrOf op arg = none ↔ reservedOpcode op := by
  have hlt := op.isLt
  unfold instrOf reservedOpcode
  split
  case h_29 => simp only [imp_false, true_iff] at *; omega
  all_goals simp only [reduceCtorEq, false_iff]; omega

/-! ## Decoding and encoding -/

theorem decode_encode {i : Instr} (h : i.wellFormed = true) : decode (encode i) = .ok i := by
  simp [decode, zeroField_encode, opField_encode, argField_encode, instrOf_encoding, argLegal_encoding, h]

theorem encode_of_decode {w : Word} {i : Instr} (h : decode w = .ok i) : i.wellFormed = true ∧ encode i = w := by
  obtain ⟨hz, hi, ha⟩ := decode_ok h
  have hop := opField_of_decode h
  rw [hop] at hi ha
  have harg := argOf_of_instrOf hi ha
  refine ⟨by rw [← argLegal_encoding, harg, ha], ?_⟩
  rw [encode, harg, ← hop, show 0#16 = zeroField w from hz.symm, word_fields]

/-! ## The order of R82 -/

theorem decode_zeroField {w : Word} (h : zeroField w ≠ 0) : decode w = .error .zeroField := if_pos h

theorem decode_reserved {w : Word} (hz : zeroField w = 0) (hr : reservedOpcode (opField w)) :
    decode w = .error .reservedOpcode := by
  simp [decode, hz, (instrOf_eq_none_iff _ (argField w)).2 hr]

/-- An opcode of the map: the ARG field decides. -/
theorem decode_mapped {w : Word} (hz : zeroField w = 0) (hr : ¬ reservedOpcode (opField w)) :
    ∃ i, decode w = if argLegal (opField w) (argField w) then .ok i else .error .argField := by
  obtain ⟨i, hi⟩ := Option.ne_none_iff_exists'.1 fun h => hr ((instrOf_eq_none_iff _ (argField w)).1 h)
  exact ⟨i, by simp [decode, hz, hi]⟩

theorem decode_argField {w : Word} (hz : zeroField w = 0) (hr : ¬ reservedOpcode (opField w))
    (ha : argLegal (opField w) (argField w) ≠ true) : decode w = .error .argField := by
  obtain ⟨i, hi⟩ := decode_mapped hz hr
  rw [hi, if_neg ha]

theorem decode_legal {w : Word} (hz : zeroField w = 0) (hr : ¬ reservedOpcode (opField w))
    (ha : argLegal (opField w) (argField w) = true) : ∃ i, decode w = .ok i := by
  obtain ⟨i, hi⟩ := decode_mapped hz hr
  exact ⟨i, by rw [hi, if_pos ha]⟩

/-- The operand of BW.WRITE is a bit where w[15:9] is 0 (R91). -/
theorem argField_le_one_iff (w : Word) : (argField w).toNat ≤ 1 ↔ w.extractLsb' 9 7 = 0#7 := by
  rw [← BitVec.toNat_inj, argField, BitVec.extractLsb'_toNat, BitVec.extractLsb'_toNat, Nat.shiftRight_eq_div_pow,
    Nat.shiftRight_eq_div_pow, BitVec.toNat_ofNat]
  omega

/-- The ARG check on a word, as the fourth and the fifth line of R82 have it. -/
theorem argLegal_iff (w : Word) : argLegal (opField w) (argField w) = true ↔
    (w.extractLsb' 0 8 = 0x02#8 → w.extractLsb' 9 7 = 0#7) ∧
    (w.extractLsb' 0 8 ∉ [0x02#8, 0x11#8, 0x14#8] → w.extractLsb' 8 8 = 0#8) := by
  rw [← argField_le_one_iff]
  change _ ↔ (opField w = 0x02#8 → _) ∧ (opField w ∉ _ → argField w = 0#8)
  by_cases h2 : opField w = 0x02#8
  · simp [argLegal, h2]
  · by_cases h3 : opField w = 0x11#8 ∨ opField w = 0x14#8
    · rcases h3 with h3 | h3 <;> simp [argLegal, h3]
    · obtain ⟨h11, h14⟩ := not_or.1 h3
      simp [argLegal, h2, h11, h14]

theorem gated_iff (w : Word) (s : State) : gated w s = true ↔
    s.errKind ≠ 0 ∧ w.extractLsb' 0 8 ≠ 0x3E#8 ∧ w.extractLsb' 0 8 ≠ 0x3F#8 := by
  simp [gated, opField, and_assoc]

theorem commandWrite_gated {w : Word} {s : State} (h : gated w s = true) : commandWrite w s = .next s := if_pos h

theorem commandWrite_illegal {w : Word} {s : State} {e : DecodeError} (hg : ¬ gated w s = true)
    (hd : decode w = .error e) : commandWrite w s = .next (raiseExc (decodeExc e) s) := by
  simp [commandWrite, hg, hd]

theorem commandWrite_decoded {w : Word} {s : State} {i : Instr} (hg : ¬ gated w s = true) (hd : decode w = .ok i) :
    commandWrite w s = exec i s := by
  simp [commandWrite, hg, hd]

/-! ## The statements -/

/-- Settles O1: the fields of an encoded command are its opcode and its ARG, and the map gives the command for them. -/
theorem encodedCommandsDecodeBack : Obligations.EncodedCommandsDecodeBack := fun _ => decode_encode

/-- Settles O2: the three fields of a word that decodes are those of the command's word. -/
theorem decodedWordsAreEncodings : Obligations.DecodedWordsAreEncodings := fun _ _ => encode_of_decode

/-- Settles O3: each word is the encoding of its command. -/
theorem sampleWordsDecode : Obligations.SampleWordsDecode :=
  ⟨decode_encode (i := .nop) rfl, decode_encode (i := .bwWrite 1) rfl, decode_encode (i := .brRead) rfl,
    decode_encode (i := .fcSet 0x61) rfl, decode_encode (i := .htBuild) rfl, decode_encode (i := .facadeEncode) rfl,
    decode_encode (i := .sreset) rfl⟩

/-- Settles O4: the gate, then the outcomes of `decode` in its order. -/
theorem commandWriteFollowsTheDecodeOrder : Obligations.CommandWriteFollowsTheDecodeOrder := by
  intro w s
  rw [← gated_iff]
  refine ⟨commandWrite_gated, fun hg => ⟨fun hz => ?_, fun hz hr => ?_, fun hz hop hbit => ?_, fun hz hr hop harg => ?_,
    fun hz hr hbit harg => ?_⟩⟩
  · exact commandWrite_illegal hg (decode_zeroField hz)
  · exact commandWrite_illegal hg (decode_reserved hz hr)
  · have hr : ¬ reservedOpcode (w.extractLsb' 0 8) := by rw [hop]; unfold reservedOpcode; decide
    exact commandWrite_illegal hg (decode_argField hz hr fun ha => hbit (((argLegal_iff w).1 ha).1 hop))
  · exact commandWrite_illegal hg (decode_argField hz hr fun ha => harg (((argLegal_iff w).1 ha).2 hop))
  · obtain ⟨i, hi⟩ := decode_legal hz hr ((argLegal_iff w).2 ⟨hbit, harg⟩)
    obtain ⟨hwf, he⟩ := encode_of_decode hi
    exact ⟨i, hwf, he, commandWrite_decoded hg hi⟩

end Sys2Proof.Machine
end

section
/-! SUPPORT. No code word of a built tree begins another (spec/30_encoding.md R90). -/

namespace Sys2Proof.Machine

section
variable {syms : List Byte} {f : Byte → Nat} {ws : List Nat} {nodes : List Node}

/-- No code word begins another symbol's: from the root it ends at its own symbol's leaf, whatever follows (R90). -/
theorem Built.codeWord_not_isPrefix (h : Built syms f ws nodes) (h256 : syms.length ≤ 256) (h2 : 2 ≤ syms.length)
    {v v' : Byte} (hv : v ∈ syms) (hv' : v' ∈ syms) (hne : v' ≠ v) {w w' : List Bool}
    (hw : Machine.codeWord nodes v = some w) (hw' : Machine.codeWord nodes v' = some w') : ¬ w <+: w' := by
  rintro ⟨rest, rfl⟩
  obtain ⟨x, hx, hxd⟩ := h.codeWord h256 hv
  obtain ⟨x', hx', hxd'⟩ := h.codeWord h256 hv'
  cases hw.symm.trans hx
  cases hw'.symm.trans hx'
  obtain ⟨leaf, hleaf, hsym⟩ := (hxd h2).2 rest
  obtain ⟨leaf', hleaf', hsym'⟩ := (hxd' h2).2 []
  rw [List.append_nil, hleaf] at hleaf'
  cases hleaf'
  exact hne (hsym'.symm.trans hsym)

end

/-! ## The statements -/

/-- Settles O36: HT.BUILD leaves a built tree, whose code words and their concatenations the laws of `Built` describe. -/
theorem codeWordsAreAPrefixCode : Obligations.CodeWordsAreAPrefixCode := by
  intro s nodes hex h2
  obtain ⟨-, ws, hb⟩ := buildTree_built s
  have h256 := symbols_length_le s
  obtain rfl : (buildTree s).node = nodes := congrArg State.node (Host.Outcome.next.inj hex)
  refine ⟨fun v hv => ?_, fun input hin => ?_⟩
  · obtain ⟨w, hw, hwd⟩ := hb.codeWord h256 hv
    exact ⟨w, hw, List.length_pos_iff.2 (hwd h2).1, hb.codeWord_length_le h256 hv hw,
      fun _ hv' hne _ hw' => hb.codeWord_not_isPrefix h256 h2 hv hv' hne hw hw'⟩
  · obtain ⟨bits, hbits, hdec⟩ := hb.codeBits h256 hin
    exact ⟨bits, hbits, hdec h2⟩

end Sys2Proof.Machine
end

section
/-! SUPPORT. Command words one after another (spec/30_encoding.md R81, R82, R98): a run through the gate; the words of a
writer's life, which leave the bit-sequence block (R87, R127); and ENCODE and DECODE as the words of their steps
(spec/46_facade.md R241, R243). -/

namespace Sys2Proof.Machine

/-! ## Runs of command words -/

theorem runWords_cons {w : Word} {ws : List Word} {s t : State} (h : commandWrite w s = .next t) :
    runWords (w :: ws) s = runWords ws t := by rw [runWords, h]

/-- A word that decodes runs its command where no exception is recorded. -/
theorem runWords_command {w : Word} {ws : List Word} {i : Instr} {s t : State} (hd : decode w = .ok i)
    (hs : s.errKind = 0) (h : exec i s = .next t) : runWords (w :: ws) s = runWords ws t :=
  runWords_cons ((commandWrite_ok hd (.inl hs)).trans h)

/-- The opcode is neither ERR.CLEAR's nor SRESET's, so a recorded exception refuses the word (R282). -/
def gateable (w : Word) : Bool := opField w != 0x3E#8 && opField w != 0x3F#8

theorem gated_eq (w : Word) (s : State) : gated w s = (s.errKind != 0 && gateable w) := Bool.and_assoc _ _ _

/-- While an exception is recorded the words change nothing (R282). -/
theorem runWords_gated {ws : List Word} {s : State} (hs : s.errKind ≠ 0) (hw : ws.all gateable = true) :
    runWords ws s = .next s := by
  induction ws with
  | nil => rfl
  | cons w ws ih =>
    obtain ⟨hop, hrest⟩ := Bool.and_eq_true_iff.1 hw
    have hg : gated w s = true := by rw [gated_eq, hop, bne_iff_ne.2 hs]; rfl
    rw [runWords_cons (commandWrite_gated hg), ih hrest]

/-! ## A writer's life -/

/-- The word of BW.WRITE for a bit (R83, R91). -/
def writeWord (b : Bool) : Word := if b then 0x00000102#32 else 0x00000002#32

theorem decode_writeWord (b : Bool) : decode (writeWord b) = .ok (.bwWrite (bitByte b)) := by cases b <;> rfl

theorem exec_bwWrite_bitByte (b : Bool) (s : State) : exec (.bwWrite (bitByte b)) s = (writerBit b s).finish := by
  cases b <;> rfl

/-- The words of a bit list, with room for its bytes, append it to what the writer holds (R122, R127). -/
theorem runWords_writes {u : State} (hu : u.errKind = 0) (more bits : List Bool) (ws : List Word)
    (hn : bits.length + more.length < 2 ^ 32)
    (hr : u.dstPos.toNat + 4 + (bits.length + more.length) / 8 ≤ u.cfg.dstSize.toNat) :
    runWords (more.map writeWord ++ ws) (writerAt u bits) = runWords ws (writerAt u (bits ++ more)) := by
  induction more generalizing bits with
  | nil => rw [List.append_nil]; rfl
  | cons b more ih =>
    simp only [List.length_cons] at hn hr
    have hbit : exec (.bwWrite (bitByte b)) (writerAt u bits) = .next (writerAt u (bits ++ [b])) := by
      rw [exec_bwWrite_bitByte, writerBit_writerAt b (by omega) (by omega)]; rfl
    rw [List.map_cons, List.cons_append, runWords_command (s := writerAt u bits) (decode_writeWord b) hu hbit,
      ih (bits ++ [b]) (by simp; omega) (by simp only [List.length_append, List.length_singleton]; omega),
      List.append_assoc, List.singleton_append]

/-- BW.OPEN, the writes of a bit list and BW.DESTROY store the list's block and close the writer (R87, R127). -/
theorem runWords_writer {s : State} {bits : List Bool} (hd : s.dst.wf) (he : s.errKind = 0) (hb : s.bwOpen = false)
    (hn : bits.length < 2 ^ 32) (hr : s.dstPos.toNat + 4 + ceil8 bits.length ≤ s.cfg.dstSize.toNat) :
    runWords (0x00000001#32 :: (bits.map writeWord ++ [0x00000004#32])) s = .next { s with
      bwOpen := false
      bwHdr := s.dstPos
      bwCnt := BitVec.ofNat 32 bits.length
      bwAcc := payloadByte bits (bits.length / 8)
      dst := s.dst.writeBytes s.dstPos.toNat (bitBlock bits)
      dstPos := BitVec.ofNat 32 (s.dstPos.toNat + 4 + ceil8 bits.length) } := by
  have hceil : bits.length / 8 ≤ ceil8 bits.length := by unfold ceil8; omega
  have hopen : exec .bwOpen s = .next (writerAt s []) := congrArg Eff.finish (writerOpen_eq_writerAt hb (by omega))
  rw [runWords_command (i := .bwOpen) rfl he hopen,
    runWords_writes he bits [] _ (by simpa using hn) (by simp only [List.length_nil, Nat.zero_add]; omega)]
  exact runWords_command (i := .bwDestroy) rfl he (congrArg Eff.finish (writerDestroy_writerAt hd hn hr))

/-! ## A command as its steps -/

/-- RESULT <- 8·NN + 6 where no exception is recorded (R241, R243). -/
def withAuxSize (t : State) : State :=
  if t.errKind = 0 then { t with result := BitVec.ofNat 32 (8 * t.node.length + 6) } else t

/-- The operation, as a command, leaves what the words do, and the auxiliary size (R98). -/
def DoesWords (ws : List Word) (f : Eff Unit) (s : State) : Prop :=
  ∃ t, runWords ws s = .next t ∧ f.finish = .next (withAuxSize t)

theorem doesWords_nil {s : State} (hs : s.errKind = 0) : DoesWords [] (returnAuxSize s) s :=
  ⟨s, rfl, by rw [withAuxSize, if_pos hs]; rfl⟩

/-- One word more: its command's step, which either ends normally and is followed by the rest, or raises, after which the
gate refuses the words that are left. -/
theorem doesWords_cons {α : Type} {w : Word} {ws : List Word} {i : Instr} {regs : List Reg} {s : State} {r : Eff α}
    {f : α → State → Eff Unit} (hd : decode w = .ok i) (hex : exec i s = r.finish) (hm : r.Moves regs s)
    (hre : .err ∉ regs) (hw : ws.all gateable = true) (hinv : s.Inv) (hs : s.errKind = 0)
    (hf : ∀ a t, t.Inv → t.errKind = 0 → DoesWords ws (f a t) t) : DoesWords (w :: ws) (r.andThen f) s := by
  obtain ⟨t, ht, htinv⟩ := exec_inv i hinv
  rw [DoesWords, runWords_command hd hs ht]
  cases r with
  | done a u =>
    cases hex.symm.trans ht
    exact hf a t htinv ((hm.same .err hre).1.trans hs)
  | raised e u =>
    cases hex.symm.trans ht
    have hu : u.errKind = 0 := (hm.same .err hre).1.trans hs
    have hrec : (raiseExc e u).errKind ≠ 0 := by rw [raiseExc_of_none e hu]; exact e.kind.code_ne
    exact ⟨_, runWords_gated hrec hw, by rw [withAuxSize, if_neg hrec]; rfl⟩
  | stop x => cases hex.symm.trans ht

/-- ENCODE with no writer open, with FC.PAD and HT.BUILD, which cannot raise, as steps of their own (R241). -/
theorem facadeEncode_steps {s : State} (hb : s.bwOpen = false) : facadeEncode s =
    (countSource s).andThen fun _ a => (Eff.done () (padMapping a)).andThen fun _ b =>
      (Eff.done () (buildTree b)).andThen fun _ c => (saveTree c).andThen fun _ d =>
        (encodeSource d).andThen fun _ t => returnAuxSize t := if_neg (by simp [hb])

theorem facadeDecode_steps {s : State} (hb : s.bwOpen = false) : facadeDecode s =
    (loadTree s).andThen fun _ a => (decodeSource a).andThen fun _ t => returnAuxSize t := if_neg (by simp [hb])

theorem doesWords_facadeEncode {s : State} (h : s.Inv) (he : s.errKind = 0) (hb : s.bwOpen = false) :
    DoesWords [0x00000012#32, 0x00000013#32, 0x00000020#32, 0x00000021#32, 0x00000023#32] (facadeEncode s) s := by
  rw [facadeEncode_steps hb]
  refine doesWords_cons (i := .fcCount) rfl rfl (countSource_moves s) (by decide) rfl h he fun _ a ha hae => ?_
  refine doesWords_cons (i := .fcPad) rfl rfl (padMapping_within a) (by decide) rfl ha hae fun _ b hb hbe => ?_
  refine doesWords_cons (i := .htBuild) rfl rfl (buildTree_within b) (by decide) rfl hb hbe fun _ c hc hce => ?_
  refine doesWords_cons (i := .htSave) rfl rfl (saveTree_moves c) (by decide) rfl hc hce fun _ d hd hde => ?_
  exact doesWords_cons (i := .htEncode) rfl rfl (encodeSource_moves d) (by decide) rfl hd hde fun _ _ _ => doesWords_nil

theorem doesWords_facadeDecode {s : State} (h : s.Inv) (he : s.errKind = 0) (hb : s.bwOpen = false) :
    DoesWords [0x00000022#32, 0x00000024#32] (facadeDecode s) s := by
  rw [facadeDecode_steps hb]
  refine doesWords_cons (i := .htLoad) rfl rfl (loadTree_moves s) (by decide) rfl h he fun _ a ha hae => ?_
  exact doesWords_cons (i := .htDecode) rfl rfl (decodeSource_moves a) (by decide) rfl ha hae fun _ _ _ => doesWords_nil

theorem facadeEncode_busy {s : State} (hb : s.bwOpen = true) : facadeEncode s = .raised (illegalOp .bwState) s :=
  if_pos hb

theorem facadeDecode_busy {s : State} (hb : s.bwOpen = true) : facadeDecode s = .raised (illegalOp .sinkBound) s :=
  if_pos hb

/-! ## The statements -/

/-- Settles O26: the block is read back from where the words stored it, and around it DST is as it was. -/
theorem writerLeavesTheBitSequenceBlock : Obligations.WriterLeavesTheBitSequenceBlock := by
  intro s bits hd he hb hn hr
  refine ⟨_, runWords_writer hd he hb hn hr, by rw [← hb], ?_, fun a ha => ?_⟩
  · rw [← bitBlock_length]
    exact Memory.readBytes_writeBytes s.dst hd _ _
  · exact Memory.read_writeBytes_out s.dst (by rw [bitBlock_length]; omega)

/-- Settles O48: ENCODE and DECODE refuse an open writer, and else do their steps' words one by one. -/
theorem facadeIsItsSteps : Obligations.FacadeIsItsSteps :=
  ⟨rfl, rfl,
    fun _ hb => ⟨congrArg Eff.finish (facadeEncode_busy hb), congrArg Eff.finish (facadeDecode_busy hb)⟩,
    fun _ => doesWords_facadeEncode, fun _ => doesWords_facadeDecode⟩

end Sys2Proof.Machine
end

section
/-! SUPPORT. The bit writer command by command (spec/40_bitwriter.md R121 to R125): a flush with room for the byte in
progress as one state, which another flush leaves alone; a writer's bits from command to command (R127); and the
commands that only return a value (R126, R143, R144, R165, R226). -/

namespace Sys2Proof.Machine

open Sys2Proof.Laws

/-! ## A bit written -/

theorem bwCnt_eq_last {s : State} (h : s.bwCnt.toNat = 2 ^ 32 - 1) : s.bwCnt = 0xFFFFFFFF#32 := BitVec.eq_of_toNat_eq h

theorem bwCnt_ne_last {s : State} (h : s.bwCnt.toNat < 2 ^ 32 - 1) : s.bwCnt ≠ 0xFFFFFFFF#32 := fun hc => by
  rw [hc] at h
  exact absurd h (by decide)

/-- A legal operand of BW.WRITE is a bit (R91). -/
theorem exists_eq_bitByte {arg : Byte} (h : (Instr.bwWrite arg).wellFormed = true) : ∃ b, arg = bitByte b := by
  have hle : arg.toNat ≤ 1 := of_decide_eq_true h
  rcases Nat.le_one_iff_eq_zero_or_eq_one.1 hle with h0 | h1
  · exact ⟨false, BitVec.eq_of_toNat_eq h0⟩
  · exact ⟨true, BitVec.eq_of_toNat_eq h1⟩

/-! ## The sink image of an opened and of a flushed writer -/

theorem Memory.readBytes_add (m : Memory) (a n k : Nat) :
    m.readBytes a (n + k) = m.readBytes a n ++ m.readBytes (a + n) k := by
  simp [Memory.readBytes, List.range_add, Nat.add_assoc]

/-- The header BW.OPEN reserves is four zeros, and around it DST is as it was (R121). -/
theorem read_zeroHeader {m : Memory} (hm : m.wf) (a x : Nat) :
    (m.writeBytes a (leBytes 4 0)).read x = if a ≤ x ∧ x < a + 4 then 0 else m.read x := by
  have hzero (j : Nat) : (leBytes 4 0)[j]?.getD (0 : Byte) = 0 := by
    match j with
    | 0 | 1 | 2 | 3 | _ + 4 => rfl
  rw [Memory.read_writeBytes_block _ hm, leBytes_length, hzero]

/-- The state after a flush that does not raise (R123). -/
def flushed (s : State) : State :=
  { s with dst := flushedDst s, dstPos := BitVec.ofNat 32 (s.bwHdr.toNat + 4 + ceil8 s.bwCnt.toNat) }

/-- A byte in progress with bits in it has its place in DST (R123). -/
def FlushFits (s : State) : Prop := s.bwCnt.toNat % 8 ≠ 0 → payloadAddr s < s.cfg.dstSize.toNat

theorem not_flushFits {s : State} (h : ¬ FlushFits s) :
    s.bwCnt.toNat % 8 ≠ 0 ∧ s.cfg.dstSize.toNat ≤ payloadAddr s := by
  unfold FlushFits at h
  omega

theorem flushFits_raiseExc (e : Exc) (s : State) : FlushFits (raiseExc e s) ↔ FlushFits s := by
  simp [FlushFits, payloadAddr]

theorem exec_bwFlush_full {s : State} (hb : s.bwOpen = true) (hf : ¬ FlushFits s) :
    exec .bwFlush s = .next (raiseExc (capacity .sinkRange) s) := by
  obtain ⟨hk, ha⟩ := not_flushFits hf
  exact congrArg Eff.finish (writerFlush_full hb hk ha)

theorem exec_bwFlush_fits {s : State} (hb : s.bwOpen = true) (hh : s.bwHdr.toNat + 4 ≤ s.cfg.dstSize.toNat)
    (hf : FlushFits s) : exec .bwFlush s = .next (flushed s) :=
  congrArg Eff.finish (writerFlush_ok hb hh hf)

/-- A flush may raise at a sink byte, but never stops. -/
theorem writerFlush_ne_stop (s : State) (f : Fault) : writerFlush s ≠ .stop f := by
  have hbytes : ∀ a bs u, dstBytes a bs u ≠ .stop f := fun a bs u => by
    rcases dstBytes_cases a bs u with ⟨m, h, -⟩ | ⟨n, -, h, -⟩ <;> rw [h] <;> exact nofun
  unfold writerFlush flushPartial dstByte
  split
  · exact nofun
  · split
    · exact hbytes _ _ _
    · split
      · exact nofun
      · exact hbytes _ _ _

/-- A second flush finds every byte of the image in place (R124). -/
theorem flushed_flushed {s : State} (hd : s.dst.wf) : flushed (flushed s) = flushed s := by
  have hwf : (flushed s).dst.wf := wf_flushedDst hd
  have hdst : flushedDst (flushed s) = flushedDst s := Memory.ext (wf_flushedDst hwf) hwf fun x => by
    rw [read_flushedDst hwf, read_flushedDst hd]
    simp only [flushedByte, flushed, read_flushedDst hd]
    split
    · rfl
    · split <;> rfl
  simp only [flushed] at hdst ⊢
  rw [hdst]

/-- The stored header is the bit count (R123). -/
theorem readBytes_flushedDst_header {s : State} (hd : s.dst.wf) :
    (flushedDst s).readBytes s.bwHdr.toNat 4 = leBytes 4 s.bwCnt.toNat := by
  refine List.ext_getElem? fun j => ?_
  rw [Memory.readBytes_getElem?]
  split
  · next hj => rw [read_flushedDst hd, leBytes_word _ hj, flushedByte, if_pos (by omega), Nat.add_sub_cancel_left]
  · exact (List.getElem?_eq_none (by simp; omega)).symm

theorem memRead_flushedDst {s : State} (hd : s.dst.wf) : memRead (flushedDst s) s.bwHdr.toNat 4 = s.bwCnt.toNat :=
  memRead_eq_of_readBytes (readBytes_flushedDst_header hd) s.bwCnt.isLt

/-- A flush leaves the complete payload bytes alone (R123). -/
theorem flushedByte_complete {s : State} {j : Nat} (hj : j < s.bwCnt.toNat / 8) :
    flushedByte s (s.bwHdr.toNat + 4 + j) = s.dst.read (s.bwHdr.toNat + 4 + j) := by
  rw [flushedByte, if_neg (by omega), if_neg (by omega)]

/-- DST_POS is just past the flushed block: its last byte exists, so the sum does not wrap (R34, R123). -/
theorem flushed_dstPos {s : State} (hs : s.Inv) (hb : s.bwOpen = true) (hf : FlushFits s) :
    (flushed s).dstPos.toNat = s.bwHdr.toNat + 4 + ceil8 s.bwCnt.toNat := by
  have hroom : payloadAddr s ≤ s.dstPos.toNat := (hs.writer_room hb).2
  have hsize := s.cfg.dstSize.isLt
  have hpos := s.dstPos.isLt
  have hlt : s.bwHdr.toNat + 4 + ceil8 s.bwCnt.toNat < 2 ^ 32 := by
    unfold FlushFits payloadAddr at *
    unfold ceil8
    omega
  exact (BitVec.toNat_ofNat _ _).trans (Nat.mod_eq_of_lt hlt)

/-! ## Raises and the closing of a writer -/

/-- After a raise an exception is recorded, this one or an earlier one (R280, R281). -/
theorem raiseExc_errKind_ne (e : Exc) (s : State) : (raiseExc e s).errKind ≠ 0 := by
  by_cases h : s.errKind = 0
  · rw [raiseExc_of_none e h]
    exact e.kind.code_ne
  · rwa [raiseExc_of_some e h]

theorem raiseExc_raiseExc (e : Exc) (s : State) : raiseExc e (raiseExc e s) = raiseExc e s :=
  raiseExc_of_some e (raiseExc_errKind_ne e s)

theorem raiseExc_close (e : Exc) (s : State) :
    raiseExc e { s with bwOpen := false } = { raiseExc e s with bwOpen := false } := by
  unfold raiseExc
  split <;> rfl

/-- BW.DESTROY with a writer open leaves what BW.FLUSH does, the writer closed (R125). -/
theorem exec_bwDestroy_of_open {s : State} (hb : s.bwOpen = true) :
    ∃ t, exec .bwFlush s = .next t ∧ exec .bwDestroy s = .next { t with bwOpen := false } := by
  change ∃ t, (writerFlush s).finish = .next t ∧ (writerDestroy s).finish = .next { t with bwOpen := false }
  rw [writerDestroy, if_neg (by simp [hb])]
  cases hf : writerFlush s with
  | done _ t => exact ⟨t, rfl, rfl⟩
  | raised e t => exact ⟨raiseExc e t, rfl, congrArg _ (raiseExc_close e t)⟩
  | stop f => exact absurd hf (writerFlush_ne_stop s f)

/-! ## The bits of an open writer (R127) -/

/-- The registers that make up the image of an open writer. -/
abbrev imageRegs : List Reg := [.bwOpen, .bwHdr, .bwBits, .dst]

/-- A command on a writer that holds these bits: it keeps them, or adds the bit it writes, or closes the writer; the
complete payload bytes stay; and where it flushes and no exception is recorded after it, the block stands up to DST_POS
(R127). -/
structure KeepsWriter (i : Instr) (s t : State) (bits : List Bool) : Prop where
  holds : WriterHolds t bits ∨ (∃ b : Bool, i = .bwWrite (if b then 1 else 0) ∧ WriterHolds t (bits ++ [b]))
    ∨ (t.bwOpen = false ∧ (i = .bwDestroy ∨ i = .sreset))
  complete : ∀ j < bits.length / 8, t.dst.read (s.bwHdr.toNat + 4 + j) = s.dst.read (s.bwHdr.toNat + 4 + j)
  block : i = .bwFlush ∨ i = .bwDestroy → t.errKind = 0 →
    t.dst.readBytes s.bwHdr.toNat (4 + ceil8 bits.length) = bitBlock bits ∧
    t.dstPos.toNat = s.bwHdr.toNat + 4 + ceil8 bits.length

section
variable {s t : State} {bits : List Bool}

/-- A BW.OPEN that records nothing starts an empty sequence at the old DST_POS (R121, R127). -/
theorem writerHolds_of_exec_bwOpen (hex : exec .bwOpen s = .next t) (he : t.errKind = 0) :
    WriterHolds t [] ∧ t.bwHdr = s.dstPos := by
  rcases Eff.finish_next (r := writerOpen s) hex with ⟨_, hdone⟩ | ⟨e, u, -, rfl⟩
  · cases hb : s.bwOpen with
    | true => cases (writerOpen_busy hb).symm.trans hdone
    | false =>
      by_cases hr : s.cfg.dstSize.toNat < s.dstPos.toNat + 4
      · cases (writerOpen_full hb hr).symm.trans hdone
      · cases (writerOpen_eq_writerAt hb (by omega)).symm.trans hdone
        exact ⟨⟨rfl, rfl, rfl, fun _ hj => absurd hj (Nat.not_lt_zero _)⟩, rfl⟩
  · exact absurd he (raiseExc_errKind_ne e u)

theorem WriterHolds.of_within {regs : List Reg} (h : WriterHolds s bits) (hw : Within regs s t)
    (hr : ∀ r ∈ imageRegs, r ∉ regs) : WriterHolds t bits := by
  have hopen : t.bwOpen = s.bwOpen := hw.same .bwOpen (hr _ (by simp))
  have hhdr : t.bwHdr = s.bwHdr := hw.same .bwHdr (hr _ (by simp))
  obtain ⟨hcnt, hacc⟩ : t.bwCnt = s.bwCnt ∧ t.bwAcc = s.bwAcc := hw.same .bwBits (hr _ (by simp))
  have hdst : t.dst = s.dst := hw.same .dst (hr _ (by simp))
  exact ⟨hopen.trans h.isOpen, hcnt ▸ h.count, hacc.trans h.acc, fun j hj => by rw [hdst, hhdr, h.stored j hj]⟩

/-- Bits added leave the complete payload bytes as they were. -/
theorem WriterHolds.complete_of_append {more : List Bool} (h : WriterHolds s bits) (ht : WriterHolds t (bits ++ more))
    (hhdr : t.bwHdr = s.bwHdr) {j : Nat} (hj : j < bits.length / 8) :
    t.dst.read (s.bwHdr.toNat + 4 + j) = s.dst.read (s.bwHdr.toNat + 4 + j) := by
  have hj' : j < (bits ++ more).length / 8 := by rw [List.length_append]; omega
  rw [← hhdr, ht.stored j hj', hhdr, h.stored j hj, payloadByte_append bits more (by omega)]

/-- A command that leaves the registers of the image alone keeps the writer. -/
theorem KeepsWriter.of_within {i : Instr} {regs : List Reg} (h : WriterHolds s bits) (hw : Within regs s t)
    (hr : ∀ r ∈ imageRegs, r ∉ regs) (hi : ¬ (i = .bwFlush ∨ i = .bwDestroy)) : KeepsWriter i s t bits where
  holds := .inl (h.of_within hw hr)
  complete j _ := by rw [show t.dst = s.dst from hw.same .dst (hr _ (by simp))]
  block hfl := absurd hfl hi

/-- A raise that changes nothing else keeps the writer (R280, R283). -/
theorem KeepsWriter.of_raise {i : Instr} (h : WriterHolds s bits) (hr : ∃ e, exec i s = .next (raiseExc e s))
    (hex : exec i s = .next t) : KeepsWriter i s t bits := by
  obtain ⟨e, he⟩ := hr
  cases he.symm.trans hex
  exact ⟨.inl (h.of_within (raiseExc_within e s) (by decide)), fun j _ => by rw [raiseExc_dst],
    fun _ he => absurd he (raiseExc_errKind_ne e s)⟩

/-- The bit goes to the byte in progress, or completes it (R88, R122). -/
theorem WriterHolds.writerBit (h : WriterHolds s bits) (hd : s.dst.wf) (b : Bool) :
    (∃ e, writerBit b s = .raised e s) ∨
      ∃ t, writerBit b s = .done () t ∧ t.bwHdr = s.bwHdr ∧ WriterHolds t (bits ++ [b]) := by
  have hlen : (bits ++ [b]).length = bits.length + 1 := by simp
  have hcnt := h.count
  have haddr : payloadAddr s = s.bwHdr.toNat + 4 + bits.length / 8 := by rw [payloadAddr, hcnt]
  have hpack : packBit s.bwAcc (bits.length % 8) b = payloadByte (bits ++ [b]) (bits.length / 8) := by
    rw [h.acc, packBit_payloadByte]
  have hstored : ∀ j < bits.length / 8, s.dst.read (s.bwHdr.toNat + 4 + j) = payloadByte (bits ++ [b]) j :=
    fun j hj => by rw [h.stored j hj, payloadByte_append bits [b] (by omega)]
  by_cases hlast : s.bwCnt = 0xFFFFFFFF#32
  · exact .inl ⟨_, writerBit_overflow b h.isOpen hlast⟩
  have hcount : (s.bwCnt + 1).toNat = (bits ++ [b]).length := by
    have hne : s.bwCnt.toNat ≠ 4294967295 := fun hc => hlast (BitVec.eq_of_toNat_eq hc)
    have hlt := s.bwCnt.isLt
    rw [BitVec.toNat_add, hlen, ← hcnt]
    exact Nat.mod_eq_of_lt (show s.bwCnt.toNat + 1 < 2 ^ 32 by omega)
  by_cases hk : s.bwCnt.toNat % 8 = 7
  · by_cases ha : s.cfg.dstSize.toNat ≤ payloadAddr s
    · exact .inl ⟨_, writerBit_full b h.isOpen hlast hk ha⟩
    · refine .inr ⟨_, writerBit_byte b h.isOpen hlast hk (by omega), rfl, h.isOpen, hcount, ?_, fun j hj => ?_⟩
      · exact (payloadByte_beyond _ (by omega)).symm
      · change (s.dst.write (payloadAddr s) (packBit s.bwAcc 7 b)).read (s.bwHdr.toNat + 4 + j) = _
        rw [Memory.read_write _ hd, haddr]
        split
        · next hj' => rw [show j = bits.length / 8 by omega, ← hpack, ← hcnt, hk]
        · next hj' => exact hstored j (by omega)
  · have hdiv : (bits ++ [b]).length / 8 = bits.length / 8 := by omega
    refine .inr ⟨_, writerBit_partial b h.isOpen hlast hk, rfl, h.isOpen, hcount, ?_,
      fun j hj => hstored j (hdiv ▸ hj)⟩
    change packBit s.bwAcc (s.bwCnt.toNat % 8) b = _
    rw [hdiv, ← hpack, hcnt]

theorem exec_bwWrite_keepsWriter (h : WriterHolds s bits) (hd : s.dst.wf) (b : Bool)
    (hex : exec (.bwWrite (bitByte b)) s = .next t) : KeepsWriter (.bwWrite (bitByte b)) s t bits := by
  have hbit := exec_bwWrite_bitByte b s
  rcases h.writerBit hd b with ⟨e, he⟩ | ⟨u, hu, hhdr, hholds⟩
  · rw [he] at hbit
    exact .of_raise h ⟨e, hbit⟩ hex
  · rw [hu] at hbit
    cases hbit.symm.trans hex
    exact ⟨.inr (.inl ⟨b, rfl, hholds⟩), fun j hj => h.complete_of_append hholds hhdr hj, fun hi => by simp at hi⟩

/-- Payload byte j of a writer's bits in the flushed sink: a complete byte, or the byte in progress (R87, R123). -/
theorem WriterHolds.flushedByte_payload (h : WriterHolds s bits) {j : Nat} (hj : j < ceil8 bits.length) :
    flushedByte s (s.bwHdr.toNat + 4 + j) = payloadByte bits j := by
  have hcnt := h.count
  by_cases hfull : j < bits.length / 8
  · rw [flushedByte_complete (hcnt ▸ hfull), h.stored j hfull]
  · have hpart : bits.length % 8 ≠ 0 ∧ j = bits.length / 8 := by unfold ceil8 at hj; omega
    rw [flushedByte, if_neg (by omega), if_pos (by omega), h.acc, hpart.2]

/-- The block of a writer's bits in the flushed sink: the header, then the payload (R87, R127). -/
theorem WriterHolds.readBytes_flushedDst (h : WriterHolds s bits) (hd : s.dst.wf) :
    (flushedDst s).readBytes s.bwHdr.toNat (4 + ceil8 bits.length) = bitBlock bits := by
  have hpayload : (flushedDst s).readBytes (s.bwHdr.toNat + 4) (ceil8 bits.length) = payload bits :=
    List.map_congr_left fun j hj => (read_flushedDst hd _).trans (h.flushedByte_payload (List.mem_range.1 hj))
  rw [Memory.readBytes_add, readBytes_flushedDst_header hd, hpayload, h.count, bitBlock]

theorem WriterHolds.flushed (h : WriterHolds s bits) (hd : s.dst.wf) : WriterHolds (flushed s) bits where
  isOpen := h.isOpen
  count := h.count
  acc := h.acc
  stored j hj := (read_flushedDst hd _).trans ((flushedByte_complete (h.count ▸ hj)).trans (h.stored j hj))

theorem exec_bwFlush_keepsWriter (hs : s.Inv) (h : WriterHolds s bits) (hex : exec .bwFlush s = .next t) :
    KeepsWriter .bwFlush s t bits := by
  by_cases hf : FlushFits s
  · cases (exec_bwFlush_fits h.isOpen (hs.writer_room h.isOpen).1 hf).symm.trans hex
    have hfl := h.flushed hs.dst_wf
    refine ⟨.inl hfl, fun j hj => ?_, fun _ _ => ⟨h.readBytes_flushedDst hs.dst_wf, ?_⟩⟩
    · exact h.complete_of_append (t := flushed s) (more := []) (by rwa [List.append_nil]) rfl hj
    · rw [flushed_dstPos hs h.isOpen hf, h.count]
  · exact .of_raise h ⟨_, exec_bwFlush_full h.isOpen hf⟩ hex

/-- The commands that would use the sink or open a writer refuse an open one (R59, R121, R201, R205, R221). -/
theorem exec_refuses_open {i : Instr} (hb : s.bwOpen = true)
    (hi : i ∈ [Instr.bwOpen, .htSave, .htEncode, .htDecode, .facadeEncode, .facadeDecode]) :
    ∃ e, exec i s = .next (raiseExc e s) := by
  simp only [List.mem_cons, List.not_mem_nil, or_false] at hi
  rcases hi with rfl | rfl | rfl | rfl | rfl | rfl
  · exact ⟨_, congrArg Eff.finish (writerOpen_busy hb)⟩
  · exact ⟨_, congrArg Eff.finish (saveTree_busy hb)⟩
  · exact ⟨_, congrArg Eff.finish (if_pos hb)⟩
  · exact ⟨_, congrArg Eff.finish (if_pos hb)⟩
  · exact ⟨_, congrArg Eff.finish (facadeEncode_busy hb)⟩
  · exact ⟨_, congrArg Eff.finish (facadeDecode_busy hb)⟩

/-- Every command keeps an open writer's bits, adds one, or closes it (R127). -/
theorem exec_keepsWriter {i : Instr} (hs : s.Inv) (hi : i.wellFormed = true) (h : WriterHolds s bits)
    (hex : exec i s = .next t) : KeepsWriter i s t bits := by
  cases i with
  | bwWrite arg =>
    obtain ⟨b, rfl⟩ := exists_eq_bitByte hi
    exact exec_bwWrite_keepsWriter h hs.dst_wf b hex
  | bwFlush => exact exec_bwFlush_keepsWriter hs h hex
  | bwDestroy =>
    obtain ⟨u, hflush, hdestroy⟩ := exec_bwDestroy_of_open h.isOpen
    cases hdestroy.symm.trans hex
    have hu := exec_bwFlush_keepsWriter hs h hflush
    exact ⟨.inr (.inr ⟨rfl, .inl rfl⟩), hu.complete, fun _ => hu.block (.inl rfl)⟩
  | sreset =>
    cases hex
    exact ⟨.inr (.inr ⟨rfl, .inr rfl⟩), fun _ _ => rfl, fun hf => by simp at hf⟩
  | bwOpen | htSave | htEncode | htDecode | facadeEncode | facadeDecode =>
    exact .of_raise h (exec_refuses_open h.isOpen (by simp)) hex
  | nop | bwSize | brOpen | brRead | brEos | brSize | fcClear | fcSet _ | fcCount | fcPad | fcGet _ | fcNsym | htBuild
  | htLoad | htAdsize | htSnap | htEq | errClear =>
    exact .of_within h (exec_within hex) (by simp [writes]) (by simp)

end

/-! ## Values -/

theorem encode_fcGet (v : Byte) : encode (.fcGet v) = 0x00000014#32 ||| (v.setWidth 32 <<< 8) := by
  apply BitVec.eq_of_getLsbD_eq
  intro k hk
  rw [getLsbD_encode, show 0x00000014#32 = (0x14#8).setWidth 32 from rfl, BitVec.getLsbD_or, BitVec.getLsbD_shiftLeft,
    BitVec.getLsbD_setWidth, BitVec.getLsbD_setWidth]
  by_cases h8 : k < 8
  · simp [opcode, h8, hk]
  · have hop : (0x14#8).getLsbD k = false := BitVec.getLsbD_of_ge _ _ (by omega)
    by_cases h16 : k < 16
    · simp [argOf, h8, h16, hk, hop, show k - 8 < 32 by omega]
    · simp [h8, h16, hk, hop, show 8 ≤ k - 8 by omega]

theorem boolWord_brEos (s : State) : boolWord s.brEos = if s.brCnt = s.brSize then 1 else 0 := by
  simp [boolWord, State.brEos]

/-! ## The statements -/

/-- Settles O20: the three cases of BW.OPEN. -/
theorem bwOpenStartsAWriter : Obligations.BwOpenStartsAWriter :=
  ⟨rfl, fun s hd =>
    ⟨fun hb => congrArg Eff.finish (writerOpen_busy hb), fun hb hr => congrArg Eff.finish (writerOpen_full hb hr),
      fun hb hr => ⟨_, congrArg Eff.finish (writerOpen_ok hb hr), read_zeroHeader hd s.dstPos.toNat⟩⟩⟩

/-- Settles O21: the five cases of BW.WRITE. -/
theorem bwWriteAppendsABit : Obligations.BwWriteAppendsABit := by
  refine ⟨rfl, rfl, fun b s hd => ?_⟩
  have hex : ∀ {r : Eff Unit}, writerBit b s = r → exec (.bwWrite (bitByte b)) s = r.finish :=
    fun h => (exec_bwWrite_bitByte b s).trans (congrArg Eff.finish h)
  refine ⟨fun hb => ?_, fun hb hc => ?_, fun hb hc hk ha => ?_, fun hb hc hk ha => ?_, fun hb hc hk => ?_⟩
  · exact hex (writerBit_closed b hb)
  · exact hex (writerBit_overflow b hb (bwCnt_eq_last hc))
  · exact hex (writerBit_full b hb (bwCnt_ne_last hc) hk ha)
  · refine ⟨_, hex (writerBit_byte b hb (bwCnt_ne_last hc) hk ha), fun x => ?_⟩
    rw [Memory.read_write _ hd, hk]
    rfl
  · exact hex (writerBit_partial b hb (bwCnt_ne_last hc) hk)

/-- Settles O22: the three cases of BW.FLUSH. -/
theorem bwFlushCompletesTheSinkImage : Obligations.BwFlushCompletesTheSinkImage :=
  ⟨rfl, fun _ hd =>
    ⟨fun hb => congrArg Eff.finish (writerFlush_closed hb),
      fun hb hk ha => congrArg Eff.finish (writerFlush_full hb hk ha),
      fun hb hh ha => ⟨_, congrArg Eff.finish (writerFlush_ok hb hh ha), read_flushedDst hd⟩⟩⟩

/-- Settles O23: the second flush meets the case of the first again, and finds nothing left to change. -/
theorem bwFlushIsIdempotent : Obligations.BwFlushIsIdempotent := by
  intro s t hs hex
  cases hb : s.bwOpen with
  | false =>
    have hclosed : exec .bwFlush s = .next s := congrArg Eff.finish (writerFlush_closed hb)
    cases hclosed.symm.trans hex
    exact ⟨hclosed, nofun⟩
  | true =>
    by_cases hf : FlushFits s
    · have hh := (hs.writer_room hb).1
      cases (exec_bwFlush_fits hb hh hf).symm.trans hex
      refine ⟨?_, fun _ _ _ => memRead_flushedDst hs.dst_wf⟩
      rw [exec_bwFlush_fits (s := flushed s) hb hh hf, flushed_flushed hs.dst_wf]
    · cases (exec_bwFlush_full hb hf).symm.trans hex
      refine ⟨?_, fun _ _ he => absurd he (raiseExc_errKind_ne _ s)⟩
      rw [exec_bwFlush_full ((raiseExc_bwOpen s _).trans hb) (mt (flushFits_raiseExc _ s).1 hf), raiseExc_raiseExc]

/-- Settles O24: BW.DESTROY does what BW.FLUSH does and closes the writer. -/
theorem bwDestroyFlushesAndCloses : Obligations.BwDestroyFlushesAndCloses :=
  ⟨rfl, fun _ hd =>
    ⟨fun hb => congrArg Eff.finish (writerDestroy_closed hb), exec_bwDestroy_of_open,
      fun hb hk ha => congrArg Eff.finish (writerDestroy_full hb hk ha),
      fun hb hh ha => ⟨_, congrArg Eff.finish (writerDestroy_ok hb hh ha), read_flushedDst hd⟩⟩⟩

/-- Settles O25: BW.OPEN starts the empty sequence, and every command keeps the bits of an open writer. -/
theorem openWriterHoldsItsBits : Obligations.OpenWriterHoldsItsBits := by
  intro s t hs _
  refine ⟨writerHolds_of_exec_bwOpen, fun i bits hi h hex => ?_⟩
  obtain ⟨hholds, hcomplete, hblock⟩ := exec_keepsWriter hs hi h hex
  exact ⟨hholds, hcomplete, hblock⟩

/-- Settles O30: the words bit by bit, the values as the commands' rules write them. -/
theorem valueCommandsWriteResultOnly : Obligations.ValueCommandsWriteResultOnly := by
  refine ⟨rfl, rfl, rfl, encode_fcGet, rfl, fun s => ⟨rfl, ?_, rfl, fun _ => rfl, ?_⟩⟩
  · rw [← boolWord_brEos]
    rfl
  · rw [show 2 + 8 * s.node.length + 4 = 8 * s.nn + 6 by unfold State.nn; omega]
    rfl

end Sys2Proof.Machine
end

section
/-! SUPPORT. The bit reader command by command (spec/41_bitreader.md R141, R142), and BR.OPEN with the reads after it as a
run of command words, which returns the payload bits in order (R145). -/

namespace Sys2Proof.Machine

/-! ## A bit in RESULT, and the exception record -/

/-- The bit a read leaves in RESULT, as R88 takes it out of its byte. -/
theorem boolWord_getLsbD (b : Byte) (k : Nat) : boolWord (b.getLsbD k) = ((b >>> k) &&& 1#8).setWidth 32 := by
  apply BitVec.eq_of_getLsbD_eq
  intro i hi
  rw [getLsbD_boolWord, BitVec.getLsbD_setWidth, BitVec.getLsbD_and, BitVec.getLsbD_ushiftRight, BitVec.getLsbD_one]
  by_cases h : i = 0 <;> simp [h, hi]

theorem raiseExc_records {s : State} (e : Exc) (h : s.errKind = 0) : (raiseExc e s).records e := by
  rw [raiseExc_of_none e h]
  exact ⟨rfl, rfl⟩

/-! ## The bytes that bits need (R7) -/

theorem ceil8_mono {m n : Nat} (h : m ≤ n) : ceil8 m ≤ ceil8 n := Nat.div_le_div_right (Nat.add_le_add_right h 7)

theorem ceil8_mul (m : Nat) : ceil8 (8 * m) = m := by unfold ceil8; omega

theorem ceil8_mul_succ (m : Nat) : ceil8 (8 * m + 1) = m + 1 := by unfold ceil8; omega

theorem mul_lt_of_lt_ceil8 {m n : Nat} (h : m < ceil8 n) : 8 * m < n := by unfold ceil8 at h; omega

/-! ## The reader over a block -/

/-- No exception is recorded, and the header of a sequence of K bits stands at SRC_POS (R87, R141). -/
structure HeaderAt (s : State) (K : Nat) : Prop where
  end_le : s.srcEnd.toNat ≤ s.cfg.srcSize.toNat
  no_error : s.errKind = 0
  room : s.srcPos.toNat + 4 ≤ s.srcEnd.toNat
  count : memRead s.src s.srcPos.toNat 4 = K

theorem readerAt_srcPos {s : State} {K n : Nat} (h : s.srcPos.toNat + 4 + ceil8 n ≤ s.srcEnd.toNat) :
    (readerAt s K n).srcPos.toNat = s.srcPos.toNat + 4 + ceil8 n :=
  (BitVec.toNat_ofNat _ _).trans (Nat.mod_eq_of_lt (Nat.lt_of_le_of_lt h s.srcEnd.isLt))

section
variable {s : State} {K n : Nat}

theorem HeaderAt.lt (h : HeaderAt s K) : K < 2 ^ 32 := h.count ▸ memRead_lt s.src s.srcPos.toNat 4

theorem HeaderAt.exec_brOpen (h : HeaderAt s K) : exec .brOpen s = .next (readerAt s K 0) := by
  have hroom := h.room
  have hopen := readerOpen_eq_readerAt (u := s) (by rw [srcAvail_eq]; omega) h.end_le
  rw [h.count] at hopen
  exact congrArg Eff.finish hopen

/-- A read before the end, its byte there, moves the reader on by one bit (R142). -/
theorem HeaderAt.exec_brRead_bit (h : HeaderAt s K) (hn : n < K)
    (ha : s.srcPos.toNat + 4 + ceil8 (n + 1) ≤ s.srcEnd.toNat) :
    exec .brRead (readerAt s K n) = .next (readerAt s K (n + 1)) :=
  congrArg Eff.finish (readerBit_readerAt h.lt hn ha h.end_le)

/-- A read after K bits raises END_OF_SEQUENCE (R142). -/
theorem exec_brRead_end (s : State) (K : Nat) : exec .brRead (readerAt s K K) =
    .next (raiseExc ⟨.endOfSequence, .bitsExhausted⟩ (readerAt s K K)) :=
  congrArg Eff.finish (readerBit_end rfl rfl)

/-- A read after 8m bits, m bytes there, raises PAYLOAD_SHORT (R142). -/
theorem HeaderAt.exec_brRead_short {m : Nat} (h : HeaderAt s K) (hm : m < ceil8 K)
    (he : s.srcEnd.toNat = s.srcPos.toNat + 4 + m) : exec .brRead (readerAt s K (8 * m)) =
    .next (raiseExc (formatErr .payloadShort) { readerAt s K (8 * m) with srcEof := true }) := by
  have hbits := mul_lt_of_lt_ceil8 hm
  have hread : s.srcPos.toNat + 4 + ceil8 (8 * m) ≤ s.srcEnd.toNat := by rw [ceil8_mul]; exact he.ge
  rcases readerBit_cases h.lt hbits.le hread h.end_le with ⟨-, hroom, -⟩ | ⟨hend, -⟩ | ⟨-, -, hbit⟩
  · rw [ceil8_mul_succ] at hroom
    omega
  · omega
  · exact congrArg Eff.finish hbit

/-- The words of BR.OPEN and n times BR.READ (R83). -/
def readerWords (n : Nat) : List Word := 0x00000008#32 :: List.replicate n 0x00000009#32

theorem readerWords_succ (n : Nat) : readerWords (n + 1) = readerWords n ++ [0x00000009#32] :=
  congrArg _ List.replicate_succ'

/-- The words of BR.OPEN and n reads, all there, leave the reader after n bits, and go on from it (R141, R142). -/
theorem HeaderAt.runWords_reads (h : HeaderAt s K) (hn : n ≤ K)
    (ha : s.srcPos.toNat + 4 + ceil8 n ≤ s.srcEnd.toNat) (ws : List Word) :
    runWords (readerWords n ++ ws) s = runWords ws (readerAt s K n) := by
  induction n generalizing ws with
  | zero => exact runWords_command (i := .brOpen) rfl h.no_error h.exec_brOpen
  | succ n ih =>
    have hceil : ceil8 n ≤ ceil8 (n + 1) := ceil8_mono n.le_succ
    rw [readerWords_succ, List.append_assoc, ih (by omega) (by omega)]
    exact runWords_command (i := .brRead) rfl h.no_error (h.exec_brRead_bit hn ha)

/-- Where n bits can be read, one read more does what BR.READ does to the reader after them. -/
theorem HeaderAt.runWords_read (h : HeaderAt s K) (hn : n ≤ K)
    (ha : s.srcPos.toNat + 4 + ceil8 n ≤ s.srcEnd.toNat) {t : State} (hex : exec .brRead (readerAt s K n) = .next t) :
    runWords (readerWords (n + 1)) s = .next t := by
  rw [readerWords_succ, h.runWords_reads hn ha]
  exact runWords_command (i := .brRead) rfl h.no_error hex

/-- Read n leaves the reader after n + 1 bits (R145). -/
theorem HeaderAt.runWords_bit (h : HeaderAt s K) (hn : n < K)
    (ha : s.srcPos.toNat + 4 + ceil8 (n + 1) ≤ s.srcEnd.toNat) :
    runWords (readerWords (n + 1)) s = .next (readerAt s K (n + 1)) := by
  have hceil : ceil8 n ≤ ceil8 (n + 1) := ceil8_mono n.le_succ
  exact h.runWords_read hn.le (by omega) (h.exec_brRead_bit hn ha)

/-- The bits of a payload in SRC are the stream's bits (R87, R145). -/
theorem streamBit_of_payload {bits : List Bool} (hn : n < bits.length)
    (hp : s.src.readBytes (s.srcPos.toNat + 4) (ceil8 bits.length) = payload bits) :
    bits[n]?.getD false = streamBit s n := by
  have hstream : bits = (List.range bits.length).map (streamBit s) := by
    rw [← bitsOf_stream, hp, bitsOf_payload]
  rw [hstream]
  simp [hn]

end

/-! ## The statements -/

/-- Settles O27: the two cases of BR.OPEN. -/
theorem brOpenStartsAReader : Obligations.BrOpenStartsAReader := by
  refine ⟨rfl, fun s hs => ⟨fun hshort => ?_, fun hroom => ?_⟩⟩
  · exact congrArg Eff.finish (readerOpen_short (by rw [srcAvail_eq]; omega))
  · have hpos : BitVec.ofNat 32 (s.srcPos.toNat + 4) = s.srcPos + 4 := by simp [BitVec.ofNat_add]
    rw [← hpos]
    exact congrArg Eff.finish (readerOpen_ok (by rw [srcAvail_eq]; omega) hs)

/-- Settles O28: the five cases of BR.READ. -/
theorem brReadReturnsTheNextBit : Obligations.BrReadReturnsTheNextBit := by
  refine ⟨rfl, fun s hs => ⟨fun hb => ?_, fun hb he => ?_, fun hb he hk ha => ?_, fun hb he hk ha => ?_,
    fun hb he hk => ?_⟩⟩
  · exact congrArg Eff.finish (readerBit_closed hb)
  · exact congrArg Eff.finish (readerBit_end hb he)
  · exact congrArg Eff.finish (readerBit_short hb he hk (by rw [srcAvail_eq]; omega))
  · have hbit := boolWord_getLsbD (s.src.read s.srcPos.toNat) 0
    rw [BitVec.ushiftRight_zero] at hbit
    rw [← hbit]
    exact congrArg Eff.finish (readerBit_fetch hb he hk (by rw [srcAvail_eq]; omega) hs)
  · rw [← boolWord_getLsbD]
    exact congrArg Eff.finish (readerBit_hold hb he hk)

/-- Settles O29: the reads leave the reader in its closed form, bit by bit, and the read after them meets the end of the
sequence or of the source. -/
theorem readerReturnsThePayloadBits : Obligations.ReaderReturnsThePayloadBits := by
  intro s K hs he hroom hK run
  have h : HeaderAt s K := ⟨hs, he, hroom, hK⟩
  refine ⟨fun n hn ha => ?_, fun ha => ?_, fun m hm hend => ?_, fun bits hlen hp ha n hn => ?_⟩
  · exact ⟨_, h.runWords_bit hn ha, rfl, rfl⟩
  · refine ⟨_, h.runWords_read le_rfl ha (exec_brRead_end s K), raiseExc_records _ he, ?_, ?_⟩
    · rw [raiseExc_brCnt, (readerAt_cnt h.lt le_rfl).1]
    · rw [raiseExc_srcPos, readerAt_srcPos ha]
  · have hbits := (mul_lt_of_lt_ceil8 hm).le
    have hread : s.srcPos.toNat + 4 + ceil8 (8 * m) ≤ s.srcEnd.toNat := by rw [ceil8_mul]; exact hend.ge
    refine ⟨_, h.runWords_read hbits hread (h.exec_brRead_short hm hend), raiseExc_records _ he, ?_, ?_⟩
    · rw [raiseExc_brCnt]
      exact (readerAt_cnt (u := s) h.lt hbits).1
    · rw [raiseExc_srcPos]
      exact BitVec.eq_of_toNat_eq ((readerAt_srcPos (K := K) hread).trans (by rw [ceil8_mul, hend]))
  · have hceil : ceil8 (n + 1) ≤ ceil8 K := ceil8_mono hn
    subst hlen
    exact ⟨_, h.runWords_bit hn (by omega), by rw [streamBit_of_payload hn hp]; rfl⟩

end Sys2Proof.Machine
end

section
/-! SUPPORT. The frequency counter command by command (spec/42_freq_counter.md R161 to R164, R166): the word of a command
with an operand, the number of present symbols, and the weights that padding leaves in any mapping. -/

namespace Sys2Proof.Machine

open Sys2Proof.Laws

/-! ## The word of a command -/

/-- A command word is its opcode with its operand above (R81). -/
theorem encode_eq_or (i : Instr) : encode i = (opcode i).setWidth 32 ||| ((argOf i).setWidth 32 <<< 8) := by
  apply BitVec.eq_of_getLsbD_eq
  intro k hk
  rw [getLsbD_encode, BitVec.getLsbD_or, BitVec.getLsbD_shiftLeft, BitVec.getLsbD_setWidth, BitVec.getLsbD_setWidth]
  by_cases h8 : k < 8
  · simp [h8, hk]
  · have hop : (opcode i).getLsbD k = false := BitVec.getLsbD_of_ge _ _ (by omega)
    by_cases h16 : k < 16
    · simp [h8, h16, hk, hop, show k - 8 < 32 by omega]
    · have harg : (argOf i).getLsbD (k - 8) = false := BitVec.getLsbD_of_ge _ _ (by omega)
      simp [h8, h16, hop, harg]

/-! ## The present symbols -/

/-- The present symbols are as many as the values with PRESENT = 1 (R166). -/
theorem symbols_length_eq_countP (s : State) :
    s.symbols.length = (List.range 256).countP fun n => s.hasSym (BitVec.ofNat 8 n) := by
  rw [State.symbols, ← List.countP_eq_length_filter, allSyms, List.countP_map]
  rfl

/-! ## The padding -/

/-- With two or more symbols padding changes nothing (R164). -/
theorem padMapping_of_two_le {s : State} (h : 2 ≤ s.symbols.length) : padMapping s = s := if_neg (by omega)

/-- A synthetic symbol gets weight 0 where it is absent, whatever its entry held. -/
theorem freqOf_padSym_eq_ite (v x : Byte) (s : State) :
    (padSym v s).freqOf x = if s.hasSym x = false ∧ x = v then 0 else s.freqOf x := by
  unfold padSym
  split
  · next hv =>
    rw [if_neg]
    rintro ⟨hx, rfl⟩
    exact absurd hv (by simp [hx])
  · next hv =>
    rw [freqOf_setSym]
    by_cases hx : x = v
    · subst hx
      simp [hv]
    · simp [hx]

/-- With fewer than two symbols, 0x00 and 0x01 get weight 0 where they are absent (R164). -/
theorem freqOf_padMapping_of_lt_two {s : State} (h : s.symbols.length < 2) (x : Byte) :
    (padMapping s).freqOf x = if s.hasSym x = false ∧ (x = synth0 ∨ x = synth1) then 0 else s.freqOf x := by
  rw [padMapping, if_pos h, freqOf_padSym_eq_ite, freqOf_padSym_eq_ite, hasSym_padSym]
  by_cases h0 : x = synth0
  · subst h0
    simp
  · simp [h0]

/-! ## The statements -/

/-- Settles O31: the entries by what setting and clearing do to each, the present symbols by their count. -/
theorem fcClearSetAndNsym : Obligations.FcClearSetAndNsym := by
  refine ⟨rfl, fun v => encode_eq_or (.fcSet v), rfl, fun s => ?_, fun v s => ?_, fun s => ?_⟩
  · exact ⟨_, rfl, rfl, fun x => ⟨freqOf_clearSyms s x, hasSym_clearSyms s x⟩⟩
  · exact ⟨_, rfl, rfl, fun x => ⟨freqOf_setSym s v x s.warg, hasSym_setSym s v x s.warg⟩⟩
  · rw [← symbols_length_eq_countP]
    rfl

/-- Settles O32: FC.COUNT leaves the tally of the input over an empty mapping. -/
theorem fcCountCountsTheSource : Obligations.FcCountCountsTheSource :=
  ⟨rfl, fun s hs => ⟨_, congrArg Eff.finish (countSource_ok hs), tally_eq s.input s.clearSyms,
    fun x => ⟨freqOf_counted s x, hasSym_counted s x⟩⟩⟩

/-- Settles O33: the mapping after the padding entry by entry, and its two symbols. -/
theorem fcPadEnsuresTwoSymbols : Obligations.FcPadEnsuresTwoSymbols := by
  refine ⟨rfl, fun s => ⟨_, rfl, padMapping_eq s, padMapping_of_two_le, fun h x => ⟨?_, freqOf_padMapping_of_lt_two h x⟩,
    two_le_symbols_padMapping s⟩⟩
  rw [hasSym_padMapping, decide_eq_true h, Bool.true_and, Bool.or_assoc]

end Sys2Proof.Machine
end

section
/-! SUPPORT. HT.BUILD, HT.SNAP and HT.EQ command by command (spec/43_tree_build.md R181 to R188): the way up from any node
of a built tree, and that its code words cost no more than those of any prefix code. -/

namespace Sys2Proof.Machine

section
variable {syms : List Byte} {f : Byte → Nat} {ws : List Nat} {nodes : List Node}

/-! ## The way up -/

/-- From every node the root is at most N - 1 steps up: the first step leads to a merged node, of which there are N - 1
(R185). -/
theorem Built.sidesUp_isSome (h : Built syms f ws nodes) {i : Nat} (hi : i < nodes.length) :
    (sidesUp nodes (syms.length - 1) (nodeAt nodes i)).isSome = true := by
  have hlen := h.len
  by_cases hp : (nodeAt nodes i).par = sentinel
  · cases syms.length - 1 <;> simp [sidesUp, hp]
  · obtain ⟨-, hlt, hmerged, -⟩ := h.up i hi hp
    obtain ⟨room, hroom⟩ : ∃ room, syms.length - 1 = room + 1 := ⟨syms.length - 2, by omega⟩
    obtain ⟨sides, hsides⟩ := h.sidesUp_inner (room := room) hlt (by omega)
    rw [hroom, sidesUp, if_neg hp, getElem?_eq_nodeAt hlt]
    simp [hsides]

/-! ## The cost of the code words -/

/-- len(v): the number of bits in the code word of a symbol, 0 where it has none (R186). -/
def codeLength (nodes : List Node) (v : Byte) : Nat := ((codeWord nodes v).getD []).length

theorem codeLength_of_codeWord {v : Byte} {w : List Bool} (h : codeWord nodes v = some w) :
    codeLength nodes v = w.length := by rw [codeLength, h, Option.getD_some]

theorem Built.map_length_codeWord (h : Built syms f ws nodes) (h256 : syms.length ≤ 256) {v : Byte} (hv : v ∈ syms) :
    (Machine.codeWord nodes v).map List.length = some (codeLength nodes v) := by
  obtain ⟨w, hw, -⟩ := h.codeWord h256 hv
  rw [codeLength_of_codeWord hw, hw, Option.map_some]

/-- The merged weights, which HT.BUILD's tree appends to those of the leaves, are the cost of its code words. -/
theorem Built.cost_codeLength {more : List Nat} (h : Built syms f (syms.map f ++ more) nodes) (h256 : syms.length ≤ 256)
    (hnd : syms.Nodup) : (syms.map fun v => f v * codeLength nodes v).sum = more.sum :=
  h.cost h256 hnd fun _ hv =>
    let ⟨w, hw, _⟩ := h.codeWord h256 hv
    ⟨w, hw, codeLength_of_codeWord hw⟩

/-- With fewer than two weights there is nothing to merge. -/
theorem mergeCost_of_length_lt_two (passes : Nat) {q : List Nat} (h : q.length < 2) : mergeCost passes q = 0 := by
  match passes, q with
  | 0, _ | _ + 1, [] | _ + 1, [_] => rfl
  | _ + 1, _ :: _ :: _ => simp at h

/-- The merge of the weights in rising order costs no more than a prefix code of their symbols (R186). -/
theorem mergeCost_le_prefixCode {q : List Nat} {code : Byte → List Bool} (hq : q.Pairwise (· ≤ ·))
    (hperm : q.Perm (syms.map f)) (hnd : syms.Nodup)
    (hcode : ∀ x ∈ syms, ∀ y ∈ syms, x ≠ y → ¬ code x <+: code y) :
    mergeCost q.length q ≤ (syms.map fun v => f v * (code v).length).sum := by
  have hlen : q.length = syms.length := by simpa using hperm.length_eq
  by_cases h2 : 2 ≤ syms.length
  · obtain ⟨L, hkraft⟩ := kraft_of_prefixFree f hnd h2 hcode
    have hweights : ((syms.map fun v => (f v, (code v).length)).map Prod.fst).Perm q := by
      rw [List.map_map]
      exact hperm.symm
    calc mergeCost q.length q
        ≤ pairCost (syms.map fun v => (f v, (code v).length)) :=
          mergeCost_le q.length q hq q.length.le_succ L _ hweights hkraft
      _ = (syms.map fun v => f v * (code v).length).sum := by
          rw [pairCost, List.map_map]
          rfl
  · rw [mergeCost_of_length_lt_two _ (by omega)]
    exact Nat.zero_le _

end

/-! ## The comparison -/

/-- HT.EQ's comparison as a word is 1 for equal arrays and else 0 (R188). -/
theorem boolWord_treesEqual (a b : List Node) : boolWord (treesEqual a b) = if a = b then 1 else 0 := by
  simp only [boolWord, treesEqual_iff]

/-! ## The statements -/

/-- Settles O34: HT.BUILD leaves a built tree, and from its nodes the way up is short. -/
theorem htBuildMergesTheLeastTwo : Obligations.HtBuildMergesTheLeastTwo := by
  refine ⟨rfl, fun s => ?_⟩
  obtain ⟨hbuild, ws, hb⟩ := buildTree_built s
  exact ⟨_, ws, congrArg Host.Outcome.next hbuild, hb, fun _ hi => hb.sidesUp_isSome hi⟩

/-- Settles O35: the code words cost what the merge of the weights adds up to, and no prefix code costs less. -/
theorem htBuildIsOptimal : Obligations.HtBuildIsOptimal := by
  intro s
  obtain ⟨nodes, more, q, hbuild, hb, hq, hperm, hmerge⟩ := buildTree_weights s
  have h256 := symbols_length_le s
  have hnd := symbols_nodup s
  refine ⟨nodes, codeLength nodes, congrArg Host.Outcome.next hbuild, fun v hv => hb.map_length_codeWord h256 hv,
    fun code hcode => ?_⟩
  calc (s.symbols.map fun v => s.weightOf v * codeLength nodes v).sum
      = more.sum := hb.cost_codeLength h256 hnd
    _ = mergeCost q.length q := hmerge
    _ ≤ (s.symbols.map fun v => s.weightOf v * (code v).length).sum := mergeCost_le_prefixCode hq hperm hnd hcode

/-- Settles O37: the copy by definition, the comparison by equality of the arrays. -/
theorem htSnapAndHtEq : Obligations.HtSnapAndHtEq := by
  refine ⟨rfl, rfl, fun _ => rfl, fun s => ?_⟩
  rw [← boolWord_treesEqual]
  rfl

end Sys2Proof.Machine
end

section
/-! SUPPORT. HT.ENCODE as a command (spec/44_tree_transcode.md R201 to R204): the writer it opened is gone however it ends,
and the registers and the sink as it leaves them where it ends normally and where it stops. -/

namespace Sys2Proof.Machine

/-! ## What holds however an operation ends -/

/-- The operation, if it ends at all, ends in a state with P, whether or not it raises. -/
def Eff.Leaves {α : Type} (P : State → Prop) : Eff α → Prop
  | .done _ t => P t
  | .raised _ t => P t
  | .stop _ => True

theorem Eff.Leaves.andThen {α β : Type} {P : State → Prop} {r : Eff α} {f : α → State → Eff β} (hr : r.Leaves P)
    (hf : ∀ a t, P t → (f a t).Leaves P) : (r.andThen f).Leaves P := by
  cases r with
  | done a t => exact hf a t hr
  | raised e t => exact hr
  | stop x => trivial

theorem Eff.Leaves.finish {α : Type} {P : State → Prop} {r : Eff α} {t : State} (hr : r.Leaves P)
    (hP : ∀ e u, P u → P (raiseExc e u)) (ht : r.finish = .next t) : P t := by
  rcases Eff.finish_next ht with ⟨a, rfl⟩ | ⟨e, u, rfl, rfl⟩
  · exact hr
  · exact hP e u hr

/-- A command that records nothing has not raised (R280). -/
theorem Eff.done_of_finish {r : Eff Unit} {t : State} (hex : r.finish = .next t) (ht : t.errKind = 0) :
    r = .done () t := by
  rcases Eff.finish_next hex with ⟨_, hdone⟩ | ⟨e, u, -, rfl⟩
  · exact hdone
  · exact absurd ht (raiseExc_errKind_ne e u)

/-! ## The writer is released -/

/-- No bit writer is bound to the sink (R12). -/
def NoWriter (s : State) : Prop := s.bwOpen = false

theorem NoWriter.raiseExc (e : Exc) {s : State} (h : NoWriter s) : NoWriter (raiseExc e s) := (raiseExc_bwOpen s e).trans h

theorem Within.noWriter {regs : List Reg} {s t : State} (hw : Within regs s t) (hb : NoWriter s)
    (hregs : .bwOpen ∉ regs) : NoWriter t := (hw.same .bwOpen hregs).trans hb

/-- An operation that does not write BW_OPEN leaves no writer where there was none. -/
theorem Eff.Moves.leaves_noWriter {α : Type} {regs : List Reg} {s : State} {r : Eff α} (hr : r.Moves regs s)
    (hb : NoWriter s) (hregs : .bwOpen ∉ regs) : r.Leaves NoWriter := by
  cases r with
  | done a t => exact Within.noWriter hr hb hregs
  | raised e t => exact Within.noWriter hr hb hregs
  | stop x => trivial

/-- BW.DESTROY closes the writer, whether or not its flush raises (R125). -/
theorem writerDestroy_leaves (s : State) : (writerDestroy s).Leaves NoWriter := by
  unfold writerDestroy
  split
  · next hb => exact (by simpa using hb : s.bwOpen = false)
  · cases writerFlush s with
    | done _ t => rfl
    | raised e t => rfl
    | stop f => trivial

theorem writerDestroy_ne_stop (s : State) (f : Fault) : writerDestroy s ≠ .stop f := by
  unfold writerDestroy
  split
  · exact nofun
  · cases hf : writerFlush s with
    | done _ t => exact nofun
    | raised e t => exact nofun
    | stop f' => exact absurd hf (writerFlush_ne_stop s f')

/-- The release after a body that raised: the body's exception stays and the writer is gone (R204, R281). -/
theorem releaseWriter_of_raised (e : Exc) (s : State) :
    ∃ t, releaseWriter (.raised e s) = .raised e t ∧ NoWriter t := by
  have hl := writerDestroy_leaves s
  rw [releaseWriter]
  cases hd : writerDestroy s with
  | done _ t => rw [hd] at hl; exact ⟨t, rfl, hl⟩
  | raised e' t => rw [hd] at hl; exact ⟨t, rfl, hl⟩
  | stop f => exact absurd hd (writerDestroy_ne_stop s f)

theorem releaseWriter_leaves (body : Eff Unit) : (releaseWriter body).Leaves NoWriter := by
  cases body with
  | done _ s => exact writerDestroy_leaves s
  | raised e s =>
    obtain ⟨t, ht, hb⟩ := releaseWriter_of_raised e s
    rw [ht]
    exact hb
  | stop f => trivial

theorem encodeSource_busy {s : State} (hb : s.bwOpen = true) : encodeSource s = .raised (illegalOp .bwState) s :=
  if_pos hb

theorem encodeSource_noRoom {s : State} (hb : s.bwOpen = false) (hr : s.cfg.dstSize.toNat < s.dstPos.toNat + 4) :
    encodeSource s = .raised (capacity .sinkRange) s := by
  rw [encodeSource, if_neg (by simp [hb]), writerOpen_full hb hr]
  rfl

/-- HT.ENCODE opens no writer, or opens one and releases it (R201, R204). -/
theorem encodeSource_leaves {s : State} (hb : NoWriter s) : (encodeSource s).Leaves NoWriter := by
  by_cases hr : s.cfg.dstSize.toNat < s.dstPos.toNat + 4
  · rw [encodeSource_noRoom hb hr]
    exact hb
  · have hsrc : encodeSource s = releaseWriter (encodeSymbols (srcAvail s + 1) (writerAt s [])) := by
      rw [encodeSource, if_neg (by simp [show s.bwOpen = false from hb]), writerOpen_eq_writerAt hb (by omega)]
      rfl
    rw [hsrc]
    exact releaseWriter_leaves _

/-- Of the steps of ENCODE only HT.ENCODE writes BW_OPEN (R241). -/
theorem facadeEncode_leaves {s : State} (hb : NoWriter s) : (facadeEncode s).Leaves NoWriter := by
  rw [facadeEncode_steps hb]
  refine ((countSource_moves s).leaves_noWriter hb (by decide)).andThen fun _ a ha => ?_
  refine Eff.Leaves.andThen ((padMapping_within a).noWriter ha (by decide)) fun _ b hb => ?_
  refine Eff.Leaves.andThen ((buildTree_within b).noWriter hb (by decide)) fun _ c hc => ?_
  refine ((saveTree_moves c).leaves_noWriter hc (by decide)).andThen fun _ d hd => ?_
  exact (encodeSource_leaves hd).andThen fun _ t ht => ht

/-! ## The registers afterwards -/

section
variable {s : State} (hb : s.bwOpen = false) (hsp : s.sp = 0) (bits : List Bool) (stk : Vector Bool 256)
include hb hsp

/-- With no writer open before and SP at 0, HT.ENCODE leaves both as they were. -/
theorem encodedState_eq : encodedState s bits stk = { s with
    bwHdr := s.dstPos
    bwCnt := BitVec.ofNat 32 bits.length
    bwAcc := payloadByte bits (bits.length / 8)
    dst := s.dst.writeBytes s.dstPos.toNat (bitBlock bits)
    dstPos := BitVec.ofNat 32 (s.dstPos.toNat + 4 + ceil8 bits.length)
    stk := stk } := by
  rw [encodedState, ← hb, ← hsp]

theorem stoppedState_eq : stoppedState s bits stk = { s with
    bwHdr := s.dstPos
    bwCnt := BitVec.ofNat 32 bits.length
    bwAcc := payloadByte bits (bits.length / 8)
    dst := s.dst.writeBytes s.dstPos.toNat (leftBlock s bits)
    dstPos := BitVec.ofNat 32 (s.dstPos.toNat + (leftBlock s bits).length)
    stk := stk } := by
  rw [stoppedState, ← hb, ← hsp]

end

/-! ## The statements -/

/-- Settles O41: the refusals, and the state after the release byte by byte of the block. -/
theorem htEncodeWritesTheCodeWords : Obligations.HtEncodeWritesTheCodeWords := by
  refine ⟨rfl, fun s hs => ⟨fun hb => congrArg Eff.finish (encodeSource_busy hb),
    fun hb hr => congrArg Eff.finish (encodeSource_noRoom hb hr), fun bits hb hw hn hr => ?_⟩⟩
  obtain ⟨stk, henc⟩ := encodeSource_ok hb hs.srcEnd_le hs.sp_zero hs.dst_wf hw hn hr
  rw [encodedState_eq hb hs.sp_zero, srcPos_max] at henc
  refine ⟨_, stk, congrArg Eff.finish henc, fun a => ?_⟩
  rw [Memory.read_writeBytes_block _ hs.dst_wf, bitBlock_length, ← Nat.add_assoc]

/-- Settles O42: the release closes the writer on every path, and keeps the body's exception. -/
theorem htEncodeAlwaysReleasesItsWriter : Obligations.HtEncodeAlwaysReleasesItsWriter := by
  refine ⟨fun s t hb hex => ?_, releaseWriter_of_raised⟩
  rcases hex with hex | hex
  · exact (encodeSource_leaves hb).finish (fun e _ => NoWriter.raiseExc e) hex
  · exact (facadeEncode_leaves hb).finish (fun e _ => NoWriter.raiseExc e) hex

/-- Settles O43: the loop stops at the symbol, and the release leaves what it can of the bits before it. -/
theorem htEncodeStopsAtASymbolItCannotEncode : Obligations.HtEncodeStopsAtASymbolItCannotEncode := by
  intro s pre post v e bits hs hb hin hw hv hn hr
  obtain ⟨stk, henc⟩ := encodeSource_fails hb hs.srcEnd_le hs.sp_zero hs.dst_wf hin hw hv hn hr
  rw [stoppedState_eq hb hs.sp_zero] at henc
  exact ⟨_, stk, congrArg Eff.finish henc, fun a => Memory.read_writeBytes_block _ hs.dst_wf _ a _⟩

/-- Settles O57: the release raises at the partial byte, or the loop stops at the bit that cannot be written. -/
theorem htEncodeStopsWhereTheSinkOrTheCountEnds : Obligations.HtEncodeStopsWhereTheSinkOrTheCountEnds := by
  intro s hs hb
  refine ⟨fun bits hw hn hk ha => ?_, fun pre post v ws word k e hin hw hc hk he hr => ?_⟩
  · have hend : s.dstPos.toNat + (openBlock bits).length = s.cfg.dstSize.toNat := by
      rw [openBlock_length, ← Nat.add_assoc, ha]
    obtain ⟨stk, henc⟩ := encodeSource_full hb hs.srcEnd_le hs.sp_zero hw hn hk ha
    rw [stoppedState_eq hb hs.sp_zero, srcPos_max, leftBlock_full hk ha.ge, hend, BitVec.ofNat_toNat,
      BitVec.setWidth_eq] at henc
    refine ⟨_, stk, congrArg Eff.finish henc, fun a => ?_⟩
    rw [Memory.read_writeBytes_block _ hs.dst_wf, hend]
  · have hlen : (ws ++ word.take k).length = ws.length + k := by simp [hk.le]
    obtain ⟨stk, henc⟩ := encodeSource_cut hb hs.srcEnd_le hs.sp_zero hs.dst_wf hin hw hc hk he hr
    rw [stoppedState_eq hb hs.sp_zero, hlen] at henc
    exact ⟨_, stk, congrArg Eff.finish henc, fun a => Memory.read_writeBytes_block _ hs.dst_wf _ a _⟩

/-- Settles O44: a command that records nothing did not raise, and then its input was encodable and fitted. -/
theorem htEncodeSucceedsOnlyOnEncodableInput : Obligations.HtEncodeSucceedsOnlyOnEncodableInput := by
  intro s t hs _ hex ht
  exact encodeSource_done hs.srcEnd_le hs.sp_zero (Eff.done_of_finish hex ht)

end Sys2Proof.Machine
end

section
/-! SUPPORT. HT.DECODE as a command (spec/44_tree_transcode.md R205 to R207): the exceptions it records, the reader it closes
however it ends, and its registers and the sink in terms of the bits at hand. -/

namespace Sys2Proof.Machine

/-! ## The exceptions recorded -/

/-- A command over an operation that writes no exception record of its own records nothing, or an exception of the list. -/
theorem Eff.Keeps.records {α : Type} {P : State → Prop} {es : List Exc} {regs : List Reg} {s t : State} {r : Eff α}
    (hk : r.Keeps P es) (hm : r.Moves regs s) (hregs : .err ∉ regs) (hs : s.errKind = 0) (ht : r.finish = .next t) :
    t.errKind = 0 ∨ ∃ e ∈ es, t.records e := by
  rcases Eff.finish_next ht with ⟨a, rfl⟩ | ⟨e, u, rfl, rfl⟩
  · exact .inl ((Within.same hm .err hregs).1.trans hs)
  · exact .inr ⟨e, hk.1, raiseExc_records e ((Within.same hm .err hregs).1.trans hs)⟩

/-- The exceptions of DECODE with no writer open: those of HT.LOAD and of HT.DECODE (R243). -/
def fileExcs : List Exc := formatErr .treeCountShort :: formatErr .treeRecordsShort :: blockExcs

theorem kind_of_mem_fileExcs : ∀ e ∈ fileExcs, e.kind = .formatError ∨ e = capacity .sinkRange := by decide

theorem decodeSource_busy {s : State} (hb : s.bwOpen = true) : decodeSource s = .raised (illegalOp .sinkBound) s :=
  if_pos hb

section
variable {s t : State}

/-- What R206 says of the exception record of t after a command from s: nothing but a FORMAT_ERROR or a full sink, or, with
a writer open, its refusal. -/
def OnlyFormatErrors (s t : State) : Prop := t.errKind = 0 ∨ t.errKind = ErrKind.formatError.code
  ∨ t.records (capacity .sinkRange) ∨ (s.bwOpen = true ∧ t.records (illegalOp .sinkBound))

theorem onlyFormatErrors_of_busy {r : Eff Unit} (hb : s.bwOpen = true) (hs : s.errKind = 0)
    (hr : r = .raised (illegalOp .sinkBound) s) (hex : r.finish = .next t) : OnlyFormatErrors s t := by
  subst hr
  cases hex
  exact .inr (.inr (.inr ⟨hb, raiseExc_records _ hs⟩))

theorem onlyFormatErrors_of_keeps {r : Eff Unit} {regs : List Reg} {es : List Exc} (hk : r.Keeps State.Inv es)
    (hes : es ⊆ fileExcs) (hm : r.Moves regs s) (hregs : .err ∉ regs) (hs : s.errKind = 0)
    (hex : r.finish = .next t) : OnlyFormatErrors s t := by
  rcases hk.records hm hregs hs hex with h0 | ⟨e, he, hrec⟩
  · exact .inl h0
  · rcases kind_of_mem_fileExcs e (hes he) with hkind | rfl
    · exact .inr (.inl (hrec.1.trans (by rw [hkind])))
    · exact .inr (.inr (.inl hrec))

theorem exec_htDecode_records (h : s.Inv) (hs : s.errKind = 0) (hex : exec .htDecode s = .next t) :
    OnlyFormatErrors s t := by
  by_cases hb : s.bwOpen = true
  · exact onlyFormatErrors_of_busy hb hs (decodeSource_busy hb) hex
  · exact onlyFormatErrors_of_keeps (decodeSource_keeps_free h (Bool.eq_false_iff.2 hb)) (by decide)
      (decodeSource_moves s) (by decide) hs hex

theorem exec_facadeDecode_records (h : s.Inv) (hs : s.errKind = 0) (hex : exec .facadeDecode s = .next t) :
    OnlyFormatErrors s t := by
  by_cases hb : s.bwOpen = true
  · exact onlyFormatErrors_of_busy hb hs (facadeDecode_busy hb) hex
  · exact onlyFormatErrors_of_keeps (facadeDecode_keeps_free h (Bool.eq_false_iff.2 hb)) (by decide)
      (facadeDecode_moves s) (by decide) hs hex

end

/-! ## The reader is closed -/

/-- BR_OPEN <- 0 on every exit (R205). -/
theorem closeReader_leaves (body : Eff Unit) : (closeReader body).Leaves (fun t => t.brOpen = false) := by
  cases body with
  | done _ t => rfl
  | raised e t => rfl
  | stop f => trivial

theorem decodeSource_leaves {s : State} (hb : s.bwOpen = false) :
    (decodeSource s).Leaves (fun t => t.brOpen = false) := by
  rw [decodeSource, if_neg (by simp [hb])]
  exact closeReader_leaves _

theorem decodeSource_short {s : State} (hb : s.bwOpen = false) (ha : srcAvail s < 4) :
    decodeSource s = .raised (formatErr .bithdrShort) { s with brOpen := false, srcEof := true } := by
  rw [decodeSource, if_neg (by simp [hb]), readerOpen_short ha]
  rfl

/-! ## The bits at hand -/

/-- The last byte of n + 1 bytes. -/
theorem Memory.getLast?_readBytes_succ (m : Memory) (a n : Nat) : (m.readBytes a (n + 1)).getLast? = some (m.read (a + n)) := by
  rw [List.getLast?_eq_getElem?, Memory.readBytes_getElem?]
  simp

theorem Memory.take_readBytes (m : Memory) (a : Nat) {k n : Nat} (hk : k ≤ n) :
    (m.readBytes a n).take k = m.readBytes a k := by
  rw [Memory.readBytes, ← List.map_take, List.take_range, Nat.min_eq_left hk]
  rfl

section
variable {u : State} {K V A j : Nat}

/-- BR_CUR after j bits is the last byte they took (R142). -/
theorem readerAt_brCur (hA : ceil8 j ≤ A) : (readerAt u K j).brCur
    = ((u.src.readBytes (u.srcPos.toNat + 4) A).take (ceil8 j)).getLast?.getD 0 := by
  rw [Memory.take_readBytes _ _ hA]
  cases j with
  | zero => rfl
  | succ j =>
    rw [show ceil8 (j + 1) = j / 8 + 1 by unfold ceil8; omega, Memory.getLast?_readBytes_succ]
    rfl

/-- RESULT after j bits is the last of them, or as it was (R142). -/
theorem readerAt_result (hj : j ≤ V) : (readerAt u K j).result
    = (((streamFrom u V 0).take j).getLast?.map fun b => if b then 1#32 else 0#32).getD u.result := by
  rw [streamFrom, List.drop_zero, ← List.map_take, List.take_range, Nat.min_eq_left hj]
  cases j with
  | zero => rfl
  | succ j =>
    rw [List.range_succ, List.map_append, List.map_singleton, List.getLast?_concat]
    rfl

/-- The first V bits of the payload, which take A bytes. -/
theorem bitsOf_eq_streamFrom (hA : ceil8 V = A) :
    bitsOf (u.src.readBytes (u.srcPos.toNat + 4) A) V = streamFrom u V 0 := by
  rw [← hA, bitsOf_stream, streamFrom, List.drop_zero]

/-- The registers of a reader after j of V bits, which take A bytes (R141, R142). -/
theorem readerAt_eq (hA : ceil8 V = A) (hj : j ≤ V) : readerAt u K j = { u with
    brOpen := true
    brSize := BitVec.ofNat 32 K
    brCnt := BitVec.ofNat 32 j
    brCur := ((u.src.readBytes (u.srcPos.toNat + 4) A).take (ceil8 j)).getLast?.getD 0
    result := (((bitsOf (u.src.readBytes (u.srcPos.toNat + 4) A) V).take j).getLast?.map
      fun b => if b then 1#32 else 0#32).getD u.result
    srcPos := BitVec.ofNat 32 (u.srcPos.toNat + 4 + ceil8 j) } := by
  rw [bitsOf_eq_streamFrom hA, ← readerAt_result (K := K) hj, ← readerAt_brCur (K := K) (hA ▸ ceil8_mono hj)]
  rfl

/-- After the last bit BR_CUR is the last payload byte and RESULT the last bit, if there is one (R142). -/
theorem readerAt_end : readerAt u K K = { u with
    brOpen := true
    brSize := BitVec.ofNat 32 K
    brCnt := BitVec.ofNat 32 K
    brCur := (u.src.readBytes (u.srcPos.toNat + 4) (ceil8 K)).getLast?.getD 0
    result := ((bitsOf (u.src.readBytes (u.srcPos.toNat + 4) (ceil8 K)) K).getLast?.map
      fun b => if b then 1#32 else 0#32).getD u.result
    srcPos := BitVec.ofNat 32 (u.srcPos.toNat + 4 + ceil8 K) } := by
  have h := readerAt_eq (u := u) (K := K) (A := ceil8 K) rfl (le_refl K)
  rwa [List.take_of_length_le (by simp), List.take_of_length_le (by simp)] at h

end

/-- Of A payload bytes of a sequence of K bits the first min K (8 A) bits are in use; they take all A bytes, and more bits
are declared just where 8 A bits are too few. -/
structure InUse (K A V : Nat) : Prop where
  le : V ≤ K
  bytes : ceil8 V = A
  short : V < K ↔ 8 * A < K
  all : V < K → V = 8 * A

theorem inUse_min {K A : Nat} (hA : A ≤ ceil8 K) : InUse K A (min K (8 * A)) := by
  have h8 : ceil8 (min K (8 * A)) = A := by unfold ceil8 at *; omega
  exact ⟨Nat.min_le_left _ _, h8, by omega, by omega⟩

/-- Of the payload bytes before SRC_END the bits in use are those at hand. -/
theorem InUse.atHand {s : State} {K A V : Nat} (h : InUse K A V) (hK : K < 2 ^ 32)
    (hroom : s.srcPos.toNat + 4 ≤ s.srcEnd.toNat) (hA : A = min (ceil8 K) (s.srcEnd.toNat - (s.srcPos.toNat + 4)))
    (hs : s.srcEnd.toNat ≤ s.cfg.srcSize.toNat) : AtHand s K V where
  size := hK
  le := h.le
  bits := by rw [h.bytes]; omega
  cut hlt := by
    have hall := h.all hlt
    have hfew := h.short.1 hlt
    rw [hall, ceil8_mul_succ]
    unfold ceil8 at hA
    omega
  srcEnd := hs

/-! ## The sink afterwards -/

/-- The first n bytes of a list, stored, and what is around them. -/
theorem Memory.read_writeBytes_take (m : Memory) (hm : m.wf) (a x : Nat) {bs : List Byte} {n : Nat} (hn : n ≤ bs.length) :
    (m.writeBytes a (bs.take n)).read x = if a ≤ x ∧ x < a + n then bs[x - a]?.getD 0 else m.read x := by
  rw [Memory.read_writeBytes_block m hm, List.length_take_of_le hn]
  split
  · next hx => rw [List.getElem?_take_of_lt (by omega)]
  · rfl

/-! ## The statements -/

/-- Settles O10: the exceptions of the two commands are those of the block and of the tree, and the reader is closed. -/
theorem decodeFailuresAreFormatErrors : Obligations.DecodeFailuresAreFormatErrors := by
  refine ⟨fun s t h hs hex => ?_, fun s t hb hex => ?_⟩
  · rcases hex with hex | hex
    · exact exec_htDecode_records h hs hex
    · exact exec_facadeDecode_records h hs hex
  · exact (decodeSource_leaves hb).finish (fun e u hu => (raiseExc_brOpen u e).trans hu) hex

/-- Settles O45: the refusals, the whole block that decodes, and the run over the bits at hand where it stops. -/
theorem htDecodeFollowsItsBits : Obligations.HtDecodeFollowsItsBits := by
  refine ⟨rfl, fun s hd hs => ⟨fun hb => congrArg Eff.finish (decodeSource_busy hb), fun hb hshort => ?_, ?_, ?_⟩⟩
  · exact congrArg Eff.finish (decodeSource_short hb (by rw [srcAvail_eq]; omega))
  · intro K syms hb hK ha bytes hdec hr
    have hok := decodeSource_ok hb hs hK ha hdec hr
    rw [decodedState, readerAt_end] at hok
    exact ⟨_, congrArg Eff.finish hok, fun a => Memory.read_writeBytes_block _ hd _ a _⟩
  · intro K A syms f hb hK hroom hA bytes bits lastBit hrun
    have hK32 : K < 2 ^ 32 := hK ▸ memRead_lt s.src s.srcPos.toNat 4
    have huse : InUse K A (min K (8 * A)) := inUse_min (by omega)
    have hbits : bits = streamFrom s (min K (8 * A)) 0 := bitsOf_eq_streamFrom huse.bytes
    have hlen : bits.length = min K (8 * A) := bitsOf_length _ _
    rw [hlen, ← decide_eq_decide.2 huse.short, hbits] at hrun
    obtain ⟨hfault, hfull⟩ := decodeSource_stops hb hK (huse.atHand hK32 hroom hA hs) hrun
    rw [← hbits] at hfull
    refine ⟨fun c j hf hfits => ?_, fun n hn hend => ?_⟩
    · obtain ⟨hj, hstop⟩ := hfault c j hf (or_iff_not_imp_right.2 hfits)
      rw [faultedAt, readerAt_eq huse.bytes hj.le] at hstop
      refine ⟨_, congrArg Eff.finish hstop, hlen ▸ hj.le, fun hc => ?_, hj.exhausted,
        fun a => Memory.read_writeBytes_block _ hd _ a _⟩
      obtain ⟨hjV, hVK⟩ := hj.short hc
      exact hjV.trans (huse.all hVK)
    · obtain ⟨hj, hstop⟩ := hfull n hn hend
      rw [readerAt_eq huse.bytes hj] at hstop
      exact ⟨_, congrArg Eff.finish hstop, hlen ▸ hj, fun a => Memory.read_writeBytes_take _ hd _ a hn.le⟩

/-- Settles O46: a command that records nothing did not raise, and then the block was whole, decoded and fitted. -/
theorem htDecodeSucceedsOnlyOnDecodableBits : Obligations.HtDecodeSucceedsOnlyOnDecodableBits := by
  intro s t h _ hex ht
  exact decodeSource_done h.srcEnd_le (Eff.done_of_finish hex ht)

end Sys2Proof.Machine
end

section
/-! SUPPORT. HT.DECODE over what HT.ENCODE wrote (spec/44_tree_transcode.md R209): the block read back from SRC decodes to its
bits' symbols, which are the input, or none where the tree has a single symbol. -/

namespace Sys2Proof.Machine

/-! ## The code words of a tree of one symbol -/

section
variable {syms : List Byte} {f : Byte → Nat} {ws : List Nat} {nodes : List Node}

/-- In a tree of one symbol its code word has no bits, so no input has any (R203). -/
theorem Built.codeBits_eq_nil (h : Built syms f ws nodes) (h1 : syms.length ≤ 1) {input : List Byte}
    (hin : ∀ v ∈ input, v ∈ syms) : Machine.codeBits nodes input = some [] := by
  have h256 : syms.length ≤ 256 := by omega
  induction input with
  | nil => rfl
  | cons v vs ih =>
    have hv := hin v List.mem_cons_self
    obtain ⟨w, hw, -⟩ := h.codeWord h256 hv
    have hlen := h.codeWord_length_le h256 hv hw
    obtain rfl : w = [] := List.length_eq_zero_iff.1 (by omega)
    rw [Machine.codeBits, hw, ih fun x hx => hin x (List.mem_cons_of_mem v hx)]
    rfl

/-- The bits of an input decode to the input, or are none where the tree has fewer than two symbols (R209). -/
theorem Built.decodeBits_codeBits (h : Built syms f ws nodes) (h256 : syms.length ≤ 256) {input : List Byte}
    (hin : ∀ v ∈ input, v ∈ syms) {bits : List Bool} (hbits : Machine.codeBits nodes input = some bits) :
    (2 ≤ syms.length ∧ decodeBits nodes bits = some input) ∨ (syms.length ≤ 1 ∧ bits = []) := by
  by_cases h2 : 2 ≤ syms.length
  · obtain ⟨bits', hbits', hdec⟩ := h.codeBits h256 hin
    cases hbits.symm.trans hbits'
    exact .inl ⟨h2, hdec h2⟩
  · have h1 : syms.length ≤ 1 := by omega
    exact .inr ⟨h1, Option.some.inj (hbits.symm.trans (h.codeBits_eq_nil h1 hin))⟩

end

/-! ## A block read back -/

/-- Over the block of a bit sequence that decodes, with room for its symbols, HT.DECODE emits them (R87, R205). -/
theorem decodeSource_bitBlock {u : State} {bits : List Bool} {syms : List Byte} (h : u.Inv) (hb : u.bwOpen = false)
    (hn : bits.length < 2 ^ 32)
    (hblock : u.src.readBytes u.srcPos.toNat (4 + ceil8 bits.length) = bitBlock bits)
    (ha : u.srcPos.toNat + (4 + ceil8 bits.length) ≤ u.srcEnd.toNat) (hdec : decodeBits u.node bits = some syms)
    (hr : u.dstPos.toNat + syms.length ≤ u.cfg.dstSize.toNat) :
    decodeSource u = .done () (decodedState u bits.length syms) := by
  rw [Memory.readBytes_add, bitBlock] at hblock
  obtain ⟨hhdr, hpayload⟩ := List.append_inj hblock (by simp)
  refine decodeSource_ok hb h.srcEnd_le (memRead_eq_of_readBytes hhdr hn) (by omega) ?_ fun _ => hr
  rw [hpayload, bitsOf_payload, hdec]

/-- DST after HT.DECODE holds the symbols where DST_POS stood, which is past them now (R205). -/
theorem decodedState_sink {u : State} {K : Nat} {syms : List Byte} (hd : u.dst.wf)
    (hr : u.dstPos.toNat + syms.length ≤ u.cfg.dstSize.toNat) :
    (decodedState u K syms).dst.readBytes u.dstPos.toNat syms.length = syms ∧
    (decodedState u K syms).dstPos.toNat = u.dstPos.toNat + syms.length :=
  ⟨Memory.readBytes_writeBytes u.dst hd _ _,
    (BitVec.toNat_ofNat _ _).trans (Nat.mod_eq_of_lt (Nat.lt_of_le_of_lt hr u.cfg.dstSize.isLt))⟩

/-- Where HT.ENCODE records nothing, it has counted the bits of its input and left their block behind the old DST_POS. -/
theorem exec_htEncode_done {s t : State} (h : s.Inv) (hex : exec .htEncode s = .next t) (ht : t.errKind = 0) :
    ∃ bits, codeBits s.node s.input = some bits ∧ bits.length < 2 ^ 32 ∧ t.bwCnt = BitVec.ofNat 32 bits.length ∧
      t.dstPos.toNat - s.dstPos.toNat = 4 + ceil8 bits.length ∧
      t.dst.readBytes s.dstPos.toNat (4 + ceil8 bits.length) = bitBlock bits := by
  have hdone := Eff.done_of_finish hex ht
  obtain ⟨hb, bits, hw, hn, hr⟩ := encodeSource_done h.srcEnd_le h.sp_zero hdone
  obtain ⟨stk, hok⟩ := encodeSource_ok hb h.srcEnd_le h.sp_zero h.dst_wf hw hn hr
  cases hdone.symm.trans hok
  refine ⟨bits, hw, hn, rfl, ?_, ?_⟩
  · have hpos : (BitVec.ofNat 32 (s.dstPos.toNat + 4 + ceil8 bits.length)).toNat
        = s.dstPos.toNat + 4 + ceil8 bits.length :=
      (BitVec.toNat_ofNat _ _).trans (Nat.mod_eq_of_lt (Nat.lt_of_le_of_lt hr s.cfg.dstSize.isLt))
    change (BitVec.ofNat 32 (s.dstPos.toNat + 4 + ceil8 bits.length)).toNat - s.dstPos.toNat = _
    omega
  · rw [← bitBlock_length]
    exact Memory.readBytes_writeBytes s.dst h.dst_wf _ _

/-! ## The statements -/

/-- Settles O47: what was written is the block of the input's bits, which decode to the input, or of none. -/
theorem transcodingRoundTrip : Obligations.TranscodingRoundTrip := by
  intro b s t u hbuild hs _ hin henc ht hu hue hub hnode n hsame hend hroom
  obtain ⟨-, ws, hbt⟩ := buildTree_built b
  have hnext := Host.Outcome.next.inj hbuild
  rw [hnext] at hbt
  obtain ⟨bits, hbits, hlt, hcnt, hn, hblock⟩ := exec_htEncode_done hs henc ht
  rw [show n = 4 + ceil8 bits.length from hn] at hsame hend
  have hsyms : ∀ v ∈ s.input, v ∈ b.symbols := fun v hv => mem_symbols.2 (hin v hv)
  rcases hbt.decodeBits_codeBits (symbols_length_le b) hsyms hbits with ⟨h2, hdec⟩ | ⟨h1, rfl⟩
  · have hok := decodeSource_bitBlock hu hub hlt (hsame.trans hblock) hend (hnode ▸ hdec) hroom
    exact ⟨_, congrArg Eff.finish hok, hue, fun _ => decodedState_sink hu.dst_wf hroom, fun h1 => by omega⟩
  · have hok := decodeSource_bitBlock hu hub hlt (hsame.trans hblock) hend (syms := []) rfl
      (by rw [List.length_nil]; omega)
    exact ⟨_, congrArg Eff.finish hok, hue, fun h2 => by omega, fun _ => ⟨hcnt, BitVec.ofNat_toNat _ _, rfl⟩⟩

end Sys2Proof.Machine
end

section
/-! SUPPORT. HT.SAVE and HT.LOAD as commands (spec/45_tree_serial.md R221 to R225): the fields of a record in memory, the block
HT.SAVE leaves, and that HT.LOAD takes it for the saved tree. -/

namespace Sys2Proof.Machine

/-! ## A record in memory (R85) -/

/-- The five fields of the record at r (R223). -/
theorem readRecord_fields (m : Memory) (r : Nat) :
    (readRecord m r).c0.toNat = memRead m r 2 ∧ (readRecord m r).c1.toNat = memRead m (r + 2) 2 ∧
    (readRecord m r).par.toNat = memRead m (r + 4) 2 ∧
    (readRecord m r).side = decide (m.read (r + 6) ≠ 0x00#8) ∧ (readRecord m r).sym = m.read (r + 7) := by
  have field : ∀ a, (BitVec.ofNat 16 (memRead m a 2)).toNat = memRead m a 2 := fun a =>
    (BitVec.toNat_ofNat _ _).trans (Nat.mod_eq_of_lt (memRead_lt m a 2))
  exact ⟨field r, field (r + 2), field (r + 4), decide_not.symm, rfl⟩

/-- The side byte HT.SAVE stores is one of 0x00 and 0x01 (R221). -/
theorem sideByte_of_bytes {m : Memory} {r : Nat} {nd : Node} (h : m.readBytes r 8 = recordBytes nd) :
    m.read (r + 6) = if nd.side then 0x01#8 else 0x00#8 := by
  have hbyte := congrArg (·[6]?) h
  rw [Memory.readBytes_getElem?, if_pos (by decide)] at hbyte
  exact Option.some.inj hbyte

theorem nodeAt_readRecords (m : Memory) (r : Nat) {i n : Nat} (hi : i < n) :
    nodeAt (readRecords m r n) i = readRecord m (r + 8 * i) := by
  simp [nodeAt, readRecords, hi]

/-! ## The block in the sink -/

/-- Storing the tree block at a puts it there. -/
theorem readBytes_treeBlock {m : Memory} (hm : m.wf) (a : Nat) (nodes : List Node) :
    (m.writeBytes a (treeBlock nodes)).readBytes a (2 + 8 * nodes.length) = treeBlock nodes := by
  rw [← treeBlock_length]
  exact Memory.readBytes_writeBytes m hm a _

/-- A save that did not raise has stored the block (R221). -/
theorem saveTree_done {s t : State} (h : saveTree s = .done () t) :
    t.dst = s.dst.writeBytes s.dstPos.toNat (treeBlock s.node) := by
  cases hb : s.bwOpen with
  | true => cases (saveTree_busy hb).symm.trans h
  | false =>
    by_cases hr : s.cfg.dstSize.toNat < s.dstPos.toNat + blockSize s.nn
    · cases (saveTree_full hb hr).symm.trans h
    · cases (saveTree_ok hb (by omega)).symm.trans h
      rfl

/-! ## The statements -/

/-- Settles O38: the two refusals, and the count and each record read from the stored block. -/
theorem htSaveWritesTheTreeBlock : Obligations.HtSaveWritesTheTreeBlock := by
  refine ⟨rfl, fun s hd hcap => ⟨fun hb => congrArg Eff.finish (saveTree_busy hb), fun hb hr => ?_, fun hb hr => ?_⟩⟩
  · exact congrArg Eff.finish (saveTree_full hb (by rwa [blockSize_eq, ← Nat.add_assoc]))
  · have hok := saveTree_ok hb (by rwa [blockSize_eq, ← Nat.add_assoc])
    rw [blockSize_eq, ← Nat.add_assoc] at hok
    have hblock := readBytes_treeBlock hd s.dstPos.toNat s.node
    refine ⟨_, congrArg Eff.finish hok, (block_loads hcap hblock).1, fun i hi => ?_, fun a ha => ?_⟩
    · have hrec := block_record hi hblock
      obtain ⟨hc0, hc1, hpar, -, hsym⟩ := readRecord_of_bytes hrec ▸ readRecord_fields _ _
      exact ⟨hc0.symm, hc1.symm, hpar.symm, sideByte_of_bytes hrec, hsym.symm⟩
    · exact Memory.read_writeBytes_out _ (by rwa [treeBlock_length, ← Nat.add_assoc])

/-- Settles O39: the two short reads, and the records read where the whole block is there. -/
theorem htLoadReadsTheTreeBlock : Obligations.HtLoadReadsTheTreeBlock := by
  refine ⟨rfl, fun s hs => ⟨fun hshort => ?_, fun hcount hshort => ?_, fun hall => ?_⟩⟩
  · exact congrArg Eff.finish (loadTree_countShort (by rw [srcAvail_eq]; omega))
  · exact congrArg Eff.finish (loadTree_recordsShort (by rw [srcAvail_eq]; omega) hs
      (by rw [srcAvail_eq, blockSize_eq]; omega))
  · have hok := loadTree_ok hs rfl (by rw [srcAvail_eq, blockSize_eq]; omega)
    rw [blockSize_eq, ← Nat.add_assoc] at hok
    refine ⟨_, congrArg Eff.finish hok, readRecords_length _ _ _, fun i hi => ?_⟩
    rw [nodeAt_readRecords _ _ hi]
    exact readRecord_fields _ _

/-- Settles O40: the bytes HT.SAVE left are the block of its tree, which HT.LOAD reads back and HT.EQ compares equal. -/
theorem savedTreeLoadsBack : Obligations.SavedTreeLoadsBack := by
  intro s t u hd hcap _ hsave ht hu hend hsame hsnap
  rw [saveTree_done (Eff.done_of_finish hsave ht), readBytes_treeBlock hd] at hsame
  obtain ⟨hcount, hnodes⟩ := block_loads hcap hsame
  have hok := loadTree_ok hu hcount (by rw [srcAvail_eq, blockSize_eq]; omega)
  rw [hnodes] at hok
  obtain ⟨-, -, -, hEq⟩ := htSnapAndHtEq
  exact ⟨_, congrArg Eff.finish hok, rfl, (hEq _).trans (by rw [if_pos hsnap.symm])⟩

end Sys2Proof.Machine
end

section
/-! SUPPORT. ENCODE and DECODE as commands over a file, the tree block and then the bit-sequence block (spec/20_memory.md R56,
spec/46_facade.md R241 to R246): the words that make ENCODE's tree, the file ENCODE leaves, and DECODE of that file, whole
and cut short. -/

namespace Sys2Proof.Machine

/-! ## Addresses -/

/-- An address up to a pointer register's value is held by a pointer register. -/
theorem toNat_address {n : Nat} {p : Word} (h : n ≤ p.toNat) : (BitVec.ofNat 32 n).toNat = n :=
  (BitVec.toNat_ofNat _ _).trans (Nat.mod_eq_of_lt (Nat.lt_of_le_of_lt h p.isLt))

/-! ## The tree of the input, and its file -/

/-- With no exception recorded FC.COUNT, FC.PAD and HT.BUILD, word by word, make ENCODE's tree (R241). -/
theorem runWords_treeOfInput {s : State} (hs : s.srcEnd.toNat ≤ s.cfg.srcSize.toNat) (he : s.errKind = 0) :
    runWords [0x00000012#32, 0x00000013#32, 0x00000020#32] s = .next (treeOfInput s) := by
  have hcount : (tally s.input s.clearSyms).errKind = 0 := by rw [tally_eq]; exact he
  have hpad : (padMapping (tally s.input s.clearSyms)).errKind = 0 := by rw [padMapping_eq]; exact hcount
  rw [runWords_command (i := .fcCount) rfl he (congrArg Eff.finish (countSource_ok hs)),
    runWords_command (i := .fcPad) rfl hcount rfl, runWords_command (i := .htBuild) rfl hpad rfl, treeOfInput_def]
  rfl

/-- The registers and the sink after ENCODE, with room for the file (R241, R242). -/
theorem facadeEncode_leaves_file {s : State} {bits : List Bool} (h : s.Inv) (hb : s.bwOpen = false)
    (hw : codeBits (treeOfInput s).node s.input = some bits) (hn : bits.length < 2 ^ 32)
    (hr : s.dstPos.toNat + (2 + 8 * (treeOfInput s).node.length) + 4 + ceil8 bits.length ≤ s.cfg.dstSize.toNat) :
    ∃ stk, facadeEncode s = .done () { treeOfInput s with
      bwHdr := BitVec.ofNat 32 (s.dstPos.toNat + (2 + 8 * (treeOfInput s).node.length))
      bwCnt := BitVec.ofNat 32 bits.length
      bwAcc := payloadByte bits (bits.length / 8)
      dst := s.dst.writeBytes s.dstPos.toNat (treeBlock (treeOfInput s).node ++ bitBlock bits)
      dstPos := BitVec.ofNat 32 (s.dstPos.toNat + (2 + 8 * (treeOfInput s).node.length) + 4 + ceil8 bits.length)
      srcPos := if s.srcPos.toNat ≤ s.srcEnd.toNat then s.srcEnd else s.srcPos
      srcEof := true
      result := BitVec.ofNat 32 (8 * (treeOfInput s).node.length + 6)
      stk := stk } := by
  obtain ⟨stk, henc⟩ := facadeEncode_ok hb h.srcEnd_le h.sp_zero h.dst_wf hw hn hr
  have hopen : (treeOfInput s).bwOpen = false := by rw [treeOfInput_eq]; exact hb
  have hsp : (treeOfInput s).sp = 0 := by rw [treeOfInput_eq]; exact h.sp_zero
  rw [srcPos_max, ← hopen, ← hsp] at henc
  exact ⟨stk, henc⟩

/-- The command ENCODE, with room for the file, records nothing and leaves the file behind the old DST_POS (R241, R242). -/
theorem exec_facadeEncode_file {s : State} {bits : List Bool} (h : s.Inv) (he : s.errKind = 0) (hb : s.bwOpen = false)
    (hw : codeBits (treeOfInput s).node s.input = some bits) (hn : bits.length < 2 ^ 32)
    (hr : s.dstPos.toNat + (2 + 8 * (treeOfInput s).node.length) + 4 + ceil8 bits.length ≤ s.cfg.dstSize.toNat) :
    let file := treeBlock (treeOfInput s).node ++ bitBlock bits
    ∃ t, exec .facadeEncode s = .next t ∧ t.errKind = 0 ∧ t.dstPos.toNat - s.dstPos.toNat = file.length ∧
      t.dst.readBytes s.dstPos.toNat file.length = file ∧
      t.result = BitVec.ofNat 32 (8 * (treeOfInput s).node.length + 6) := by
  intro file
  obtain ⟨stk, henc⟩ := facadeEncode_leaves_file h hb hw hn hr
  have hlen : file.length = 2 + 8 * (treeOfInput s).node.length + (4 + ceil8 bits.length) := by
    rw [List.length_append, treeBlock_length, bitBlock_length]
  refine ⟨_, congrArg Eff.finish henc, by rw [treeOfInput_eq]; exact he, ?_,
    Memory.readBytes_writeBytes s.dst h.dst_wf _ _, rfl⟩
  rw [toNat_address hr, hlen]
  omega

/-! ## The file read back -/

/-- DECODE over the block of a tree and a bit-sequence block that decodes in it, with room for the symbols (R243). -/
theorem facadeDecode_blocks {s : State} {nodes : List Node} {K : Nat} {syms : List Byte} (hb : s.bwOpen = false)
    (hs : s.srcEnd.toNat ≤ s.cfg.srcSize.toNat) (hcap : nodes.length ≤ nodeCap)
    (htree : s.src.readBytes s.srcPos.toNat (blockSize nodes.length) = treeBlock nodes)
    (hK : memRead s.src (s.srcPos.toNat + blockSize nodes.length) 4 = K)
    (ha : s.srcPos.toNat + blockSize nodes.length + 4 + ceil8 K ≤ s.srcEnd.toNat)
    (hdec : decodeBits nodes (bitsOf (s.src.readBytes (s.srcPos.toNat + blockSize nodes.length + 4) (ceil8 K)) K)
      = some syms)
    (hr : syms ≠ [] → s.dstPos.toNat + syms.length ≤ s.cfg.dstSize.toNat) :
    facadeDecode s = .done () { decodedState { s with
        node := nodes
        srcPos := BitVec.ofNat 32 (s.srcPos.toNat + blockSize nodes.length) } K syms with
      result := BitVec.ofNat 32 (8 * nodes.length + 6) } := by
  obtain ⟨hcount, hnodes⟩ := block_loads hcap htree
  have hok := facadeDecode_ok hb hs hcount hK ha (by rw [hnodes]; exact hdec) hr
  rwa [hnodes] at hok

/-- Bytes that begin like two lists one after the other begin with the first, then with a beginning of the second. -/
theorem Memory.readBytes_append_take {m : Memory} {a j : Nat} {xs ys : List Byte}
    (h : m.readBytes a (xs.length + j) = (xs ++ ys).take (xs.length + j)) :
    m.readBytes a xs.length = xs ∧ m.readBytes (a + xs.length) j = ys.take j := by
  rw [Memory.readBytes_add, List.take_length_add_append] at h
  exact List.append_inj h (by simp)

/-- HT.LOAD over a proper beginning of a tree block (R223). -/
theorem loadTree_truncated {u : State} {nodes : List Node} {k : Nat} (hs : u.srcEnd.toNat ≤ u.cfg.srcSize.toNat)
    (hcap : nodes.length ≤ nodeCap) (hk : k < blockSize nodes.length)
    (hsame : u.src.readBytes u.srcPos.toNat k = (treeBlock nodes).take k) (hend : u.srcEnd.toNat = u.srcPos.toNat + k) :
    ∃ c t, loadTree u = .raised (formatErr c) t := by
  have hav : srcAvail u = k := by rw [srcAvail_eq]; omega
  by_cases h2 : k < 2
  · exact ⟨_, _, loadTree_countShort (by omega)⟩
  · obtain ⟨j, rfl⟩ : ∃ j, k = (leBytes 2 nodes.length).length + j := ⟨k - 2, by simp; omega⟩
    obtain ⟨hcount, -⟩ := Memory.readBytes_append_take hsame
    have hcap' : nodes.length ≤ 65535 := hcap
    have hn : memRead u.src u.srcPos.toNat 2 = nodes.length := memRead_eq_of_readBytes (by simpa using hcount) (by omega)
    exact ⟨_, _, loadTree_recordsShort (by omega) hs (by rw [hn, hav]; exact hk)⟩

/-- The stream of a beginning of a payload has its bits (R87, R145). -/
theorem streamBit_of_payload_take {u : State} {bits : List Bool} {A j : Nat}
    (hsame : u.src.readBytes (u.srcPos.toNat + 4) A = (payload bits).take A) (hA : j < 8 * A) (hj : j < bits.length) :
    bits[j]? = some (streamBit u j) := by
  have hbyte := congrArg (·[j / 8]?) hsame
  simp only [Memory.readBytes_getElem?, List.getElem?_take, if_pos (show j / 8 < A by omega), payload_getElem?,
    if_pos (show j / 8 < ceil8 bits.length by unfold ceil8; omega), Option.some.injEq] at hbyte
  rw [streamBit, hbyte, payloadByte_getLsbD _ _ (Nat.mod_lt _ (by decide)), Nat.div_add_mod,
    List.getElem?_eq_getElem hj, Option.getD_some]

/-- HT.DECODE over a proper beginning of the block of a bit sequence that decodes (R205, R246). -/
theorem decodeSource_truncated {u : State} {bits : List Bool} {syms : List Byte} {k : Nat} (hb : u.bwOpen = false)
    (hs : u.srcEnd.toNat ≤ u.cfg.srcSize.toNat) (hn : bits.length < 2 ^ 32) (hk : k < 4 + ceil8 bits.length)
    (hsame : u.src.readBytes u.srcPos.toNat k = (bitBlock bits).take k) (hend : u.srcEnd.toNat = u.srcPos.toNat + k)
    (hdec : decodeBits u.node bits = some syms) (hr : u.dstPos.toNat + syms.length ≤ u.cfg.dstSize.toNat) :
    ∃ c t, decodeSource u = .raised (formatErr c) t := by
  have hav : srcAvail u = k := by rw [srcAvail_eq]; omega
  by_cases h4 : k < 4
  · exact ⟨_, _, decodeSource_short hb (by omega)⟩
  · obtain ⟨A, rfl⟩ : ∃ A, k = (leBytes 4 bits.length).length + A := ⟨k - 4, by simp; omega⟩
    obtain ⟨hhdr, hpayload⟩ := Memory.readBytes_append_take hsame
    rw [leBytes_length] at hhdr hpayload hend hk hav
    have hK : memRead u.src u.srcPos.toNat 4 = bits.length := memRead_eq_of_readBytes hhdr hn
    have hleft : bitsLeft (readerAt u bits.length 0) = bits.length := by
      obtain ⟨hcnt, hsize⟩ := readerAt_cnt (u := u) hn (Nat.zero_le bits.length)
      rw [bitsLeft, hcnt, hsize, Nat.sub_zero]
    obtain ⟨t, ht⟩ := decodeSymbols_truncated (A := A) (j := 0) (passes := bits.length) hn rfl (by omega) hs
      (fun j hjA hj => streamBit_of_payload_take hpayload hjA hj) (Nat.zero_le A) (Nat.zero_le _) (by omega) (by omega) hdec hr
    refine ⟨.payloadShort, { t with brOpen := false }, ?_⟩
    rw [decodeSource, if_neg (by simp [hb]), readerOpen_eq_readerAt (by omega) hs, hK, Eff.andThen_done, hleft, ht]
    rfl

/-- DECODE over a proper beginning of a file raises a FORMAT_ERROR (R246). -/
theorem facadeDecode_truncated {u : State} {nodes : List Node} {bits : List Bool} {syms : List Byte} {k : Nat}
    (hb : u.bwOpen = false) (hs : u.srcEnd.toNat ≤ u.cfg.srcSize.toNat) (hcap : nodes.length ≤ nodeCap)
    (hn : bits.length < 2 ^ 32) (hk : k < (treeBlock nodes ++ bitBlock bits).length)
    (hsame : u.src.readBytes u.srcPos.toNat k = (treeBlock nodes ++ bitBlock bits).take k)
    (hend : u.srcEnd.toNat = u.srcPos.toNat + k) (hdec : decodeBits nodes bits = some syms)
    (hr : u.dstPos.toNat + syms.length ≤ u.cfg.dstSize.toNat) : ∃ c t, facadeDecode u = .raised (formatErr c) t := by
  rw [facadeDecode_steps hb]
  by_cases htree : k < (treeBlock nodes).length
  · obtain ⟨c, t, ht⟩ := loadTree_truncated (nodes := nodes) hs hcap (by simpa [blockSize_eq] using htree)
      (by rw [hsame, List.take_append_of_le_length htree.le]) hend
    exact ⟨c, t, by rw [ht]; rfl⟩
  · obtain ⟨j, rfl⟩ : ∃ j, k = (treeBlock nodes).length + j := ⟨k - (treeBlock nodes).length, by omega⟩
    obtain ⟨hblock, hrest⟩ := Memory.readBytes_append_take hsame
    rw [treeBlock_length, ← blockSize_eq] at hblock hrest hend
    obtain ⟨hcount, hnodes⟩ := block_loads hcap hblock
    have hpos := toNat_address (show u.srcPos.toNat + blockSize nodes.length ≤ u.srcEnd.toNat by omega)
    rw [loadTree_ok hs hcount (by rw [srcAvail_eq]; omega), hnodes, Eff.andThen_done]
    obtain ⟨c, t, ht⟩ := decodeSource_truncated (u := { u with
      node := nodes, srcPos := BitVec.ofNat 32 (u.srcPos.toNat + blockSize nodes.length) }) (k := j) hb hs hn
      (by simpa using hk) (by simpa only [hpos] using hrest) (by simp only [hpos]; omega) hdec hr
    exact ⟨c, t, by rw [ht]; rfl⟩

section
variable {u : State} {nodes : List Node} {bits : List Bool} {syms : List Byte} (h : u.Inv) (he : u.errKind = 0)
  (hb : u.bwOpen = false) (hcap : nodes.length ≤ nodeCap) (hn : bits.length < 2 ^ 32)
  (hdec : decodeBits nodes bits = some syms) (hr : u.dstPos.toNat + syms.length ≤ u.cfg.dstSize.toNat)
include h he hb hcap hn hdec hr

/-- The command DECODE over a whole file: nothing is recorded, and DST holds the symbols (R243). -/
theorem exec_facadeDecode_file
    (hsame : u.src.readBytes u.srcPos.toNat (treeBlock nodes ++ bitBlock bits).length = treeBlock nodes ++ bitBlock bits)
    (ha : u.srcPos.toNat + (treeBlock nodes ++ bitBlock bits).length ≤ u.srcEnd.toNat) :
    ∃ v, exec .facadeDecode u = .next v ∧ v.errKind = 0 ∧ v.dst.readBytes u.dstPos.toNat syms.length = syms ∧
      v.dstPos.toNat = u.dstPos.toNat + syms.length ∧ v.result = BitVec.ofNat 32 (8 * nodes.length + 6) := by
  rw [List.length_append, Memory.readBytes_add] at hsame
  obtain ⟨htree, hblock⟩ := List.append_inj hsame (by simp)
  rw [bitBlock_length, Memory.readBytes_add] at hblock
  obtain ⟨hhdr, hpayload⟩ := List.append_inj hblock (by simp)
  rw [List.length_append, treeBlock_length, bitBlock_length] at ha
  rw [treeBlock_length, ← blockSize_eq] at htree hhdr hpayload
  have hok := facadeDecode_blocks hb h.srcEnd_le hcap htree (memRead_eq_of_readBytes hhdr hn)
    (by rw [blockSize_eq]; omega) (by rw [hpayload, bitsOf_payload, hdec]) fun _ => hr
  obtain ⟨hdst, hpos⟩ := decodedState_sink (K := bits.length) h.dst_wf hr
  exact ⟨_, congrArg Eff.finish hok, he, hdst, hpos, rfl⟩

/-- The command DECODE over a proper beginning of a file records FORMAT_ERROR (R246, R280). -/
theorem exec_facadeDecode_truncated {k : Nat} (hk : k < (treeBlock nodes ++ bitBlock bits).length)
    (hsame : u.src.readBytes u.srcPos.toNat k = (treeBlock nodes ++ bitBlock bits).take k)
    (hend : u.srcEnd.toNat = u.srcPos.toNat + k) :
    ∃ v, exec .facadeDecode u = .next v ∧ v.errKind = ErrKind.formatError.code := by
  obtain ⟨c, t, ht⟩ := facadeDecode_truncated hb h.srcEnd_le hcap hn hk hsame hend hdec hr
  have hmoves := facadeDecode_moves u
  rw [ht] at hmoves
  obtain ⟨herr, -⟩ := Within.same hmoves .err (by decide)
  exact ⟨_, congrArg Eff.finish ht, (raiseExc_records (formatErr c) (herr.trans he)).1⟩

end

/-! ## The statements -/

/-- Settles O49: the words make ENCODE's tree, in which every input has a bit sequence, and the file is read byte by byte. -/
theorem encodeWritesTheFile : Obligations.EncodeWritesTheFile := by
  intro s h he hb
  obtain ⟨bits, hbits, -⟩ := treeOfInput_codeBits s
  refine ⟨treeOfInput s, bits, runWords_treeOfInput h.srcEnd_le he, hbits, fun hn hr => ?_⟩
  obtain ⟨stk, henc⟩ := facadeEncode_leaves_file h hb hbits hn hr
  refine ⟨_, stk, congrArg Eff.finish henc, fun a => ?_⟩
  rw [Memory.read_writeBytes_block _ h.dst_wf, List.length_append, treeBlock_length, bitBlock_length, ← Nat.add_assoc,
    ← Nat.add_assoc]

/-- Settles O50: DECODE's registers after the last bit, and the symbols read byte by byte. -/
theorem decodeReadsTheFile : Obligations.DecodeReadsTheFile := by
  intro s nodes K syms hd hs hb hcap B bytes htree hK ha hdec hr
  have hok := facadeDecode_blocks hb hs hcap htree hK ha hdec hr
  have hpos := toNat_address (show s.srcPos.toNat + blockSize nodes.length ≤ s.srcEnd.toNat by rw [blockSize_eq]; omega)
  rw [decodedState, readerAt_end, hpos, blockSize_eq] at hok
  exact ⟨_, congrArg Eff.finish hok, fun a => Memory.read_writeBytes_block _ hd _ a _⟩

/-- Settles O51: the bytes ENCODE left are the file, which DECODE takes back whole and refuses where it is cut. -/
theorem fileRoundTrip : Obligations.FileRoundTrip := by
  intro s h he hb
  obtain ⟨bits, hbits, hdec⟩ := treeOfInput_codeBits s
  refine ⟨treeOfInput s, bits, runWords_treeOfInput h.srcEnd_le he, hbits, fun hn hr => ?_⟩
  obtain ⟨t, hex, ht, hlen, hfile, hresult⟩ := exec_facadeEncode_file h he hb hbits hn hr
  refine ⟨t, hex, ht, ?_⟩
  intro n u hu hue hub hroom
  rw [show n = _ from hlen, hresult]
  have hcap : (treeOfInput s).node.length ≤ nodeCap := (treeOfInput_nn s).1.trans (by decide)
  refine ⟨fun hsame ha => ?_, fun k hk hsame hcut => ?_⟩
  · exact exec_facadeDecode_file hu hue hub hcap hn hdec hroom (hsame.trans hfile) ha
  · refine exec_facadeDecode_truncated hu hue hub hcap hn hdec hroom hk ?_ hcut
    rw [hsame, ← hfile, Memory.take_readBytes _ _ hk.le]

end Sys2Proof.Machine
end

section
/-! SUPPORT. The system commands and the host's byte accesses (spec/47_system.md R250 to R252, R256): a byte access in range
and out of range, NOP and ERR.CLEAR with and without the gate, reset register by register. -/

namespace Sys2Proof.Machine

/-! ## The host's byte accesses (R256) -/

section

variable {a : Word} {s : State} (b : Byte)

theorem hostAccess_srcPoke_ok (h : a.toNat < s.cfg.srcSize.toNat) :
    hostAccess (.srcPoke a b) s = .next { s with src := s.src.write a.toNat b } := if_pos h

theorem hostAccess_dstPoke_ok (h : a.toNat < s.cfg.dstSize.toNat) :
    hostAccess (.dstPoke a b) s = .next { s with dst := s.dst.write a.toNat b } := if_pos h

theorem hostAccess_dstPeek_ok (h : a.toNat < s.cfg.dstSize.toNat) :
    hostAccess (.dstPeek a) s = .next { s with rdata := (s.dst.read a.toNat).setWidth 32 } := if_pos h

theorem hostAccess_srcPoke_hole (h : s.cfg.srcSize.toNat ≤ a.toNat) : hostAccess (.srcPoke a b) s = .fault .hostHole :=
  if_neg (Nat.not_lt.2 h)

theorem hostAccess_dstPoke_hole (h : s.cfg.dstSize.toNat ≤ a.toNat) : hostAccess (.dstPoke a b) s = .fault .hostHole :=
  if_neg (Nat.not_lt.2 h)

theorem hostAccess_dstPeek_hole (h : s.cfg.dstSize.toNat ≤ a.toNat) : hostAccess (.dstPeek a) s = .fault .hostHole :=
  if_neg (Nat.not_lt.2 h)

end

/-! ## Command words -/

/-- The word of a command that changes nothing changes nothing, be it executed or gated. -/
theorem commandWrite_eq_self {w : Word} {i : Instr} {s : State} (hd : decode w = .ok i) (hi : exec i s = .next s) :
    commandWrite w s = .next s := by
  by_cases hg : gated w s = true
  · exact commandWrite_gated hg
  · rw [commandWrite_decoded hg hd, hi]

/-! ## Reset, where a register is not a field of the state -/

theorem freqOf_resetState (s : State) (v : Byte) : (resetState s).freqOf v = 0 :=
  (freqOf_congr (resetState_freq s) v).trans (freqOf_clearSyms State.reset v)

theorem hasSym_resetState (s : State) (v : Byte) : (resetState s).hasSym v = false :=
  (hasSym_congr (resetState_present s) v).trans (hasSym_clearSyms State.reset v)

/-- After reset STATUS shows BR_EOS alone: the reader's two counts are both 0 (R31, R310). -/
theorem status_resetState (s : State) : (resetState s).status = 0x00000004#32 :=
  (show (resetState s).status = State.reset.status from rfl).trans (by decide)

/-! ## The statements -/

/-- Settles O14: each access by its range, the memory it leaves read byte by byte. -/
theorem hostByteAccesses : Obligations.HostByteAccesses := fun _ b _ hsrc hdst =>
  ⟨fun h => ⟨_, hostAccess_srcPoke_ok b h, fun x => Memory.read_write _ hsrc _ x b⟩,
    fun h => ⟨_, hostAccess_dstPoke_ok b h, fun x => Memory.read_write _ hdst _ x b⟩,
    hostAccess_dstPeek_ok, hostAccess_srcPoke_hole b, fun h => ⟨hostAccess_dstPoke_hole b h, hostAccess_dstPeek_hole h⟩⟩

/-- Settles O18: NOP's word is executed or gated, and neither changes anything. -/
theorem nopChangesNothing : Obligations.NopChangesNothing :=
  ⟨rfl, fun _ => ⟨rfl, commandWrite_eq_self (decode_encode (i := .nop) rfl) rfl⟩⟩

/-- Settles O19: the gate lets ERR.CLEAR pass, which clears the record. -/
theorem errClearClearsTheRecord : Obligations.ErrClearClearsTheRecord :=
  ⟨rfl, fun _ => ⟨rfl, commandWrite_ok (decode_encode (i := .errClear) rfl) (.inr (.inl rfl))⟩⟩

/-- Settles O16: the gate lets SRESET pass, and it and the reset input both give `resetState`. -/
theorem resetPutsEveryRegisterToItsValue : Obligations.ResetPutsEveryRegisterToItsValue := by
  refine ⟨rfl, fun s => ⟨resetState s, rfl, ?_, rfl, ?_⟩⟩
  · exact commandWrite_ok (decode_encode (i := .sreset) rfl) (.inr (.inr rfl))
  · exact ⟨rfl, rfl, rfl, rfl, rfl, rfl, rfl, rfl, rfl, rfl, rfl, rfl, rfl, rfl,
      fun v => ⟨freqOf_resetState s v, hasSym_resetState s v⟩, rfl, rfl, rfl, rfl, rfl, rfl,
      status_resetState s, rfl, rfl, rfl, rfl, rfl⟩

end Sys2Proof.Machine
end

section
/-! SUPPORT. The exception record (spec/60_exceptions.md R271, R272, R280 to R282): what register ERR reads after a raise, the
gate command by command, what a register write does whatever the record holds, and the exceptions each command records. -/

namespace Sys2Proof.Machine

open Sys2Proof.Laws

/-! ## Register ERR (R271) -/

/-- The value of R272's column ERR. -/
def Exc.errWord (e : Exc) : Word := (0#24 ++ e.cause.code ++ e.kind.code : BitVec 32)

theorem State.records.errWord_eq {s : State} {e : Exc} (h : s.records e) : s.errWord = e.errWord := by
  rw [State.errWord, h.1, h.2, Exc.errWord]

theorem ErrKind.code_le (k : ErrKind) : k.code.toNat ≤ 5 := by cases k <;> decide

theorem State.Inv.errKind_le {s : State} (h : s.Inv) : s.errKind.toNat ≤ 5 := by
  rcases h.err_listed with h0 | ⟨e, -, hkind, -⟩
  · rw [h0]; decide
  · rw [hkind]; exact e.kind.code_le

/-! ## The gate (R282) -/

/-- A command with the opcode of one without operand is that command (R83). -/
theorem eq_of_instrOf_opcode {i j : Instr} (h : instrOf (opcode j) (argOf i) = some j) (hop : opcode i = opcode j) :
    i = j := by
  rw [← hop, instrOf_encoding] at h
  exact Option.some.inj h

/-- The word of every command but ERR.CLEAR and SRESET is gated, well formed or not. -/
theorem gated_encode {i : Instr} {s : State} (hs : s.errKind ≠ 0) (hclear : i ≠ .errClear) (hreset : i ≠ .sreset) :
    gated (encode i) s = true := by
  have hop := opField_encode i
  refine (gated_iff _ _).2 ⟨hs, fun h => hclear ?_, fun h => hreset ?_⟩
  · exact eq_of_instrOf_opcode rfl (hop.symm.trans h)
  · exact eq_of_instrOf_opcode rfl (hop.symm.trans h)

/-! ## Register writes -/

theorem clearExc_raiseExc (e : Exc) (s : State) : clearExc (raiseExc e s) = clearExc s := by
  unfold raiseExc
  split <;> rfl

/-- A change of state that does the same, but for the exception record, whatever the record holds. -/
def IgnoresRecord (f : State → State) : Prop := ∀ s, clearExc (f s) = clearExc (f (clearExc s))

theorem ignoresRecord_raiseExc (e : Exc) : IgnoresRecord (raiseExc e) := fun s =>
  (clearExc_raiseExc e s).trans (clearExc_raiseExc e (clearExc s)).symm

theorem ignoresRecord_writeSrcEnd (v : Word) : IgnoresRecord (writeSrcEnd v) := fun s => by
  by_cases h : s.cfg.srcSize.toNat < v.toNat
  · rw [writeSrcEnd_beyond h, writeSrcEnd_beyond (s := clearExc s) h]
    exact ignoresRecord_raiseExc _ s
  · rw [writeSrcEnd_ok (Nat.le_of_not_lt h), writeSrcEnd_ok (s := clearExc s) (Nat.le_of_not_lt h)]
    rfl

theorem ignoresRecord_writeDstPos (v : Word) : IgnoresRecord (writeDstPos v) := fun s => by
  cases h : s.bwOpen with
  | true =>
    rw [writeDstPos_busy h, writeDstPos_busy (s := clearExc s) h]
    exact ignoresRecord_raiseExc _ s
  | false =>
    rw [writeDstPos_ok h, writeDstPos_ok (s := clearExc s) h]
    rfl

/-- A write of any register but CMD is one change of state, and none looks at the exception record (R33). -/
theorem registerWrite_ignoresRecord {reg : Byte} (v : Word) (h : reg ≠ 0) :
    ∃ f, (∀ s, registerWrite reg v s = .next (f s)) ∧ IgnoresRecord f := by
  unfold registerWrite
  split
  · next hcmd => exact absurd (BitVec.eq_of_toNat_eq hcmd) h
  · exact ⟨fun s => { s with warg := v }, fun _ => rfl, fun _ => rfl⟩
  · exact ⟨fun s => { s with srcPos := v, srcEof := false }, fun _ => rfl, fun _ => rfl⟩
  · exact ⟨_, fun _ => rfl, ignoresRecord_writeSrcEnd v⟩
  · exact ⟨_, fun _ => rfl, ignoresRecord_writeDstPos v⟩
  · exact ⟨_, fun _ => rfl, ignoresRecord_raiseExc _⟩

/-! ## The exceptions a command records -/

/-- No exception is recorded, or one of the list. -/
def RecordsAmong (es : List Exc) (t : State) : Prop := t.errKind = 0 ∨ ∃ e ∈ es, t.records e

theorem Eff.Keeps.recordsAmong {α : Type} {P : State → Prop} {es fs : List Exc} {regs : List Reg} {s t : State}
    {r : Eff α} (hk : r.Keeps P es) (hm : r.Moves regs s) (hs : s.errKind = 0) (ht : r.finish = .next t)
    (hes : es ⊆ fs) (hregs : .err ∉ regs) : RecordsAmong fs t :=
  (hk.mono hes fun _ h => h).records hm hregs hs ht

/-- A command that does not write the exception record records nothing. -/
theorem recordsAmong_of_exec {i : Instr} {es : List Exc} {s t : State} (hs : s.errKind = 0) (ht : exec i s = .next t)
    (hi : .err ∉ writes i) : RecordsAmong es t :=
  .inl (((exec_within ht).same .err hi).1.trans hs)

/-- From a state with the invariant a well-formed command records nothing, or a row of R272 that names it. -/
theorem exec_recordsAmong {i : Instr} {s t : State} (hwf : i.wellFormed = true) (h : s.Inv) (hs : s.errKind = 0)
    (ht : exec i s = .next t) : RecordsAmong (raisable i) t := by
  cases i with
  | bwOpen => exact (writerOpen_keeps h.mid).recordsAmong (writerOpen_moves s) hs ht (by decide) (by decide)
  | bwWrite arg =>
    have hbit : (writerBit (argBit arg) s).finish = .next t := (if_pos (of_decide_eq_true hwf)).symm.trans ht
    exact (writerBit_keeps _ h.mid).recordsAmong (writerBit_moves _ s) hs hbit (List.Subset.refl _) (by decide)
  | bwFlush => exact (writerFlush_keeps h.mid).recordsAmong (writerFlush_moves s) hs ht (by decide) (by decide)
  | bwDestroy => exact (writerDestroy_keeps h.mid).recordsAmong (writerDestroy_moves s) hs ht (by decide) (by decide)
  | brOpen => exact (readerOpen_keeps h).recordsAmong (readerOpen_moves s) hs ht (by decide) (by decide)
  | brRead => exact (readerBit_keeps h).recordsAmong (readerBit_moves s) hs ht (by decide) (by decide)
  | htSave => exact (saveTree_keeps h).recordsAmong (saveTree_moves s) hs ht (by decide) (by decide)
  | htLoad => exact (loadTree_keeps h).recordsAmong (loadTree_moves s) hs ht (by decide) (by decide)
  | htEncode =>
    exact (encodeSource_keeps (es := writeExcs ++ walkExcs) h (by simp) (.inr (by simp))).recordsAmong
      (encodeSource_moves s) hs ht (by decide) (by decide)
  | htDecode => exact (decodeSource_keeps h).recordsAmong (decodeSource_moves s) hs ht (by decide) (by decide)
  | facadeEncode => exact (facadeEncode_keeps h).recordsAmong (facadeEncode_moves s) hs ht (by decide) (by decide)
  | facadeDecode => exact (facadeDecode_keeps h).recordsAmong (facadeDecode_moves s) hs ht (by decide) (by decide)
  | errClear | sreset => cases ht; exact .inl rfl
  | nop | bwSize | brEos | brSize | fcClear | fcSet _ | fcCount | fcPad | fcGet _ | fcNsym | htBuild | htSnap | htEq
  | htAdsize => exact recordsAmong_of_exec hs ht (by simp [writes])

/-! ## The statements -/

/-- Settles O6: the gate by the opcode of the command's word, and a register write as a change that ignores the record. -/
theorem gateRefusesCommandsAndNothingElse : Obligations.GateRefusesCommandsAndNothingElse := by
  refine ⟨fun i s hs hclear hreset => commandWrite_gated (gated_encode hs hclear hreset), fun s => ⟨?_, ?_⟩,
    fun _ _ => rfl, fun reg v s hreg => ?_⟩
  · exact commandWrite_ok (decode_encode rfl) (.inr (.inl rfl))
  · exact commandWrite_ok (decode_encode rfl) (.inr (.inr rfl))
  · obtain ⟨f, hf, hrec⟩ := registerWrite_ignoresRecord v hreg
    exact ⟨f s, f (clearExc s), hf s, hf (clearExc s), hrec s⟩

/-- Settles O9: command by command, by what its operation can raise and what it writes. -/
theorem commandsRecordOnlyTheirExceptions : Obligations.CommandsRecordOnlyTheirExceptions := fun _ _ _ =>
  exec_recordsAmong

/-- Settles O7: the two cases of a raise, and the release of a writer after a body that raised. -/
theorem raiseRecordsTheFirstException : Obligations.RaiseRecordsTheFirstException :=
  ⟨fun e _ => raiseExc_of_none e, fun e _ => raiseExc_of_some e, fun e s =>
    let ⟨t, ht, _⟩ := releaseWriter_of_raised e s
    ⟨t, ht⟩⟩

/-- Settles O8: after a raise ERR reads the exception's own word, whose value is computed row by row. -/
theorem errRegisterReadsThePair : Obligations.ErrRegisterReadsThePair := by
  refine ⟨errWord_toNat, fun s hs => ?_, fun s h => h.errKind_le⟩
  calc recordedExcs.map (fun e => (raiseExc e s).regValue 0x02)
      = recordedExcs.map Exc.errWord := List.map_congr_left fun e _ => (raiseExc_records e hs).errWord_eq
    _ = _ := by decide

end Sys2Proof.Machine
end
